-- ==== Sys2Proof/Word.lean ====
section
/-! DEFINITION. The values the block moves: a 64-bit word, a binary64 real held by its encoding, a complex sample
(spec/00_scope.md rules R6 to R8). -/

namespace Sys2Proof

/-- A 64-bit word of the host port (R60, R61). -/
abbrev Word64 := BitVec 64

/-- A real of the spec is an IEEE 754 binary64 value (R8). It is held by its 64-bit encoding, so that copies are exact bit
for bit, NaN payloads and signed zeros included (R15, R153). -/
abbrev Binary64 := BitVec 64

/-- A complex sample, an ordered pair of binary64 values (R8, R43). -/
structure Sample where
  re : Binary64
  im : Binary64
deriving DecidableEq, Repr, Inhabited

/-- The sample `+0.0 + (+0.0)i`, the only zero the block itself makes (R7, R193, R224). -/
def Sample.zero : Sample := ⟨0, 0⟩

/-- Direction of a discrete Fourier transform request (R13, R80). -/
inductive Dir
  | fwd
  | inv
deriving DecidableEq, Repr, Inhabited

end Sys2Proof
end

