-- ==== Sys2Proof/Config.lean ====
section
/-! DEFINITION. What an implementation fixes and the spec leaves OPEN (R5, R13), and the free values the spec leaves
unspecified (spec/93_implementation_defined.md U1 to U4, U6, U8). Every free value is an opaque constant with no body: no proof can see
what it is, so a claim holds whatever it is. -/

namespace Sys2Proof

/-- The numerics record `NUM` (R13): total functions of their arguments alone, of which the machine assumes nothing else.
`fft dir x k` and `conv p q t` are element `k` or `t` of the response: the response itself is built to the contracted length
(R80, R83) in Machine/Sequences.lean. -/
structure Numerics where
  fft : Dir → List Sample → Nat → Sample
  conv : List Sample → List Sample → Nat → Sample
  sqrt : Binary64 → Binary64
  sin : Binary64 → Binary64
  tan : Binary64 → Binary64
  cis : Binary64 → Sample
  sinc : Binary64 → Binary64
  pi : Binary64
deriving Inhabited

/-- The operations of the block that can produce a NaN out of binary64 arithmetic (U4). -/
inductive FpOp
  | add
  | mul
  | div
  | floormod4
deriving DecidableEq, Repr, Inhabited

/-- The agents of R17 and R310. The engine sequencer appears twice, at the two step sizes the spec allows: `command` runs the
whole pipeline of an accepted command as one step (R132), `stage` takes one stage of it (R125). `reset` is the platform asserting
`rst` (R290). -/
inductive Agent
  | host
  | command
  | stage
  | fftCore
  | convCore
  | reset
deriving DecidableEq, Repr, Inhabited

namespace Config

/-- OPEN parameter `NUM` (R5, R13; U3). Log entry 2. -/
opaque num : Numerics

/-- The free part of the OPEN parameter NMAX (R5). Log entry 3. -/
opaque nmaxFree : Nat

/-- NMAX, the capacity of XBUF in samples: any integer from 2048 to 2^20 (R5, D7). -/
def nmax : Nat := nmaxFree % 1046529 + 2048

/-- YCAP, the capacity of YBUF in samples, is fixed as 2*NMAX (R5, R22). -/
def ycap : Nat := 2 * nmax

/-- The free part of the platform parameter BASE (R61; U8). Log entry 4. -/
opaque baseIndex : BitVec 6

/-- BASE, the instance's base address: a multiple of 2^26 in the 32-bit address space (R61). -/
def base : BitVec 32 := baseIndex ++ (0 : BitVec 26)

/-- FREE VALUE: the unspecified 64-bit words, one for each draw (R42, R67; U1, U2). Log entry 5. -/
opaque freeWord : Nat → BitVec 64

/-- FREE VALUE: the sign and payload of a NaN that the block's arithmetic produces (U4). Log entry 6. -/
opaque nanBits : FpOp → Binary64 → Binary64 → Binary64

/-- FREE VALUE: which agent is scheduled at a step count that is no due turn (R17, R310, R311; U6). Log entry 7. -/
opaque freeAgent : Nat → Agent

/-- FREE VALUE: the open parameter latency (R5), finite and unbounded: how many steps pass before each due turn (R310, R311; U6). Log
entry 7. -/
opaque freeDelay : Nat → Nat

end Config

end Sys2Proof
end

