-- ==== Sys2Proof/Machine/Binary64.lean ====
section
/-! DEFINITION. Binary64 arithmetic on encodings (spec/00_scope.md rule R11): IEEE 754 addition, subtraction, multiplication, division and
comparison, rounding to nearest with ties to even, nothing fused. A finite binary64 value is an integer multiple of 2^-1074, the
UNIT; results are computed exactly in units and rounded once. The bits of a NaN result are a free value (U4). -/

namespace Sys2Proof.Machine.F64

/-- The encoding of the infinities without the sign bit. -/
def infBits : Nat := 0x7FF0000000000000

/-- How many units make 1.0: 2^1074, in factors that Lean evaluates without raising a limit. -/
def unitsPerOne : Nat := (2 ^ 179) ^ 6

/-- The sign bit, bit 63. -/
def sign (a : Binary64) : Bool := a.getLsbD 63

/-- The encoding without its sign bit. -/
def magBits (a : Binary64) : Nat := a.toNat % 2 ^ 63

/-- A NaN: all exponent bits set and a nonzero fraction. -/
def isNaN (a : Binary64) : Bool := decide (infBits < magBits a)

/-- An infinity of either sign. -/
def isInf (a : Binary64) : Bool := magBits a == infBits

/-- A finite value. -/
def isFinite (a : Binary64) : Bool := decide (magBits a < infBits)

/-- The magnitude in units that an encoding without sign bit stands for, if it is finite: exponent field 0 holds the subnormals. -/
def unitsOfBits (m : Nat) : Nat :=
  if m / 2 ^ 52 = 0 then m else (2 ^ 52 + m % 2 ^ 52) * 2 ^ (m / 2 ^ 52 - 1)

/-- The magnitude of a finite value, in units. -/
def units (a : Binary64) : Nat := unitsOfBits (magBits a)

/-- The exact value of a finite encoding, in units. -/
def toInt (a : Binary64) : Int := if sign a then -(units a : Int) else (units a : Int)

/-- The encoding, without sign bit, of the exact magnitude `num / den` units rounded to nearest with ties to even (R11): infinite
where it rounds past the largest finite value. -/
def roundBits (num den : Nat) : Nat :=
  let sh := Nat.log2 (num / den) - 52
  let d := den * 2 ^ sh
  let q := num / d
  let r := num % d
  let q' := if d < 2 * r ∨ (2 * r = d ∧ q % 2 = 1) then q + 1 else q
  min (sh * 2 ^ 52 + q') infBits

/-- An encoding from its sign and the rest. -/
def pack (neg : Bool) (m : Nat) : Binary64 := BitVec.ofNat 64 ((if neg then 2 ^ 63 else 0) + m)

/-- The NaN an operation produces: any NaN encoding (U4; log entry 6). -/
def nanOf (op : FpOp) (a b : Binary64) : Binary64 :=
  if isNaN (Config.nanBits op a b) then Config.nanBits op a b else 0x7FF8000000000000#64

/-- `+0.0`. -/
def zero : Binary64 := 0x0000000000000000#64
/-- `0.5`. -/
def half : Binary64 := 0x3FE0000000000000#64
/-- `1.0`. -/
def one : Binary64 := 0x3FF0000000000000#64
/-- `1.5`. -/
def oneHalf : Binary64 := 0x3FF8000000000000#64
/-- `2.0`. -/
def two : Binary64 := 0x4000000000000000#64
/-- `3.0`. -/
def three : Binary64 := 0x4008000000000000#64
/-- `4.0`. -/
def four : Binary64 := 0x4010000000000000#64

/-- Negation flips bit 63 only; exact for every value, NaN and zeros included (D35). -/
def neg (a : Binary64) : Binary64 := a ^^^ 0x8000000000000000#64

/-- Addition (R11). An exact zero sum is `+0.0` unless both operands are negative. -/
def add (a b : Binary64) : Binary64 :=
  if isNaN a || isNaN b then nanOf .add a b
  else if isInf a then (if isInf b && sign a != sign b then nanOf .add a b else a)
  else if isInf b then b
  else if toInt a + toInt b = 0 then pack (sign a && sign b) 0
  else pack (decide (toInt a + toInt b < 0)) (roundBits (toInt a + toInt b).natAbs 1)

/-- Subtraction (R11): addition of the negated operand. -/
def sub (a b : Binary64) : Binary64 := add a (neg b)

/-- Multiplication (R11). -/
def mul (a b : Binary64) : Binary64 :=
  if isNaN a || isNaN b then nanOf .mul a b
  else if isInf a || isInf b then
    (if units a = 0 || units b = 0 then nanOf .mul a b else pack (sign a != sign b) infBits)
  else pack (sign a != sign b) (roundBits (units a * units b) unitsPerOne)

/-- Division (R11). Dividing a nonzero finite value by zero gives an infinity. -/
def div (a b : Binary64) : Binary64 :=
  if isNaN a || isNaN b then nanOf .div a b
  else if isInf a then (if isInf b then nanOf .div a b else pack (sign a != sign b) infBits)
  else if isInf b then pack (sign a != sign b) 0
  else if units b = 0 then
    (if units a = 0 then nanOf .div a b else pack (sign a != sign b) infBits)
  else pack (sign a != sign b) (roundBits (units a * unitsPerOne) (units b))

/-- The place of a value that is no NaN in the order of binary64: encodings of one sign are ordered as numbers, and the two zeros
share a place. -/
def key (a : Binary64) : Int := if sign a then -(magBits a : Int) else (magBits a : Int)

/-- `a < b`; false with a NaN operand (R11). -/
def lt (a b : Binary64) : Bool := !isNaN a && !isNaN b && decide (key a < key b)

/-- `a <= b`; false with a NaN operand (R11). -/
def le (a b : Binary64) : Bool := !isNaN a && !isNaN b && decide (key a ≤ key b)

/-- `a == b`; false with a NaN operand, and `-0.0 == +0.0` (R11). -/
def eq (a b : Binary64) : Bool := !isNaN a && !isNaN b && decide (key a = key b)

/-- The binary64 value of an integer; exact below 2^53 (R10). -/
def ofInt (n : Int) : Binary64 := pack (decide (n < 0)) (roundBits (n.natAbs * unitsPerOne) 1)

/-- `binary64(n)` of a natural number (R10). -/
def ofNat (n : Nat) : Binary64 := ofInt n

/-- The exact truncated remainder `a - 4 * trunc(a / 4)` of a finite `a`: it has the sign of `a` (R141). -/
def fmod4 (a : Binary64) : Binary64 := pack (sign a) (roundBits (units a % (4 * unitsPerOne)) 1)

end Sys2Proof.Machine.F64
end

