-- ==== Sys2Proof/Syntax.lean ====
section
/-! DEFINITION. The commands of the block (spec/30_encoding.md rule R102), one constructor per row of spec/opcode_table.json. No command
carries an operand in its word (R101): operands come from LEN, ORDER and XBUF. -/

namespace Sys2Proof

/-- The six commands (R102). -/
inductive Instr
  /-- 0x0: no operation; completes successfully (R130). -/
  | nop
  /-- 0x1: fractional Fourier transform of XBUF at order ORDER (R241). -/
  | frft
  /-- 0x2: inverse fractional Fourier transform (R244). -/
  | ifrft
  /-- 0x3: order dispatch and range reduction only (R155). -/
  | reduce
  /-- 0x4: band-limited 2x upsampling (R197). -/
  | interp
  /-- 0x5: chirp engine and normaliser alone (R222). -/
  | engine
deriving DecidableEq, Repr, Inhabited

/-- What decoding a CMD word gives the sequencer: a command or ILLEGAL (R103). -/
inductive Op
  | legal (i : Instr)
  | illegal
deriving DecidableEq, Repr, Inhabited

end Sys2Proof
end

