-- ==== Sys2Proof/Machine/State.lean ====
section
/-! DEFINITION. The state of one instance (spec/10_state.md), plain data, its reset value (spec/70_reset_and_hazards.md rules R290, R293), and the
named reasons a step or a host access can fail. -/

namespace Sys2Proof.Machine

/-- The host-access errors the spec describes (R264): each is a bus error response that changes no block state (R62). They are
RECORDED in `State.hostFaults` and never cleared (spec/93 U12); the machine goes on. Recording one is safe: a claim takes 'no bus
error' as a premise. -/
inductive Fault
  /-- Raised by a host access of a width other than 64 bits (R62). Safe. -/
  | busWidth (offset : BitVec 32) (bytes : Nat)
  /-- Raised by a host access at an address that is not a multiple of 8 (R62). Safe. -/
  | busMisaligned (offset : BitVec 32)
  /-- Raised by a host access to an offset in no mapped window (R64). Safe. -/
  | busUnmapped (offset : BitVec 32)
  /-- Raised by a host write in the YBUF window (R65). Safe. -/
  | busYbufWrite (offset : BitVec 32)
deriving DecidableEq, Repr

/-- Why a step has no meaning in this model. -/
inductive Refusal
  /-- Raised by exec's arm of an instruction that has no meaning yet; no arm does. Safe. -/
  | notModelled (mnemonic : String)
  /-- Raised by step in a state where a core response exists with no request outstanding, which the spec puts outside its meaning
  (R291; spec/93 U11). Safe. -/
  | staleCoreResponse
deriving DecidableEq, Repr

/-- STATUS.ERRCODE (R24, R261). Values 5 to 15 are never written. -/
inductive ErrCode
  | none
  | emptySignal
  | degenerateOrder
  | illegalCommand
  | lengthRange
deriving DecidableEq, Repr, Inhabited

/-- The class of a reduced order (R143). -/
inductive OrderClass
  | identity
  | parity
  | cdft
  | cidft
  | general
deriving DecidableEq, Repr, Inhabited

/-- The content of the PATH register (R32). -/
inductive PathReg
  /-- CLASS 0, the reset value; never written by a command. -/
  | unset
  /-- CLASS 1 to 5 with the reducer's record P, F, I. -/
  | dispatched (cls : OrderClass) (p f i : Bool)
  /-- CLASS 6, the N = 1 identity. -/
  | short
deriving DecidableEq, Repr, Inhabited

/-- What the order dispatcher and the range reducer compute from an order: the reduced order, the engine order, the class and the
reducer's flags (R38 `ar`, `ae`, `flags`; R150). -/
structure OrderRecord where
  ar : Binary64
  ae : Binary64
  cls : OrderClass
  p : Bool
  f : Bool
  i : Bool
deriving DecidableEq, Repr, Inhabited

/-- The stages of a running command (R35). -/
inductive Stage
  | check
  | dispatch
  | reduce
  | fftWait
  | interpWait
  | chirpWait
  | finish
deriving DecidableEq, Repr, Inhabited

/-- SEQ, the sequencer state (R35). -/
inductive Seq
  | idle
  | run (st : Stage)
deriving DecidableEq, Repr, Inhabited

/-- SNAP, the command snapshot (R36). -/
structure Snapshot where
  op : Op
  n : BitVec 32
  a0 : Binary64
deriving DecidableEq, Repr, Inhabited

/-- A request to one of the two external cores (R80, R83). -/
inductive CoreRequest
  | fft (dir : Dir) (x : List Sample)
  | conv (p q : List Sample)
deriving DecidableEq, Repr

/-- The working sequences of the running command (R38), and its result until the completion step writes it (R126). -/
structure Work where
  f : List Sample
  order : OrderRecord
  u : List Sample
  p : List Sample
  chirp1 : List Sample
  chirp2 : List Sample
  w : List Sample
  result : List Sample
deriving DecidableEq, Repr, Inhabited

/-- No working sequences: before acceptance and after completion (R38). -/
def Work.empty : Work := ⟨[], ⟨0, 0, .identity, false, false, false⟩, [], [], [], [], [], []⟩

/-- One access of the host at the port, by its offset from BASE (R61, R62), or the `wait` of the host script (R106). -/
inductive HostAccess
  | read (offset : BitVec 32) (bytes : Nat)
  | write (offset : BitVec 32) (bytes : Nat) (value : BitVec 64)
  | wait
deriving DecidableEq, Repr

/-- The port's answer to one access (R62). -/
inductive PortResponse
  | data (value : BitVec 64)
  | written
  | busError
deriving DecidableEq, Repr

/-- The bytes of XBUF and YBUF that have been written since reset, by offset from BASE (R63, R64), addresses strictly rising. An
address that is not listed has no value: its content is unspecified (R42). -/
abbrev Memory := List Host.Cell

/-- The state of one instance. The first group is what the spec names; the second is the model's own. -/
structure State where
  /-- CTRL.IE (R23). CTRL[63:1] reads zero. -/
  ie : Bool
  /-- STATUS.BUSY (R24). -/
  busy : Bool
  /-- STATUS.DONE (R24). -/
  done : Bool
  /-- STATUS.OVR (R24). -/
  ovr : Bool
  /-- STATUS.ERRCODE, of which STATUS.ERR is a view (R24). -/
  errcode : ErrCode
  /-- STATUS.LASTOP (R24). -/
  lastop : BitVec 4
  /-- CMD, the last accepted word (R25). -/
  cmd : BitVec 64
  /-- LEN[31:0]; LEN[63:32] reads zero (R28). -/
  len : BitVec 32
  /-- ORDER (R29). -/
  order : Binary64
  /-- ORDER_RED (R30). -/
  orderRed : Binary64
  /-- ORDER_ENG (R31). -/
  orderEng : Binary64
  /-- PATH (R32). -/
  path : PathReg
  /-- OUTLEN[31:0]; OUTLEN[63:32] reads zero (R33). -/
  outlen : BitVec 32
  /-- SEQ (R35). -/
  seq : Seq
  /-- SNAP (R36). -/
  snap : Snapshot
  /-- PEND, the outstanding core request (R37). -/
  pend : Option CoreRequest
  /-- The response on the core port that the sequencer has not taken yet (R125). -/
  coreResp : Option (List Sample)
  /-- The working sequences (R38). -/
  work : Work
  /-- XBUF and YBUF (R40, R41). -/
  mem : Memory
  /-- MODEL'S OWN: how many free words have been drawn (log entry 5). -/
  draws : Nat
  /-- MODEL'S OWN: the accesses the host has still to make, in its order (R72; log entry 8). -/
  hostQueue : List HostAccess
  /-- MODEL'S OWN: the port's answers so far, the latest first (log entry 8). -/
  responses : List PortResponse
  /-- MODEL'S OWN: the bus errors so far, the latest first, never cleared (U12; log entry 9). -/
  hostFaults : List Fault
  /-- MODEL'S OWN: which agents step next; where it is empty the schedule decides (R310; log entry 7). -/
  agenda : List Agent
  /-- MODEL'S OWN: how many steps have been taken, the argument of the schedule (log entry 7). -/
  ticks : Nat
deriving DecidableEq, Repr

/-- The machine right after reset (R290, R293). -/
def State.reset : State where
  ie := false
  busy := false
  done := false
  ovr := false
  errcode := .none
  lastop := 0
  cmd := 0
  len := 0
  order := 0
  orderRed := 0
  orderEng := 0
  path := .unset
  outlen := 0
  seq := .idle
  snap := ⟨.legal .nop, 0, 0⟩
  pend := none
  coreResp := none
  work := Work.empty
  mem := []
  draws := 0
  hostQueue := []
  responses := []
  hostFaults := []
  agenda := []
  ticks := 0

end Sys2Proof.Machine
end

