-- ==== Sys2Proof/Machine/Sequences.lean ====
section
/-! DEFINITION. Complex arithmetic of the datapath (R12), the sequence notation of R7, and the two core responses as values of the
numerics record (R13, R80, R83). -/

namespace Sys2Proof.Machine

/-- Complex product: four products and two sums, each rounded (R12). -/
def cmul (x y : Sample) : Sample :=
  ⟨F64.sub (F64.mul x.re y.re) (F64.mul x.im y.im), F64.add (F64.mul x.re y.im) (F64.mul x.im y.re)⟩

/-- Real times complex (R12). -/
def rscale (s : Binary64) (z : Sample) : Sample := ⟨F64.mul s z.re, F64.mul s z.im⟩

/-- Complex divided by real (R12). -/
def rdiv (z : Sample) (s : Binary64) : Sample := ⟨F64.div z.re s, F64.div z.im s⟩

/-- Element `j` of a sequence (R7). Every use stays inside the sequence's length. -/
def elem (x : List Sample) (j : Nat) : Sample := x.getD j Sample.zero

/-- `zeros(n)` (R7). -/
def zeros (n : Nat) : List Sample := List.replicate n Sample.zero

/-- `x[s : s+m]` (R7). -/
def slice (x : List Sample) (s m : Nat) : List Sample := (x.drop s).take m

/-- `x[s : s+2m : 2]` (R7). -/
def strided (x : List Sample) (s m : Nat) : List Sample := (List.range m).map fun n => elem x (s + 2 * n)

/-- `x .* y` (R7, R12). -/
def hadamard (x y : List Sample) : List Sample := List.zipWith cmul x y

/-- The FFT core's response `NUM.fft(dir, x)`, of the request's length (R13, R80). -/
def fftResponse (num : Numerics) (dir : Dir) (x : List Sample) : List Sample :=
  (List.range x.length).map (num.fft dir x)

/-- The convolution core's response `NUM.conv(p, q)`, of length P + Q - 1 (R13, R83). -/
def convResponse (num : Numerics) (p q : List Sample) : List Sample :=
  (List.range (p.length + q.length - 1)).map (num.conv p q)

/-- The response to a request (R80, R83). -/
def respond (num : Numerics) (r : CoreRequest) : List Sample :=
  match r with
  | .fft dir x => fftResponse num dir x
  | .conv p q => convResponse num p q

end Sys2Proof.Machine
end

