-- ==== Sys2Proof/Machine/Interpolator.lean ====
section
/-! DEFINITION. The band-limited upsampler `sincinterp` (spec/43_interpolator.md). -/

namespace Sys2Proof.Machine

/-- Step 1, zero stuffing to length 2N - 1: the samples at the even indices, `+0.0 + (+0.0)i` at the odd ones (R193). -/
def zeroStuff (x : List Sample) : List Sample :=
  (List.range (2 * x.length - 1)).map fun j => if j % 2 = 0 then elem x (j / 2) else Sample.zero

/-- Step 2, the sinc kernel of 4N - 5 points at half-integer steps, symmetric about 0 (R192, R194). -/
def sincKernel (num : Numerics) (n : Nat) : List Sample :=
  (List.range (4 * n - 5)).map fun m : Nat =>
    ⟨num.sinc (F64.div (F64.ofInt ((m : Int) - (2 * (n : Int) - 3))) F64.two), F64.zero⟩

/-- Step 3, truncation to the central 2N - 1 samples (R196). -/
def interpTruncate (n : Nat) (w : List Sample) : List Sample := slice w (2 * n - 3) (2 * n - 1)

/-- `sincinterp(x)` for a sequence of length at least 2 (R192). -/
def sincinterp (num : Numerics) (x : List Sample) : List Sample :=
  interpTruncate x.length (convResponse num (zeroStuff x) (sincKernel num x.length))

end Sys2Proof.Machine
end

