-- ==== Sys2Proof/Machine/OrderDispatcher.lean ====
section
/-! DEFINITION. The order dispatcher (spec/41_order_dispatch.md) and the order part and signal part of the range reducer
(spec/42_range_reducer.md). -/

namespace Sys2Proof.Machine

/-- Floor-mod reduction of the order into [0, 4) (R141). -/
def floormod4 (a : Binary64) : Binary64 :=
  if F64.isNaN a || F64.isInf a then F64.nanOf .floormod4 a F64.four
  else
    let r0 := F64.fmod4 a
    let r := if F64.lt r0 F64.zero then F64.add r0 F64.four else r0
    let r := if F64.eq r F64.four then F64.zero else r
    if F64.eq r F64.zero then F64.zero else r

/-- Classification by exact binary64 equality, in the source's order (R143). -/
def classify (ar : Binary64) : OrderClass :=
  if F64.eq ar F64.zero then .identity
  else if F64.eq ar F64.two then .parity
  else if F64.eq ar F64.one then .cdft
  else if F64.eq ar F64.three then .cidft
  else .general

/-- Reducer step 1, order part (R172): the order after it and whether it fired. -/
def reduceParity (a : Binary64) : Binary64 × Bool :=
  if F64.lt F64.two a then (F64.sub a F64.two, true) else (a, false)

/-- Reducer step 2, order part (R173). -/
def reduceForward (a : Binary64) : Binary64 × Bool :=
  if F64.lt F64.oneHalf a then (F64.sub a F64.one, true) else (a, false)

/-- Reducer step 3, order part (R174). -/
def reduceInverse (a : Binary64) : Binary64 × Bool :=
  if F64.lt a F64.half then (F64.add a F64.one, true) else (a, false)

/-- `reduce_order` of R171 on a GENERAL-class reduced order: each test reads the order the previous step left. -/
def reduceOrder (ar : Binary64) : OrderRecord :=
  let s1 := reduceParity ar
  let s2 := reduceForward s1.1
  let s3 := reduceInverse s2.1
  ⟨ar, s3.1, .general, s1.2, s2.2, s3.2⟩

/-- The dispatch of an order: reduced order, class, and for a GENERAL class the reducer's record (R141, R143, R152, R155). -/
def dispatchOrder (a : Binary64) : OrderRecord :=
  if classify (floormod4 a) = .general then reduceOrder (floormod4 a)
  else ⟨floormod4 a, floormod4 a, classify (floormod4 a), false, false, false⟩

/-- `0.5 <= a <= 1.5`, the engine's contract interval; false for a NaN (R211). -/
def inEngineRange (a : Binary64) : Bool := F64.le F64.half a && F64.le a F64.oneHalf

/-- The centering shift (R145). -/
def shiftIndex (n i : Nat) : Nat := (i + n / 2) % n

/-- The index that the centering shift sends to `j`. -/
def unshiftIndex (n j : Nat) : Nat := (j + (n - n / 2)) % n

/-- `gather(f)[i] = f[shift[i]]` (R146). -/
def gather (f : List Sample) : List Sample :=
  (List.range f.length).map fun i => elem f (shiftIndex f.length i)

/-- `scatter(G)`, the sequence with `out[shift[i]] = G[i]` (R146). -/
def scatter (g : List Sample) : List Sample :=
  (List.range g.length).map fun j => elem g (unshiftIndex g.length j)

/-- What a centred transform does with the core's response: each component divided by `NUM.sqrt(N)`, then scattered (R147, R148,
R82). -/
def centredFinish (num : Numerics) (g : List Sample) : List Sample :=
  scatter (g.map fun z => rdiv z (num.sqrt (F64.ofNat g.length)))

/-- CDFT, the centred unitary forward DFT (R147). -/
def cdft (num : Numerics) (f : List Sample) : List Sample := centredFinish num (fftResponse num .fwd (gather f))

/-- CIDFT, the centred unitary inverse DFT (R148). -/
def cidft (num : Numerics) (f : List Sample) : List Sample := centredFinish num (fftResponse num .inv (gather f))

/-- The signal part of the range reducer: the sub-transforms of the steps that fired, in the reducer's order (R171 to R174). -/
def reduceSignal (num : Numerics) (o : OrderRecord) (f : List Sample) : List Sample :=
  let f1 := if o.p then f.reverse else f
  let f2 := if o.f then cdft num f1 else f1
  if o.i then cidft num f2 else f2

end Sys2Proof.Machine
end

