-- ==== Sys2Proof/Machine/ChirpEngine.lean ====
section
/-! DEFINITION. The chirp modulation engine and the normaliser (spec/44_chirp_engine.md), each real expression in the spec's evaluation
order (D39). -/

namespace Sys2Proof.Machine

/-- `alpha = (a * NUM.pi) / 2.0` (R211). -/
def alphaOf (num : Numerics) (a : Binary64) : Binary64 := F64.div (F64.mul a num.pi) F64.two

/-- `tana2 = NUM.tan(alpha / 2.0)` (R211). -/
def tana2Of (num : Numerics) (a : Binary64) : Binary64 := num.tan (F64.div (alphaOf num a) F64.two)

/-- `sina = NUM.sin(alpha)` (R211). -/
def sinaOf (num : Numerics) (a : Binary64) : Binary64 := num.sin (alphaOf num a)

/-- The order guard passes: the order is in [0.5, 1.5] and `sina` is no zero (R211). -/
def guardPasses (num : Numerics) (a : Binary64) : Bool := inEngineRange a && !F64.eq (sinaOf num a) F64.zero

/-- Symmetric zero padding of the upsampled signal to length 4N - 3 (R212). -/
def padSymmetric (n : Nat) (u : List Sample) : List Sample := zeros (n - 1) ++ u ++ zeros (n - 1)

/-- `beta = ((NUM.pi / binary64(N)) * tana2) / 4.0` (R213). -/
def betaOf (num : Numerics) (n : Nat) (tana2 : Binary64) : Binary64 :=
  F64.div (F64.mul (F64.div num.pi (F64.ofNat n)) tana2) F64.four

/-- Chirp 1, of length 4N - 3, centred index `k = j - (2N-2)` (R213). -/
def makeChirp1 (num : Numerics) (n : Nat) (tana2 : Binary64) : List Sample :=
  (List.range (4 * n - 3)).map fun j : Nat =>
    let k : Int := (j : Int) - (2 * (n : Int) - 2)
    num.cis (F64.neg (F64.mul (betaOf num n tana2) (F64.ofInt (k * k))))

/-- `c = NUM.pi / ((4.0 * binary64(N)) * sina)` (R215). -/
def chirpRate (num : Numerics) (n : Nat) (sina : Binary64) : Binary64 :=
  F64.div num.pi (F64.mul (F64.mul F64.four (F64.ofNat n)) sina)

/-- Chirp 2, of length 8N - 7, centred index `k = m - (4N-4)` (R215). -/
def makeChirp2 (num : Numerics) (n : Nat) (sina : Binary64) : List Sample :=
  (List.range (8 * n - 7)).map fun m : Nat =>
    let k : Int := (m : Int) - (4 * (n : Int) - 4)
    num.cis (F64.mul (chirpRate num n sina) (F64.ofInt (k * k)))

/-- Step 4: the window at offset 4N - 4 of length 4N - 3, scaled by `NUM.sqrt(c / NUM.pi)` (R217). -/
def windowScale (num : Numerics) (n : Nat) (c : Binary64) (w : List Sample) : List Sample :=
  (slice w (4 * n - 4) (4 * n - 3)).map (rscale (num.sqrt (F64.div c num.pi)))

/-- The normaliser's global phase `NUM.cis(-(((1.0 - a) * NUM.pi) / 4.0))` (R220). -/
def normalise (num : Numerics) (a : Binary64) (d : List Sample) : List Sample :=
  d.map (cmul (num.cis (F64.neg (F64.div (F64.mul (F64.sub F64.one a) num.pi) F64.four))))

/-- The premultiplied array `q1 = chirp1 .* p` (R214). -/
def premultiply (chirp1 p : List Sample) : List Sample := hadamard chirp1 p

/-- What the engine does with the chirp convolution's response: window and scale, postmultiply, downsample, normalise (R217 to
R220). -/
def chirpFinish (num : Numerics) (n : Nat) (a : Binary64) (chirp1 w : List Sample) : List Sample :=
  normalise num a
    (strided (hadamard chirp1 (windowScale num n (chirpRate num n (sinaOf num a)) w)) (n - 1) n)

/-- The engine past its guard, for a signal of length at least 2 (R210). -/
def engineBody (num : Numerics) (f : List Sample) (a : Binary64) : List Sample :=
  let n := f.length
  let chirp1 := makeChirp1 num n (tana2Of num a)
  let p := padSymmetric n (sincinterp num f)
  let w := convResponse num (premultiply chirp1 p) (makeChirp2 num n (sinaOf num a))
  chirpFinish num n a chirp1 w

/-- `Engine(f, a)` (R210): the guard is tested before anything else. -/
def engineRun (num : Numerics) (f : List Sample) (a : Binary64) : Except ErrCode (List Sample) :=
  if guardPasses num a then .ok (engineBody num f a) else .error .degenerateOrder

/-- `special(class, f)` and, for GENERAL, the reducer's signal part and the engine: the result part of `FrftBody` (R152, R241). -/
def transformResult (num : Numerics) (o : OrderRecord) (f : List Sample) : Except ErrCode (List Sample) :=
  match o.cls with
  | .identity => .ok f
  | .parity => .ok f.reverse
  | .cdft => .ok (cdft num f)
  | .cidft => .ok (cidft num f)
  | .general => engineRun num (reduceSignal num o f) o.ae

end Sys2Proof.Machine
end

