-- ==== Sys2Proof/Machine/Flags.lean ====
section
/-! DEFINITION. The status word and the other register words as software reads them, the write-one-to-clear bits, and the interrupt output
(spec/10_state.md rules R20 to R34; spec/60_exceptions.md rule R270). -/

namespace Sys2Proof.Machine

/-- STATUS.ERRCODE's value (R24, R261). -/
def errBits (e : ErrCode) : BitVec 4 :=
  match e with
  | .none => 0
  | .emptySignal => 1
  | .degenerateOrder => 2
  | .illegalCommand => 3
  | .lengthRange => 4

/-- STATUS.ERR, which equals `ERRCODE != 0` (R24). -/
def errFlag (s : State) : Bool := errBits s.errcode != 0

/-- STATUS as read (R24): LASTOP at 15:12, ERRCODE at 11:8, ERR at 3, OVR at 2, DONE at 1, BUSY at 0, the rest 0. -/
def statusWord (s : State) : BitVec 64 :=
  (0 : BitVec 48) ++ s.lastop ++ errBits s.errcode ++ (0 : BitVec 4) ++ BitVec.ofBool (errFlag s) ++ BitVec.ofBool s.ovr
    ++ BitVec.ofBool s.done ++ BitVec.ofBool s.busy

/-- The W1C bits react to a host write of STATUS, DONE at bit 1 and OVR at bit 2; nothing else does (R24). -/
def clearStatus (v : BitVec 64) (s : State) : State :=
  { s with done := s.done && !v.getLsbD 1, ovr := s.ovr && !v.getLsbD 2 }

/-- CTRL as read (R23). -/
def ctrlWord (s : State) : BitVec 64 := (BitVec.ofBool s.ie).setWidth 64

/-- PATH.CLASS of a class (R32). -/
def classBits (c : OrderClass) : BitVec 3 :=
  match c with
  | .identity => 1
  | .parity => 2
  | .cdft => 3
  | .cidft => 4
  | .general => 5

/-- PATH as read: I at 6, F at 5, P at 4, CLASS at 2:0 (R32, R150). -/
def pathWord (p : PathReg) : BitVec 64 :=
  match p with
  | .unset => 0
  | .dispatched c p f i =>
    (0 : BitVec 57) ++ BitVec.ofBool i ++ BitVec.ofBool f ++ BitVec.ofBool p ++ (0 : BitVec 1) ++ classBits c
  | .short => 6

/-- ID (R21). -/
def idWord : BitVec 64 := 0x0001000754465246#64

/-- CAP, `{zext_32(2*NMAX), zext_32(NMAX)}` (R22). -/
def capWord : BitVec 64 := BitVec.ofNat 32 Config.ycap ++ BitVec.ofNat 32 Config.nmax

/-- The interrupt output, a level: `irq = DONE and IE` (R270). -/
def irq (s : State) : Bool := s.done && s.ie

end Sys2Proof.Machine
end

