-- ==== Sys2Proof/WellFormed.lean ====
section
/-! DEFINITION. Which command words and instructions are well formed (R100 to R104). -/

namespace Sys2Proof

/-- The reserved field RSV, bits 63:4, is zero (R100). -/
def rsvClear (w : BitVec 64) : Bool := w.extractLsb' 4 60 == 0

/-- The opcode field, bits 3:0, is one of the defined opcodes 0x0 to 0x5 (R102). -/
def opDefined (w : BitVec 64) : Bool := decide (w.extractLsb' 0 4 < 6)

/-- A legal command word (R103). -/
def wellFormedWord (w : BitVec 64) : Bool := rsvClear w && opDefined w

/-- A well-formed instruction. CMD64 has no operand field (R101), so no constructor carries anything that could be out of
range. -/
def Instr.wellFormed (i : Instr) : Bool :=
  match i with
  | .nop => true
  | .frft => true
  | .ifrft => true
  | .reduce => true
  | .interp => true
  | .engine => true

end Sys2Proof
end

