-- ==== Sys2Proof/Decode.lean ====
section
/-! DEFINITION. Decoding of command words, total on every 64-bit word and on every list of bytes, rejecting by name (R100 to R104),
and after it the encoder (R107). -/

namespace Sys2Proof

/-- Why a word is ILLEGAL (R104), or why bytes are not one CMD write (R62, R100). -/
inductive DecodeReject
  /-- A nonzero bit in RSV, bits 63:4. -/
  | reservedBits
  /-- A reserved opcode 0x6 to 0xF. -/
  | reservedOpcode (op : BitVec 4)
  /-- Not exactly the eight bytes of one 64-bit write. -/
  | notOneWord (bytes : Nat)
deriving DecidableEq, Repr

/-- The result of decoding. -/
inductive DecodeResult
  | ok (i : Instr)
  | rejected (why : DecodeReject)
deriving DecidableEq, Repr

/-- OP, bits 3:0 of a command word (R100). -/
def opField (w : BitVec 64) : BitVec 4 := w.extractLsb' 0 4

/-- RSV, bits 63:4 of a command word (R100). -/
def rsvField (w : BitVec 64) : BitVec 60 := w.extractLsb' 4 60

/-- The opcode map (R102, R103). -/
def decodeOp (op : BitVec 4) : DecodeResult :=
  match op with
  | 0x0#4 => .ok .nop
  | 0x1#4 => .ok .frft
  | 0x2#4 => .ok .ifrft
  | 0x3#4 => .ok .reduce
  | 0x4#4 => .ok .interp
  | 0x5#4 => .ok .engine
  | op => .rejected (.reservedOpcode op)

/-- `decode(w)` of R103. -/
def decode (w : BitVec 64) : DecodeResult :=
  if rsvField w ≠ 0 then .rejected .reservedBits else decodeOp (opField w)

/-- A 64-bit word from its eight bytes, the first at the lowest address: little-endian (R60). -/
def wordOfBytes (b0 b1 b2 b3 b4 b5 b6 b7 : BitVec 8) : BitVec 64 :=
  b7 ++ b6 ++ b5 ++ b4 ++ b3 ++ b2 ++ b1 ++ b0

/-- Byte `k` of a word, bits `[8k+7 : 8k]` (R60). -/
def byteOf (w : BitVec 64) (k : Nat) : BitVec 8 := w.extractLsb' (8 * k) 8

/-- The eight bytes of a word as the hardware stores them, the first at the lowest address (R60). -/
def wordBytes (w : BitVec 64) : List (BitVec 8) :=
  [byteOf w 0, byteOf w 1, byteOf w 2, byteOf w 3, byteOf w 4, byteOf w 5, byteOf w 6, byteOf w 7]

/-- Decoding from bytes. There is one command length, 64 bits (R100). -/
def decodeBytes (bs : List (BitVec 8)) : DecodeResult :=
  match bs with
  | [b0, b1, b2, b3, b4, b5, b6, b7] => decode (wordOfBytes b0 b1 b2 b3 b4 b5 b6 b7)
  | bs => .rejected (.notOneWord bs.length)

/-- The operation that acceptance captures in SNAP (R103, R121). -/
def opOfWord (w : BitVec 64) : Op :=
  match decode w with
  | .ok i => .legal i
  | .rejected _ => .illegal

/-- The command word of an instruction (R107). -/
def encode (i : Instr) : BitVec 64 :=
  match i with
  | .nop => 0x0000000000000000#64
  | .frft => 0x0000000000000001#64
  | .ifrft => 0x0000000000000002#64
  | .reduce => 0x0000000000000003#64
  | .interp => 0x0000000000000004#64
  | .engine => 0x0000000000000005#64

/-- The 64-bit word of a table row's `nbits` bits `w`; every bit above `nbits` is 0. -/
def tableWord (nbits w : Nat) : BitVec 64 := BitVec.ofNat 64 (w % 2 ^ nbits)

/-- The instruction the decoder reads from a table row's word, laid out as bytes in the host port's order. -/
def decodeTableWord (nbits w : Nat) : Option Instr :=
  match decodeBytes (wordBytes (tableWord nbits w)) with
  | .ok i => some i
  | .rejected _ => none

end Sys2Proof
end

