-- ==== Sys2Proof/Machine/Operands.lean ====
section
/-! DEFINITION. Operands: the register file's offsets and the address map of the host port (R20, R64), the bytes of the buffers
(R60, R63), and the operands a command takes from SNAP and XBUF (R101). -/

namespace Sys2Proof.Machine

/-- The registers of the register window (R20). -/
inductive Reg
  | id
  | cap
  | ctrl
  | status
  | cmd
  | len
  | order
  | orderRed
  | orderEng
  | path
  | outlen
deriving DecidableEq, Repr

/-- Each register's offset (R20). -/
def regOffset (r : Reg) : BitVec 32 :=
  match r with
  | .id => 0x000
  | .cap => 0x008
  | .ctrl => 0x010
  | .status => 0x018
  | .cmd => 0x020
  | .len => 0x028
  | .order => 0x030
  | .orderRed => 0x038
  | .orderEng => 0x040
  | .path => 0x048
  | .outlen => 0x050

/-- The register at an aligned offset of the register window, or none at a reserved offset (R20, R34). -/
def regAt (off : Nat) : Option Reg :=
  if off = 0x000 then some .id
  else if off = 0x008 then some .cap
  else if off = 0x010 then some .ctrl
  else if off = 0x018 then some .status
  else if off = 0x020 then some .cmd
  else if off = 0x028 then some .len
  else if off = 0x030 then some .order
  else if off = 0x038 then some .orderRed
  else if off = 0x040 then some .orderEng
  else if off = 0x048 then some .path
  else if off = 0x050 then some .outlen
  else none

/-- The first offset of the XBUF window (R64). -/
def xbufBase : Nat := 0x01000000

/-- The first offset of the YBUF window (R64). -/
def ybufBase : Nat := 0x02000000

/-- The first offset past the YBUF window, the size of the instance's region (R64). -/
def regionEnd : Nat := 0x04000000

/-- An offset in the register window (R64). -/
def inRegs (a : Nat) : Bool := decide (a < 0x1000)

/-- An offset in the mapped part of XBUF: sample index below NMAX (R63, R64). -/
def inXbuf (a : Nat) : Bool := decide (xbufBase ≤ a) && decide ((a - xbufBase) / 16 < Config.nmax)

/-- An offset in the mapped part of YBUF: sample index below YCAP (R63, R64). -/
def inYbuf (a : Nat) : Bool := decide (ybufBase ≤ a) && decide ((a - ybufBase) / 16 < Config.ycap)

/-- An offset in the YBUF window, mapped or not (R64, R65). -/
def inYbufWindow (a : Nat) : Bool := decide (ybufBase ≤ a) && decide (a < regionEnd)

/-- Why the port rejects an access, if it does (R62, R64, R65). -/
def accessFault (write : Bool) (off : BitVec 32) (bytes : Nat) : Option Fault :=
  if bytes ≠ 8 then some (.busWidth off bytes)
  else if off.toNat % 8 ≠ 0 then some (.busMisaligned off)
  else if write && inYbufWindow off.toNat then some (.busYbufWrite off)
  else if inRegs off.toNat || inXbuf off.toNat || inYbuf off.toNat then none
  else some (.busUnmapped off)

/-- The byte of the buffers at an offset, if it was written since reset (R42). -/
def Memory.read (m : Memory) (a : Nat) : Option (BitVec 8) :=
  match m with
  | [] => none
  | (x, v) :: r => if a = x then some v else Memory.read r a

/-- The 64-bit word at an offset, if all its bytes were written since reset: little-endian (R60). -/
def Memory.readWord (m : Memory) (a : Nat) : Option (BitVec 64) :=
  match m.read a, m.read (a + 1), m.read (a + 2), m.read (a + 3), m.read (a + 4), m.read (a + 5), m.read (a + 6), m.read (a + 7) with
  | some b0, some b1, some b2, some b3, some b4, some b5, some b6, some b7 => some (wordOfBytes b0 b1 b2 b3 b4 b5 b6 b7)
  | _, _, _, _, _, _, _, _ => none

/-- The word at an offset, or free word `d` where it was never written (R42; U1; log entry 5). -/
def Memory.readOr (m : Memory) (a d : Nat) : BitVec 64 := (m.readWord a).getD (Config.freeWord d)

/-- The offset of sample `e` of XBUF (R63). -/
def xAddr (e : Nat) : Nat := xbufBase + 16 * e

/-- The offset of sample `e` of YBUF (R63). -/
def yAddr (e : Nat) : Nat := ybufBase + 16 * e

/-- `XRead(e)` (R70): the real word at +0, the imaginary word at +8 (R43). A word never written is a draw of its own (U1). -/
def xSample (m : Memory) (draws e : Nat) : Sample :=
  ⟨m.readOr (xAddr e) (draws + 2 * e), m.readOr (xAddr e + 8) (draws + 2 * e + 1)⟩

/-- The working copy `[XRead(e) for e in 0 .. n-1]` (R123). -/
def xSamples (m : Memory) (draws n : Nat) : List Sample := (List.range n).map (xSample m draws)

/-- The length operand `N` of the running command (R101). -/
def lengthOperand (s : State) : Nat := s.snap.n.toNat

/-- The order operand of the running command as the dispatcher takes it: SNAP.a0, negated for IFRFT (R101, R140, R244). -/
def orderOperand (s : State) : Binary64 :=
  match s.snap.op with
  | .legal .ifrft => F64.neg s.snap.a0
  | .legal .nop => s.snap.a0
  | .legal .frft => s.snap.a0
  | .legal .reduce => s.snap.a0
  | .legal .interp => s.snap.a0
  | .legal .engine => s.snap.a0
  | .illegal => s.snap.a0

/-- What the length check finds (R123). -/
inductive LengthCase
  | empty
  | tooLong
  | short
  | normal
deriving DecidableEq, Repr

/-- The length check of the CHECK stage, in its order (R123). -/
def lengthCase (n : Nat) : LengthCase :=
  if n = 0 then .empty
  else if Config.nmax < n then .tooLong
  else if n = 1 then .short
  else .normal

end Sys2Proof.Machine
end

