-- ==== Sys2Proof/Machine/Ops.lean ====
section
/-! DEFINITION. The named operations over memory and registers: storing to the buffers, acceptance of a command (R121), the two
completions (R126, R127) and the checks every data command shares (R123, R129). The block has no trap: error completion is ONE operation
here, and there is no return from one (R263, R273). -/

namespace Sys2Proof.Machine

/-- The buffers with one byte stored; addresses stay strictly rising. -/
def Memory.set (m : Memory) (a : Nat) (b : BitVec 8) : Memory :=
  match m with
  | [] => [(a, b)]
  | (x, v) :: r => if a < x then (a, b) :: (x, v) :: r else if a = x then (a, b) :: r else (x, v) :: Memory.set r a b

/-- The canonical form: addresses strictly rising. An unlisted address has no value, so no entry can equal one. -/
def Memory.wf (m : Memory) : Bool :=
  match m with
  | [] => true
  | [_] => true
  | (a, _) :: (b, v) :: r => decide (a < b) && Memory.wf ((b, v) :: r)

/-- The buffers with one 64-bit word stored, little-endian (R60). -/
def Memory.writeWord (m : Memory) (a : Nat) (w : BitVec 64) : Memory :=
  (List.range 8).foldl (fun m k => m.set (a + k) (byteOf w k)) m

/-- The buffers with one complex sample stored: the real word at +0, the imaginary word at +8 (R43, R63). -/
def Memory.writeSample (m : Memory) (a : Nat) (z : Sample) : Memory := (m.writeWord a z.re).writeWord (a + 8) z.im

/-- The buffers with consecutive samples stored from an offset on. -/
def Memory.writeSamples (m : Memory) (a : Nat) (zs : List Sample) : Memory :=
  match zs with
  | [] => m
  | z :: r => Memory.writeSamples (m.writeSample a z) (a + 16) r

/-- A dropped host write sets STATUS.OVR and does nothing else (R24, R265). -/
def dropWrite (s : State) : State := { s with ovr := true }

/-- Acceptance of a command word (R121), all in the one step of the CMD write. The working sequences start empty (R38). -/
def accept (w : BitVec 64) (s : State) : State :=
  { s with
    cmd := w
    lastop := opField w
    done := false
    errcode := .none
    busy := true
    snap := ⟨opOfWord w, s.len, s.order⟩
    seq := .run .check
    work := Work.empty }

/-- The result registers that a dispatched command writes at its completion (R150). -/
def writeOrder (o : OrderRecord) (s : State) : State :=
  { s with orderRed := o.ar, orderEng := o.ae, path := .dispatched o.cls o.p o.f o.i }

/-- Back to IDLE: nothing outstanding, the working sequences discarded (R126, R127). -/
def goIdle (s : State) : State :=
  { s with busy := false, done := true, seq := .idle, pend := none, coreResp := none, work := Work.empty }

/-- Successful completion `finish(outlen)` with `outlen` the length of the result (R126): YBUF entries `0 .. outlen-1`, OUTLEN and
STATUS in one step. -/
def finish (result : List Sample) (s : State) : State :=
  goIdle { s with
    mem := s.mem.writeSamples (yAddr 0) result
    outlen := BitVec.ofNat 32 result.length
    errcode := .none }

/-- Error completion `raise Err(code)` (R127): no YBUF entry, OUTLEN = 0 and the code in STATUS, in one step. -/
def raiseErr (code : ErrCode) (s : State) : State := goIdle { s with outlen := 0, errcode := code }

/-- Completion with a result or an error. -/
def complete (r : Except ErrCode (List Sample)) (s : State) : State :=
  match r with
  | .ok result => finish result s
  | .error code => raiseErr code s

/-- The engine's copy of XBUF entries `0 .. N-1` (R70, R123). -/
def inputSignal (s : State) : List Sample := xSamples s.mem s.draws (lengthOperand s)

/-- Reading `n` XBUF entries uses up the draws of their words (log entry 5). -/
def useDraws (n : Nat) (s : State) : State := { s with draws := s.draws + 2 * n }

/-- The degenerate-length path: the one input sample is the result, bit for bit (R129). -/
def finishShort (s : State) : State := finish [xSample s.mem s.draws 0] (useDraws 1 s)

/-- The checks of FRFT, IFRFT, INTERP and ENGINE (R123): the two length errors, the degenerate path `short`, or `body` on the working
copy. -/
def dataCommand (short : State → State) (body : List Sample → State → State) (s : State) : State :=
  match lengthCase (lengthOperand s) with
  | .empty => raiseErr .emptySignal s
  | .tooLong => raiseErr .lengthRange s
  | .short => short s
  | .normal => body (inputSignal s) (useDraws (lengthOperand s) s)

/-- `FrftBody` at an order and the completion after it; the result registers are written on success and on DEGENERATE_ORDER alike
(R150, R241). With N = 1, PATH alone is written (R129, R243). -/
def transformAt (a : Binary64) (s : State) : State :=
  dataCommand
    (fun s => finishShort { s with path := .short })
    (fun f s => complete (transformResult Config.num (dispatchOrder a) f) (writeOrder (dispatchOrder a) s))
    s

end Sys2Proof.Machine
end

