-- ==== Sys2Proof/Machine/Engine.lean ====
section
/-! DEFINITION. ENGINE (spec/44_chirp_engine.md rule R222). -/

namespace Sys2Proof.Machine

/-- ENGINE: the chirp engine and normaliser at ORDER, with no floor-mod, dispatch or reduction (R222). -/
def execEngine (s : State) : Host.Outcome State Fault Refusal :=
  .next (dataCommand finishShort (fun f s' => complete (engineRun Config.num f s.snap.a0) s') s)

end Sys2Proof.Machine
end

