-- ==== Sys2Proof/Machine/Interp.lean ====
section
/-! DEFINITION. INTERP (spec/43_interpolator.md rule R197). -/

namespace Sys2Proof.Machine

/-- INTERP: `sincinterp` of XBUF into YBUF (R197). -/
def execInterp (s : State) : Host.Outcome State Fault Refusal :=
  .next (dataCommand finishShort (fun f s => finish (sincinterp Config.num f) s) s)

end Sys2Proof.Machine
end

