-- ==== Sys2Proof/Machine/Nop.lean ====
section
/-! DEFINITION. NOP (spec/40_command_lifecycle.md rule R130). Each command's meaning is its whole pipeline, from the CHECK stage to the
completion, as one engine step (R132). -/

namespace Sys2Proof.Machine

/-- NOP: `finish(0)` in the CHECK stage (R130). -/
def execNop (s : State) : Host.Outcome State Fault Refusal := .next (finish [] s)

end Sys2Proof.Machine
end

