-- ==== Sys2Proof/Machine/Reduce.lean ====
section
/-! DEFINITION. REDUCE (spec/41_order_dispatch.md rule R155). -/

namespace Sys2Proof.Machine

/-- REDUCE fails where a GENERAL-class order leaves the engine's interval (R155, D37). -/
def reduceFails (o : OrderRecord) : Bool := o.cls == .general && !inEngineRange o.ae

/-- REDUCE's completion: the result registers, then DEGENERATE_ORDER or success with no YBUF entry (R155). -/
def reduceFinish (o : OrderRecord) (s : State) : State :=
  if reduceFails o then raiseErr .degenerateOrder (writeOrder o s) else finish [] (writeOrder o s)

/-- REDUCE: order dispatch and range reduction of ORDER, with no data and no length check (R155). -/
def execReduce (s : State) : Host.Outcome State Fault Refusal := .next (reduceFinish (dispatchOrder s.snap.a0) s)

end Sys2Proof.Machine
end

