-- ==== Sys2Proof/Machine/Transform.lean ====
section
/-! DEFINITION. FRFT and IFRFT (spec/45_frft_ifrft.md). -/

namespace Sys2Proof.Machine

/-- FRFT: the transform at ORDER (R241). -/
def execFrft (s : State) : Host.Outcome State Fault Refusal := .next (transformAt s.snap.a0 s)

/-- IFRFT: the transform at the negated ORDER (R244). -/
def execIfrft (s : State) : Host.Outcome State Fault Refusal := .next (transformAt (F64.neg s.snap.a0) s)

end Sys2Proof.Machine
end

