-- ==== Sys2Proof/Machine/Dispatch.lean ====
section
/-! DEFINITION. One arm per command. -/

namespace Sys2Proof.Machine

def exec (i : Instr) (s : State) : Host.Outcome State Fault Refusal :=
  match i with
  | .nop => Sys2Proof.Machine.execNop s
  | .frft => Sys2Proof.Machine.execFrft s
  | .ifrft => Sys2Proof.Machine.execIfrft s
  | .reduce => Sys2Proof.Machine.execReduce s
  | .interp => Sys2Proof.Machine.execInterp s
  | .engine => Sys2Proof.Machine.execEngine s

end Sys2Proof.Machine
end

