-- ==== Sys2Proof/Machine/HostPort.lean ====
section
/-! DEFINITION. The host port (spec/20_memory.md rules R60 to R69): register reads and writes, buffer accesses, bus errors, and the reset
input (R290, R291). -/

namespace Sys2Proof.Machine

/-- The offset from BASE at which a bus address reaches this instance's port (R61). -/
def portOffset (address : BitVec 32) : BitVec 32 := address - Config.base

/-- The bus address of an offset (R61, R105). -/
def busAddress (offset : BitVec 32) : BitVec 32 := Config.base + offset

/-- A register as the host reads it (R20 to R34). No read has a side effect (R69). -/
def readReg (r : Reg) (s : State) : BitVec 64 :=
  match r with
  | .id => idWord
  | .cap => capWord
  | .ctrl => ctrlWord s
  | .status => statusWord s
  | .cmd => s.cmd
  | .len => s.len.setWidth 64
  | .order => s.order
  | .orderRed => s.orderRed
  | .orderEng => s.orderEng
  | .path => pathWord s.path
  | .outlen => s.outlen.setWidth 64

/-- A host write of a register (R20 to R34): CMD, LEN and ORDER are locked while busy, CTRL and STATUS are not, the rest is read-only. -/
def writeReg (r : Reg) (v : BitVec 64) (s : State) : State :=
  match r with
  | .id => s
  | .cap => s
  | .ctrl => { s with ie := v.getLsbD 0 }
  | .status => clearStatus v s
  | .cmd => if s.busy then dropWrite s else accept v s
  | .len => if s.busy then dropWrite s else { s with len := v.setWidth 32 }
  | .order => if s.busy then dropWrite s else { s with order := v }
  | .orderRed => s
  | .orderEng => s
  | .path => s
  | .outlen => s

/-- A host read of the register window: reserved offsets read as zero (R34). -/
def readRegAt (off : Nat) (s : State) : BitVec 64 :=
  match regAt off with
  | some r => readReg r s
  | none => 0

/-- A host write of the register window: reserved offsets ignore writes and never set OVR (R34). -/
def writeRegAt (off : Nat) (v : BitVec 64) (s : State) : State :=
  match regAt off with
  | some r => writeReg r v s
  | none => s

/-- A host write of a mapped XBUF word: stored while idle, dropped while busy (R66). -/
def writeXbuf (off : Nat) (v : BitVec 64) (s : State) : State :=
  if s.busy then dropWrite s else { s with mem := s.mem.writeWord off v }

/-- What a host read of a mapped buffer word gives: a YBUF word read while busy is a free draw (R67; U2), any other word is the stored
one, or a free draw if it was never written (R42, R68; U1). -/
def readBuffer (off : Nat) (s : State) : BitVec 64 :=
  if s.busy && inYbuf off then Config.freeWord s.draws else s.mem.readOr off s.draws

/-- The port's answer recorded for the host. -/
def respondHost (r : PortResponse) (s : State) : State := { s with responses := r :: s.responses }

/-- A bus error: the block's state stays, the error is recorded (R62, R264; U12). -/
def busError (f : Fault) (s : State) : State := respondHost .busError { s with hostFaults := f :: s.hostFaults }

/-- A host read `MemRead` (R62). A buffer read uses up one draw (log entry 5). -/
def hostRead (off : BitVec 32) (bytes : Nat) (s : State) : State :=
  match accessFault false off bytes with
  | some f => busError f s
  | none =>
    if inRegs off.toNat then respondHost (.data (readRegAt off.toNat s)) s
    else respondHost (.data (readBuffer off.toNat s)) { s with draws := s.draws + 1 }

/-- A host write `MemWrite` (R62). -/
def hostWrite (off : BitVec 32) (bytes : Nat) (v : BitVec 64) (s : State) : State :=
  match accessFault true off bytes with
  | some f => busError f s
  | none =>
    if inRegs off.toNat then respondHost .written (writeRegAt off.toNat v s)
    else respondHost .written (writeXbuf off.toNat v s)

/-- The host's next access, if it has one. `wait` reads STATUS and stays until the value read shows DONE (R106). -/
def hostStep (s : State) : State :=
  match s.hostQueue with
  | [] => s
  | .read off bytes :: rest => hostRead off bytes { s with hostQueue := rest }
  | .write off bytes v :: rest => hostWrite off bytes v { s with hostQueue := rest }
  | .wait :: rest =>
    respondHost (.data (statusWord s)) (if s.done then { s with hostQueue := rest } else s)

/-- Hardware reset (R290, R291), taken at any time: a running command is abandoned, an outstanding request is dropped with the cores'
state, the buffers' contents become unspecified. Only the model's own fields stay. -/
def resetStep (s : State) : State :=
  { State.reset with
    draws := s.draws
    hostQueue := s.hostQueue
    responses := s.responses
    hostFaults := s.hostFaults
    agenda := s.agenda
    ticks := s.ticks }

end Sys2Proof.Machine
end

