-- ==== Sys2Proof/Machine/Stages.lean ====
section
/-! DEFINITION. The sequencer stage by stage (spec/40_command_lifecycle.md rule R125) and the two core agents (R80, R83, R86, R87). The
pure functions are the ones the whole-command meanings use; the two step sizes agree (R132). -/

namespace Sys2Proof.Machine

/-- The engine issues a request and waits in a stage (R125). -/
def issue (r : CoreRequest) (st : Stage) (s : State) : State := { s with pend := some r, seq := .run st }

/-- The engine takes the response (R125): nothing is outstanding any more. -/
def takeResponse (s : State) : State := { s with pend := none, coreResp := none }

/-- On to another stage. -/
def goStage (st : Stage) (s : State) : State := { s with seq := .run st }

/-- The result is there; the completion step writes it (R126). -/
def goFinish (result : List Sample) (s : State) : State :=
  goStage .finish { s with work := { s.work with result := result } }

/-- The order the chirp engine runs at: ORDER itself for ENGINE (R222), the reduced engine order for FRFT and IFRFT (R241). -/
def engineOrder (s : State) : Binary64 :=
  match s.snap.op with
  | .legal .engine => s.snap.a0
  | .legal .frft => s.work.order.ae
  | .legal .ifrft => s.work.order.ae
  | .legal .nop => s.work.order.ae
  | .legal .reduce => s.work.order.ae
  | .legal .interp => s.work.order.ae
  | .illegal => s.work.order.ae

/-- The result-register writes that a command makes at its completion: FRFT, IFRFT and REDUCE once dispatched (R150), PATH alone for
FRFT and IFRFT with N = 1 (R129), none for the others. -/
def orderWrites (s : State) : State :=
  match s.snap.op with
  | .legal .frft => if lengthOperand s = 1 then { s with path := .short } else writeOrder s.work.order s
  | .legal .ifrft => if lengthOperand s = 1 then { s with path := .short } else writeOrder s.work.order s
  | .legal .reduce => writeOrder s.work.order s
  | .legal .nop => s
  | .legal .interp => s
  | .legal .engine => s
  | .illegal => s

/-- The interpolation request (R84, R195). -/
def issueInterp (s : State) : State :=
  issue (.conv (zeroStuff s.work.f) (sincKernel Config.num s.work.f.length)) .interpWait s

/-- The start of the chirp engine: its guard, before any convolution request, then the interpolation request (R210, R211). -/
def startEngine (s : State) : State :=
  if guardPasses Config.num (engineOrder s) then issueInterp s else raiseErr .degenerateOrder (orderWrites s)

/-- The length check and the reading of XBUF, shared by the data commands (R123, R129). -/
def stageLength (next : State → State) (s : State) : State :=
  match lengthCase (lengthOperand s) with
  | .empty => raiseErr .emptySignal s
  | .tooLong => raiseErr .lengthRange s
  | .short => goFinish [xSample s.mem s.draws 0] (useDraws 1 s)
  | .normal => next (useDraws (lengthOperand s) { s with work := { s.work with f := inputSignal s } })

/-- CHECK (R122, R123, R130). -/
def stageCheck (s : State) : State :=
  match s.snap.op with
  | .illegal => raiseErr .illegalCommand s
  | .legal .nop => finish [] s
  | .legal .reduce => goStage .reduce s
  | .legal .frft => stageLength (goStage .dispatch) s
  | .legal .ifrft => stageLength (goStage .dispatch) s
  | .legal .interp => stageLength issueInterp s
  | .legal .engine => stageLength startEngine s

/-- The state with its order record replaced. -/
def setOrder (o : OrderRecord) (s : State) : State := { s with work := { s.work with order := o } }

/-- DISPATCH: floor-mod and classification; the special cases (R141 to R143, R152). -/
def stageDispatch (s : State) : State :=
  let ar := floormod4 (orderOperand s)
  let s' := setOrder ⟨ar, ar, classify ar, false, false, false⟩ s
  match classify ar with
  | .identity => goFinish s.work.f s'
  | .parity => goFinish s.work.f.reverse s'
  | .cdft => issue (.fft .fwd (gather s.work.f)) .fftWait s'
  | .cidft => issue (.fft .inv (gather s.work.f)) .fftWait s'
  | .general => goStage .reduce s'

/-- Reducer step 3, with its FFT request if it fires, else the chirp engine (R174). -/
def reduceStep3 (s : State) : State :=
  let o := s.work.order
  let r := reduceInverse o.ae
  let s' := setOrder { o with ae := r.1, i := r.2 } s
  if r.2 then issue (.fft .inv (gather s.work.f)) .fftWait s' else startEngine s'

/-- Reducer steps 1 and 2, then step 3 unless step 2 has to wait for its FFT request (R171 to R173). -/
def reduceStep12 (s : State) : State :=
  let o := s.work.order
  let r1 := reduceParity o.ae
  let f1 := if r1.2 then s.work.f.reverse else s.work.f
  let r2 := reduceForward r1.1
  let s' := { s with work := { s.work with f := f1, order := { o with ae := r2.1, p := r1.2, f := r2.2 } } }
  if r2.2 then issue (.fft .fwd (gather f1)) .fftWait s' else reduceStep3 s'

/-- REDUCE: the REDUCE command's whole pipeline (R155), or the range reducer of FRFT and IFRFT, resumed at step 3 after step 2's FFT
response (R125, R171). -/
def stageReduce (s : State) : State :=
  match s.snap.op with
  | .legal .reduce =>
    let s' := setOrder (dispatchOrder s.snap.a0) s
    if reduceFails (dispatchOrder s.snap.a0) then raiseErr .degenerateOrder (orderWrites s') else goFinish [] s'
  | .legal .frft => if s.work.order.f then reduceStep3 s else reduceStep12 s
  | .legal .ifrft => if s.work.order.f then reduceStep3 s else reduceStep12 s
  | .legal .nop => s
  | .legal .interp => s
  | .legal .engine => s
  | .illegal => s

/-- FFT_WAIT, once the response exists: scale and scatter it (R125, R147, R148). -/
def fftArrived (g : List Sample) (s : State) : State :=
  let out := centredFinish Config.num g
  let s' := { takeResponse s with work := { s.work with f := out } }
  match s.work.order.cls with
  | .identity => goFinish out s'
  | .parity => goFinish out s'
  | .cdft => goFinish out s'
  | .cidft => goFinish out s'
  | .general => if s.work.order.i then startEngine s' else goStage .reduce s'

/-- INTERP_WAIT, once the response exists: truncate, and for the chirp engine pad, premultiply and issue the chirp convolution (R125,
R196, R212 to R216). -/
def interpArrived (w : List Sample) (s : State) : State :=
  let n := s.work.f.length
  let u := interpTruncate n w
  let a := engineOrder s
  let p := padSymmetric n u
  let chirp1 := makeChirp1 Config.num n (tana2Of Config.num a)
  let chirp2 := makeChirp2 Config.num n (sinaOf Config.num a)
  let toChirp :=
    issue (.conv (premultiply chirp1 p) chirp2) .chirpWait
      { takeResponse s with work := { s.work with u := u, p := p, chirp1 := chirp1, chirp2 := chirp2 } }
  match s.snap.op with
  | .legal .interp => goFinish u { takeResponse s with work := { s.work with u := u } }
  | .legal .nop => toChirp
  | .legal .frft => toChirp
  | .legal .ifrft => toChirp
  | .legal .reduce => toChirp
  | .legal .engine => toChirp
  | .illegal => toChirp

/-- CHIRP_WAIT, once the response exists: window, scale, postmultiply, downsample and normalise (R125, R217 to R220). -/
def chirpArrived (w : List Sample) (s : State) : State :=
  goFinish (chirpFinish Config.num s.work.f.length (engineOrder s) s.work.chirp1 w)
    { takeResponse s with work := { s.work with w := w } }

/-- An engine step that is enabled only once the response exists (R125). -/
def onResponse (k : List Sample → State → State) (s : State) : State :=
  match s.coreResp with
  | none => s
  | some r => k r s

/-- FINISH: the YWrites and the completion (R126). -/
def stageFinish (s : State) : State := finish s.work.result (orderWrites s)

/-- One stage of the sequencer (R125). In IDLE, and while a response is awaited, it has no step: the state stays. -/
def stageStep (s : State) : State :=
  match s.seq with
  | .idle => s
  | .run .check => stageCheck s
  | .run .dispatch => stageDispatch s
  | .run .reduce => stageReduce s
  | .run .fftWait => onResponse fftArrived s
  | .run .interpWait => onResponse interpArrived s
  | .run .chirpWait => onResponse chirpArrived s
  | .run .finish => stageFinish s

/-- The core answers the outstanding request, once (R86). -/
def answer (r : CoreRequest) (s : State) : State :=
  match s.coreResp with
  | none => { s with coreResp := some (respond Config.num r) }
  | some _ => s

/-- The FFT core's step: it answers an outstanding FFT request (R80). -/
def fftCoreStep (s : State) : State :=
  match s.pend with
  | some (.fft dir x) => answer (.fft dir x) s
  | some (.conv _ _) => s
  | none => s

/-- The convolution core's step: it answers an outstanding convolution request (R83). -/
def convCoreStep (s : State) : State :=
  match s.pend with
  | some (.conv p q) => answer (.conv p q) s
  | some (.fft _ _) => s
  | none => s

/-- The pipeline's next move: the core that has a request to answer, else the sequencer. While a command runs, it is the one move of
these three agents that is enabled (R87, R125). -/
def pipelineStep (s : State) : State :=
  match s.pend, s.coreResp with
  | some (.fft _ _), none => fftCoreStep s
  | some (.conv _ _), none => convCoreStep s
  | some _, some _ => stageStep s
  | none, _ => stageStep s

/-- `k` moves of the pipeline. -/
def pipelineSteps (k : Nat) (s : State) : State :=
  match k with
  | 0 => s
  | k + 1 => pipelineSteps k (pipelineStep s)

end Sys2Proof.Machine
end

