-- ==== Sys2Proof/Machine/Sequencer.lean ====
section
/-! DEFINITION. One step of each agent (R17, R310), and the placing of a command word where the sequencer takes its next command. -/

namespace Sys2Proof.Machine

/-- The step count of the `k`-th due turn: the delay before it is finite and free (R5, R310, R311). -/
def turnTime (k : Nat) : Nat :=
  match k with
  | 0 => Config.freeDelay 0
  | k + 1 => turnTime k + 1 + Config.freeDelay (k + 1)

/-- Whose due turn the `k`-th is: the four agents of R17 in rotation, so that each has a turn after every step count. -/
def turnAgent (k : Nat) : Agent :=
  match k % 4 with
  | 0 => .host
  | 1 => .stage
  | 2 => .fftCore
  | _ => .convCore

/-- The schedule by step count: due turns, and between them a free choice. Each agent of R17 comes up again after any step count, which
is the weak fairness of R310, and nothing else is assumed of the order (U6; log entry 7). -/
def scheduled (t : Nat) : Agent :=
  match (List.range (t + 1)).find? fun k => turnTime k == t with
  | some k => turnAgent k
  | none => Config.freeAgent t

/-- The agent that steps next: the agenda's, or the schedule's where the agenda is empty (R310; U6; log entry 7). -/
def nextAgent (s : State) : Agent :=
  match s.agenda with
  | [] => scheduled s.ticks
  | a :: _ => a

/-- The choice of agent used up. -/
def advance (s : State) : State := { s with agenda := s.agenda.tail, ticks := s.ticks + 1 }

/-- The engine's whole-command step (R132): an accepted command runs from CHECK to its completion. It has a step in the CHECK stage
only; elsewhere the state stays. An ILLEGAL word completes with ILLEGAL_COMMAND (R104, R122). -/
def commandStep (s : State) : Host.Outcome State Fault Refusal :=
  match s.seq with
  | .idle => .next s
  | .run .check =>
    match s.snap.op with
    | .legal i => exec i s
    | .illegal => .next (raiseErr .illegalCommand s)
  | .run .dispatch => .next s
  | .run .reduce => .next s
  | .run .fftWait => .next s
  | .run .interpWait => .next s
  | .run .chirpWait => .next s
  | .run .finish => .next s

/-- The step of one agent. An agent that has no enabled step leaves the state as it is. -/
def agentStep (a : Agent) (s : State) : Host.Outcome State Fault Refusal :=
  match a with
  | .host => .next (hostStep s)
  | .command => commandStep s
  | .stage => .next (stageStep s)
  | .fftCore => .next (fftCoreStep s)
  | .convCore => .next (convCoreStep s)
  | .reset => .next (resetStep s)

/-- A core response with no request outstanding (R291; U11). -/
def staleResponse (s : State) : Bool := s.coreResp.isSome && s.pend.isNone

/-- A command word accepted, nothing outstanding, and the engine's whole-command step next. -/
def acceptedNext (w : BitVec 64) (s : State) : State :=
  { accept w s with pend := none, coreResp := none, agenda := .command :: s.agenda }

end Sys2Proof.Machine
end

