-- ==== Sys2Proof/Machine/Step.lean ====
section
/-! DEFINITION. One step of the machine (R310), and the host's way of placing a command where the next step takes it. -/

namespace Sys2Proof.Machine

/-- One atomic step: the next agent's. In a state where a core response exists with no request outstanding the model refuses (U11). -/
def step (s : State) : Host.Outcome State Fault Refusal :=
  if staleResponse s then .refused .staleCoreResponse else agentStep (nextAgent s) (advance s)

/-- The state right after the host wrote a table row's word to CMD, with the engine scheduled next (R121): the very next step runs
that command. The block has no program counter and fetches nothing (R26). -/
def State.withFetchWord (s : State) (nbits w : Nat) : State := acceptedNext (tableWord nbits w) s

end Sys2Proof.Machine
end

