-- ==== Sys2Proof/Machine/HostScript.lean ====
section
/-! DEFINITION. The host script notation and its pseudo-instructions (R105, R106), as lists of host accesses. -/

namespace Sys2Proof.Machine.Script

/-- `wr REG, v` (R105). -/
def wr (r : Reg) (v : BitVec 64) : List HostAccess := [.write (regOffset r) 8 v]

/-- `rd REG` (R105). -/
def rd (r : Reg) : List HostAccess := [.read (regOffset r) 8]

/-- `xw e, re, im` (R105). -/
def xw (e : Nat) (z : Sample) : List HostAccess :=
  [.write (BitVec.ofNat 32 (xAddr e)) 8 z.re, .write (BitVec.ofNat 32 (xAddr e + 8)) 8 z.im]

/-- `yr e` (R105). -/
def yr (e : Nat) : List HostAccess :=
  [.read (BitVec.ofNat 32 (yAddr e)) 8, .read (BitVec.ofNat 32 (yAddr e + 8)) 8]

/-- `cmd OP` (R105). -/
def cmd (i : Instr) : List HostAccess := wr .cmd (encode i)

/-- `wait` (R106). -/
def wait : List HostAccess := [.wait]

/-- `clrdone` (R106). -/
def clrdone : List HostAccess := wr .status 0x2

/-- `clrovr` (R106). -/
def clrovr : List HostAccess := wr .status 0x4

/-- `frft n, a` (R106). -/
def frft (n : BitVec 64) (a : Binary64) : List HostAccess := wr .len n ++ wr .order a ++ cmd .frft ++ wait

/-- `ifrft n, a` (R106). -/
def ifrft (n : BitVec 64) (a : Binary64) : List HostAccess := wr .len n ++ wr .order a ++ cmd .ifrft ++ wait

/-- `reduce a` (R106). -/
def reduce (a : Binary64) : List HostAccess := wr .order a ++ cmd .reduce ++ wait

/-- `interp n` (R106). -/
def interp (n : BitVec 64) : List HostAccess := wr .len n ++ cmd .interp ++ wait

/-- `engine n, a` (R106). -/
def engine (n : BitVec 64) (a : Binary64) : List HostAccess := wr .len n ++ wr .order a ++ cmd .engine ++ wait

/-- `nop` (R106). -/
def nop : List HostAccess := cmd .nop ++ wait

end Sys2Proof.Machine.Script
end

