-- ==== Sys2Proof/Machine/Reference.lean ====
section
/-! DEFINITION. The reference semantics of R14: the computing rules of files 41 to 45 over the real and complex numbers, each given twice,
as the exact pipeline (every binary64 operation and every NUM field replaced by its exact meaning, R13) and as the closed form the
spec calls the reference value. The machine uses none of this; claims about approximation do. A sequence is a function of its
index, used inside its length only. DESIGN CHOICE (log entry 25): where the engine has `NUM.pi` these definitions take the real number
pi, as the closed form of R221 writes it, and not its binary64 neighbour, which the table of R13 names. -/

namespace Sys2Proof.Machine.Reference

noncomputable section

open Complex

/-- `NUM.fft` exactly: unscaled, `s = -1` forward and `s = 1` inverse (R13, R80). -/
def dft (s : ℤ) (n : ℕ) (x : ℕ → ℂ) (k : ℕ) : ℂ :=
  ∑ m ∈ Finset.range n, x m * exp ((s : ℂ) * 2 * Real.pi * I * (k : ℂ) * (m : ℂ) / (n : ℂ))

/-- `NUM.conv` exactly, on operands of lengths `lp` and `lq` (R13, R83). -/
def conv (lp lq : ℕ) (p q : ℕ → ℂ) (t : ℕ) : ℂ :=
  ∑ j ∈ Finset.range lp, if j ≤ t ∧ t - j < lq then p j * q (t - j) else 0

/-- `NUM.sinc` exactly, the normalised sinc (R13). -/
def sinc (t : ℝ) : ℝ := if t = 0 then 1 else Real.sin (Real.pi * t) / (Real.pi * t)

/-- The centred unitary transform as the pipeline of R147 (`s = -1`) and R148 (`s = 1`): gather, transform, scale, scatter. -/
def centred (s : ℤ) (n : ℕ) (f : ℕ → ℂ) (m : ℕ) : ℂ :=
  dft s n (fun i => f ((i + n / 2) % n)) ((m + (n - n / 2)) % n) / (Real.sqrt n : ℂ)

/-- The reference value of R147 (`s = -1`) and R148 (`s = 1`), with both indices counted from the centre `floor(n/2)`. -/
def centredValue (s : ℤ) (n : ℕ) (f : ℕ → ℂ) (m : ℕ) : ℂ :=
  (1 / (Real.sqrt n : ℂ)) * ∑ j ∈ Finset.range n,
    f j * exp ((s : ℂ) * 2 * Real.pi * I * ((m : ℂ) - ((n / 2 : ℕ) : ℂ)) * ((j : ℂ) - ((n / 2 : ℕ) : ℂ)) / (n : ℂ))

/-- Zero stuffing (R193). -/
def stuffed (x : ℕ → ℂ) (j : ℕ) : ℂ := if j % 2 = 0 then x (j / 2) else 0

/-- The sinc kernel (R194). -/
def kernel (n : ℕ) (m : ℕ) : ℂ := (sinc (((m : ℝ) - (2 * (n : ℝ) - 3)) / 2) : ℂ)

/-- The upsampler as the pipeline of R192. -/
def interp (n : ℕ) (x : ℕ → ℂ) (i : ℕ) : ℂ := conv (2 * n - 1) (4 * n - 5) (stuffed x) (kernel n) (2 * n - 3 + i)

/-- The reference value of the upsampler (R191). -/
def interpValue (n : ℕ) (x : ℕ → ℂ) (i : ℕ) : ℂ := ∑ k ∈ Finset.range n, x k * (sinc ((i : ℝ) / 2 - (k : ℝ)) : ℂ)

/-- The padded upsampled signal (R212). -/
def padded (n : ℕ) (u : ℕ → ℂ) (j : ℕ) : ℂ := if n - 1 ≤ j ∧ j < 3 * n - 2 then u (j - (n - 1)) else 0

/-- `beta` (R213, R221). DESIGN CHOICE: the real number pi for `NUM.pi` (log entry 25). -/
def beta (n : ℕ) (a : ℝ) : ℝ := Real.pi * Real.tan (a * Real.pi / 4) / (4 * n)

/-- `c` (R215, R221). DESIGN CHOICE: the real number pi for `NUM.pi` (log entry 25). -/
def rate (n : ℕ) (a : ℝ) : ℝ := Real.pi / (4 * n * Real.sin (a * Real.pi / 2))

/-- Chirp 1 (R213). -/
def chirp1 (n : ℕ) (a : ℝ) (j : ℕ) : ℂ := exp (-I * (beta n a : ℂ) * ((j : ℂ) - (2 * (n : ℂ) - 2)) ^ 2)

/-- Chirp 2 (R215). -/
def chirp2 (n : ℕ) (a : ℝ) (m : ℕ) : ℂ := exp (I * (rate n a : ℂ) * ((m : ℂ) - (4 * (n : ℂ) - 4)) ^ 2)

/-- The engine and normaliser as the pipeline of R210. DESIGN CHOICE: the real number pi for `NUM.pi`, in the scale and the phase too (log
entry 25). -/
def engine (n : ℕ) (f : ℕ → ℂ) (a : ℝ) (i : ℕ) : ℂ :=
  exp (-I * (1 - (a : ℂ)) * Real.pi / 4) *
    (chirp1 n a (n - 1 + 2 * i) *
      ((Real.sqrt (rate n a / Real.pi) : ℂ) *
        conv (4 * n - 3) (8 * n - 7) (fun j => chirp1 n a j * padded n (interp n f) j) (chirp2 n a) (4 * n - 4 + (n - 1 + 2 * i))))

/-- The reference value of the engine (R221): `kappa = 2i - (n-1)`, `k = l - (n-1)`. DESIGN CHOICE: its `pi` is the real number (log entry
25). -/
def engineValue (n : ℕ) (f : ℕ → ℂ) (a : ℝ) (i : ℕ) : ℂ :=
  exp (-I * (1 - (a : ℂ)) * Real.pi / 4) * (Real.sqrt (rate n a / Real.pi) : ℂ) *
    exp (-I * (beta n a : ℂ) * (2 * (i : ℂ) - ((n : ℂ) - 1)) ^ 2) *
    ∑ l ∈ Finset.range (2 * n - 1),
      interpValue n f l * exp (-I * (beta n a : ℂ) * ((l : ℂ) - ((n : ℂ) - 1)) ^ 2) *
        exp (I * (rate n a : ℂ) * ((2 * (i : ℂ) - ((n : ℂ) - 1)) - ((l : ℂ) - ((n : ℂ) - 1))) ^ 2)

/-- The real number that a finite binary64 value stands for (R8). -/
def value (a : Binary64) : ℝ := (F64.toInt a : ℝ) / 2 ^ 1074

/-- Floor-mod reduction exactly (R141). -/
def floormod4 (a : ℝ) : ℝ := a - 4 * (⌊a / 4⌋ : ℝ)

/-- Classification exactly (R143). -/
def classify (ar : ℝ) : OrderClass :=
  if ar = 0 then .identity else if ar = 2 then .parity else if ar = 1 then .cdft else if ar = 3 then .cidft else .general

/-- What the range reducer hands to the engine: the engine order and which steps fired (R171, R177). -/
structure Reduced where
  ae : ℝ
  p : Bool
  f : Bool
  i : Bool

/-- Reducer step 1 exactly (R172). -/
def reduceParity (a : ℝ) : ℝ × Bool := if 2 < a then (a - 2, true) else (a, false)

/-- Reducer step 2 exactly (R173). -/
def reduceForward (a : ℝ) : ℝ × Bool := if 3 / 2 < a then (a - 1, true) else (a, false)

/-- Reducer step 3 exactly (R174). -/
def reduceInverse (a : ℝ) : ℝ × Bool := if a < 1 / 2 then (a + 1, true) else (a, false)

/-- `reduce_order` exactly: each test reads the order the previous step left (R171). -/
def reduceOrder (ar : ℝ) : Reduced :=
  let s1 := reduceParity ar
  let s2 := reduceForward s1.1
  let s3 := reduceInverse s2.1
  ⟨s3.1, s1.2, s2.2, s3.2⟩

/-- `rev` (R7). -/
def rev (n : ℕ) (f : ℕ → ℂ) (m : ℕ) : ℂ := f (n - 1 - m)

/-- `T(f)`: the sub-transforms of the steps that fired, in the order P, then F or I (R177). -/
def reduceSignal (n : ℕ) (r : Reduced) (f : ℕ → ℂ) : ℕ → ℂ :=
  let f1 := if r.p then rev n f else f
  let f2 := if r.f then centred (-1) n f1 else f1
  if r.i then centred 1 n f2 else f2

/-- The result part of `FrftBody` exactly, for a class and a reduced order: a special case, or the engine on `T(f)` (R152, R177, R241). -/
def transformAt (n : ℕ) (cls : OrderClass) (r : Reduced) (f : ℕ → ℂ) : ℕ → ℂ :=
  match cls with
  | .identity => f
  | .parity => rev n f
  | .cdft => centred (-1) n f
  | .cidft => centred 1 n f
  | .general => engine n (reduceSignal n r f) r.ae

/-- FRFT exactly, with the order path in real arithmetic (R241). -/
def frft (n : ℕ) (f : ℕ → ℂ) (a : ℝ) : ℕ → ℂ :=
  transformAt n (classify (floormod4 a)) (reduceOrder (floormod4 a)) f

/-- IFRFT exactly (R244). -/
def ifrft (n : ℕ) (f : ℕ → ℂ) (a : ℝ) : ℕ → ℂ := frft n f (-a)

/-- The exact values of what the dispatcher and the reducer record of an order in binary64. -/
def reducedOf (o : OrderRecord) : Reduced := ⟨value o.ae, o.p, o.f, o.i⟩

/-- FRFT on reference values with the order path in binary64, as spec/95_test_vectors.md section 2.7 evaluates it. -/
def frftAtOrder (n : ℕ) (f : ℕ → ℂ) (a : Binary64) : ℕ → ℂ :=
  transformAt n (dispatchOrder a).cls (reducedOf (dispatchOrder a)) f

/-- IFRFT on reference values with the order path in binary64 (R244). -/
def ifrftAtOrder (n : ℕ) (f : ℕ → ℂ) (a : Binary64) : ℕ → ℂ := frftAtOrder n f (F64.neg a)

/-- The reference value of `T(f)`, with the closed form of each centred transform (R177). -/
def reduceSignalValue (n : ℕ) (r : Reduced) (f : ℕ → ℂ) : ℕ → ℂ :=
  let f1 := if r.p then rev n f else f
  let f2 := if r.f then centredValue (-1) n f1 else f1
  if r.i then centredValue 1 n f2 else f2

/-- The reference value of a transform for a class and a reduced order (R152, R177, R241): closed forms throughout. -/
def transformValue (n : ℕ) (cls : OrderClass) (r : Reduced) (f : ℕ → ℂ) : ℕ → ℂ :=
  match cls with
  | .identity => f
  | .parity => rev n f
  | .cdft => centredValue (-1) n f
  | .cidft => centredValue 1 n f
  | .general => engineValue n (reduceSignalValue n r f) r.ae

end

end Sys2Proof.Machine.Reference
end

