-- ==== Sys2Proof/Safety.lean ====
section
/-! DEFINITION. The terms the claims use: what the host can see of the block, when a command has ended (R19), and what a coherent state
is (the relations between the pieces of state that the spec gives, R32, R35 to R38, R81, R84, R87). -/

namespace Sys2Proof.Machine

/-- The sample whose two words stand at an offset, if both were written since reset (R63). -/
def Memory.readSample (m : Memory) (a : Nat) : Option Sample :=
  match m.readWord a, m.readWord (a + 8) with
  | some re, some im => some ⟨re, im⟩
  | _, _ => none

/-- The sequence `zs` stands in YBUF entries `0 .. len(zs)-1`. -/
def yHolds (m : Memory) (zs : List Sample) : Prop :=
  ∀ e, e < zs.length → m.readSample (yAddr e) = some (elem zs e)

/-- The sequence `zs` stands in XBUF entries `0 .. len(zs)-1`. -/
def xHolds (m : Memory) (zs : List Sample) : Prop :=
  ∀ e, e < zs.length → m.readSample (xAddr e) = some (elem zs e)

/-- The registers of the register window as the host reads them (R20). -/
def visibleRegs (s : State) : List (BitVec 64) :=
  [readReg .id s, readReg .cap s, readReg .ctrl s, readReg .status s, readReg .cmd s, readReg .len s, readReg .order s,
    readReg .orderRed s, readReg .orderEng s, readReg .path s, readReg .outlen s]

/-- The result registers and STATUS's outcome fields: what a completion may write besides YBUF (R126, R127, R150). -/
def resultRegs (s : State) : Binary64 × Binary64 × PathReg × BitVec 32 × ErrCode :=
  (s.orderRed, s.orderEng, s.path, s.outlen, s.errcode)

/-- YBUF entries `0 .. OUTLEN-1` (R19, R33). -/
def visibleOutput (s : State) : List (Option Sample) :=
  (List.range s.outlen.toNat).map fun e => s.mem.readSample (yAddr e)

/-- A command has ended: BUSY = 0 and DONE = 1 (R19). -/
def ended (s : State) : Prop := s.busy = false ∧ s.done = true

/-- Everything a command leaves alone while it runs and when it completes: CTRL, OVR, CMD, LASTOP, LEN, ORDER, SNAP, the host's side
and the schedule (R121, R126, R127, R128). -/
structure SameHostSide (s t : State) : Prop where
  ie : t.ie = s.ie
  ovr : t.ovr = s.ovr
  cmd : t.cmd = s.cmd
  lastop : t.lastop = s.lastop
  len : t.len = s.len
  order : t.order = s.order
  snap : t.snap = s.snap
  hostQueue : t.hostQueue = s.hostQueue
  responses : t.responses = s.responses
  hostFaults : t.hostFaults = s.hostFaults
  agenda : t.agenda = s.agenda
  ticks : t.ticks = s.ticks

/-- It is the host's turn, and its next access is `a` (R17, R72). -/
structure HostTurn (s : State) (a : HostAccess) (rest : List HostAccess) : Prop where
  live : staleResponse s = false
  agent : nextAgent s = .host
  queue : s.hostQueue = a :: rest

/-- The state after an access of the host that has no effect on the block: the access is used up and answered. -/
def answered (s : State) (rest : List HostAccess) (r : PortResponse) : State :=
  { advance s with hostQueue := rest, responses := r :: s.responses }

/-- The run from a state, which stays where a step answers no next state (R310). -/
def runFrom (s : State) (k : Nat) : State :=
  match k with
  | 0 => s
  | k + 1 =>
    match step (runFrom s k) with
    | .next t => t
    | .fault _ => runFrom s k
    | .refused _ => runFrom s k

/-- The four kinds of agent (R17). -/
inductive Party
  | host
  | engine
  | fftCore
  | convCore
deriving DecidableEq, Repr

/-- The agent has a step to take (R17, R86, R125, R310): the host an access, the engine a stage whose response, if it waits for one, is
there, a core a request of its kind that it has not answered. -/
def Party.enabled (p : Party) (s : State) : Bool :=
  match p with
  | .host => !s.hostQueue.isEmpty
  | .engine =>
    match s.seq with
    | .idle => false
    | .run .check => true
    | .run .dispatch => true
    | .run .reduce => true
    | .run .fftWait => s.coreResp.isSome
    | .run .interpWait => s.coreResp.isSome
    | .run .chirpWait => s.coreResp.isSome
    | .run .finish => true
  | .fftCore =>
    match s.pend with
    | some (.fft _ _) => s.coreResp.isNone
    | some (.conv _ _) => false
    | none => false
  | .convCore =>
    match s.pend with
    | some (.conv _ _) => s.coreResp.isNone
    | some (.fft _ _) => false
    | none => false

/-- The agent is the one that steps next. The engine steps by a stage, or by a whole command in the CHECK stage (R125, R132). -/
def Party.scheduledIn (p : Party) (s : State) : Bool :=
  match p with
  | .host => nextAgent s == .host
  | .engine => nextAgent s == .stage || (nextAgent s == .command && s.seq == .run .check)
  | .fftCore => nextAgent s == .fftCore
  | .convCore => nextAgent s == .convCore

/-- Weak fairness of a run: an agent that stays enabled is eventually scheduled (R310). -/
def WeaklyFair (r : Nat → State) : Prop :=
  ∀ (p : Party) (n : Nat), (∀ m, n ≤ m → p.enabled (r m) = true) → ∃ m, n ≤ m ∧ p.scheduledIn (r m) = true

/-- FRFT runs `FrftBody` at ORDER (R241), IFRFT at the negated ORDER (R244). -/
def TransformOrder (i : Instr) (s : State) (a : Binary64) : Prop :=
  (i = .frft ∧ a = s.snap.a0) ∨ (i = .ifrft ∧ a = F64.neg s.snap.a0)

/-- What a completion leaves behind: BUSY = 0, DONE = 1, SEQ IDLE, nothing outstanding, no working sequences (R126, R127). -/
structure Idle (t : State) : Prop where
  busy : t.busy = false
  done : t.done = true
  seq : t.seq = .idle
  pend : t.pend = none
  coreResp : t.coreResp = none
  work : t.work = Work.empty

/-- The PATH register's rule (R32): P, F and I are 0 unless CLASS = 5, and F and I are never both 1. -/
def flagsLegal (cls : OrderClass) (p f i : Bool) : Prop :=
  (cls ≠ .general → p = false ∧ f = false ∧ i = false) ∧ (f && i) = false

/-- The PATH register holds a value a command can have written, or its reset value (R32). -/
def pathLegal (p : PathReg) : Prop :=
  match p with
  | .unset => True
  | .dispatched cls p f i => flagsLegal cls p f i
  | .short => True

/-- The commands that read samples (R123). -/
def isData (o : Op) : Bool :=
  match o with
  | .legal .frft => true
  | .legal .ifrft => true
  | .legal .interp => true
  | .legal .engine => true
  | .legal .nop => false
  | .legal .reduce => false
  | .illegal => false

/-- FRFT and IFRFT. -/
def isTransform (o : Op) : Bool :=
  match o with
  | .legal .frft => true
  | .legal .ifrft => true
  | .legal .interp => false
  | .legal .engine => false
  | .legal .nop => false
  | .legal .reduce => false
  | .illegal => false

/-- The length of the sequence a successful command writes to YBUF (R33). -/
def outLength (o : Op) (n : Nat) : Nat :=
  match o with
  | .legal .frft => n
  | .legal .ifrft => n
  | .legal .interp => 2 * n - 1
  | .legal .engine => n
  | .legal .nop => 0
  | .legal .reduce => 0
  | .illegal => 0

/-- The running data command past its length check (R123): N samples in the working copy, with 2 <= N <= NMAX. -/
def signalLoaded (s : State) : Prop :=
  2 ≤ lengthOperand s ∧ lengthOperand s ≤ Config.nmax ∧ s.work.f.length = lengthOperand s

/-- The reducer's record of the running command: legal, and step 3's test fails once step 2 has fired (R176). -/
def recordSettled (o : OrderRecord) : Prop :=
  flagsLegal o.cls o.p o.f o.i ∧ (o.f = true → F64.lt o.ae F64.half = false)

/-- What holds in each stage: which commands reach it, what is outstanding, and the lengths of the request (R81, R84, R87, R125). -/
def stageCoherent (s : State) : Prop :=
  match s.seq with
  | .idle => s.pend = none ∧ s.work = Work.empty
  | .run .check => s.pend = none ∧ s.work = Work.empty
  | .run .dispatch => s.pend = none ∧ isTransform s.snap.op = true ∧ signalLoaded s
  | .run .reduce =>
    s.pend = none ∧
      (s.snap.op = .legal .reduce ∨
        (isTransform s.snap.op = true ∧ signalLoaded s ∧ s.work.order.cls = .general ∧ s.work.order.i = false))
  | .run .fftWait =>
    (∃ dir x, s.pend = some (.fft dir x) ∧ x.length = lengthOperand s) ∧ isTransform s.snap.op = true ∧ signalLoaded s
  | .run .interpWait =>
    (∃ p q, s.pend = some (.conv p q) ∧ p.length = 2 * lengthOperand s - 1 ∧ q.length = 4 * lengthOperand s - 5) ∧
      isData s.snap.op = true ∧ signalLoaded s
  | .run .chirpWait =>
    (∃ p q, s.pend = some (.conv p q) ∧ p.length = 4 * lengthOperand s - 3 ∧ q.length = 8 * lengthOperand s - 7) ∧
      isData s.snap.op = true ∧ s.snap.op ≠ .legal .interp ∧ signalLoaded s ∧
      s.work.chirp1.length = 4 * lengthOperand s - 3
  | .run .finish =>
    s.pend = none ∧
      ((s.snap.op = .legal .reduce ∧ s.work.result = []) ∨
        (isData s.snap.op = true ∧ 1 ≤ lengthOperand s ∧ lengthOperand s ≤ Config.nmax ∧
          s.work.result.length = outLength s.snap.op (lengthOperand s)))

/-- A coherent state. Every run from reset stays in coherent states, and a state outside them is reached by no run. -/
structure Coherent (s : State) : Prop where
  /-- The buffers are in their canonical form. -/
  memSorted : s.mem.wf = true
  /-- Every byte held lies in the mapped part of XBUF or YBUF (R64). -/
  memMapped : ∀ c ∈ s.mem, inXbuf c.1 = true ∨ inYbuf c.1 = true
  /-- SEQ = IDLE exactly when BUSY = 0 (R35). -/
  idleIffNotBusy : s.seq = .idle ↔ s.busy = false
  /-- While BUSY = 1, DONE = 0 and ERRCODE = 0 (R128). -/
  busyStatus : s.busy = true → s.done = false ∧ s.errcode = .none
  /-- LASTOP is bits [3:0] of CMD (R24, R25). -/
  lastopOfCmd : s.lastop = opField s.cmd
  /-- SNAP equals the decoded CMD, LEN and ORDER during a command (R36). -/
  snapHeld : s.busy = true → s.snap = ⟨opOfWord s.cmd, s.len, s.order⟩
  /-- The stages (R125). -/
  stage : stageCoherent s
  /-- A response answers the outstanding request with the NUM value (R80, R83, R86). -/
  response : ∀ g, s.coreResp = some g → ∃ r, s.pend = some r ∧ g = respond Config.num r
  /-- The reducer's record of the running command (R176). -/
  record : recordSettled s.work.order
  /-- The PATH register (R32). -/
  path : pathLegal s.path
  /-- OUTLEN counts entries of YBUF (R33, R41). -/
  outlen : s.outlen.toNat ≤ Config.ycap

end Sys2Proof.Machine
end

