-- ==== Sys2Proof/Certificates/Slice0/Obligations.lean ====
section
/-! DEFINITION. The statements for the provers, from the numbered rules of spec/. Three things in them are the model's own and no rule's:
the host's list of accesses and of answers that `HostTurn` and `answered` speak of (log entry 8), the choice of the agent that steps
(log entry 7), and the list of recorded bus errors (log entry 9). Free values (log entries 2, 3, 4, 5, 6) stay free throughout. -/

open Sys2Proof Sys2Proof.Machine

/-! ### Encoding -/

/-- R107: the six words of the six commands, and one word of each illegal kind of R104. -/
def Obligations.OpcodeMapWordsDecode : Prop :=
  decode 0x0000000000000000#64 = .ok .nop ∧
  decode 0x0000000000000001#64 = .ok .frft ∧
  decode 0x0000000000000002#64 = .ok .ifrft ∧
  decode 0x0000000000000003#64 = .ok .reduce ∧
  decode 0x0000000000000004#64 = .ok .interp ∧
  decode 0x0000000000000005#64 = .ok .engine ∧
  decode 0x0000000000000006#64 = .rejected (.reservedOpcode 6) ∧
  decode 0x000000000000000F#64 = .rejected (.reservedOpcode 15) ∧
  decode 0x0000000000000011#64 = .rejected .reservedBits ∧
  decode 0x8000000000000000#64 = .rejected .reservedBits

/-- R102, R103, R107: over all 2^64 words, decoding gives a command exactly on that command's word, the six words are 0 to 5, and a word
is ILLEGAL exactly where bits 63:4 are not all zero or bits 3:0 are 6 or more. -/
def Obligations.ExactlySixWordsAreLegal : Prop :=
  (∀ (w : BitVec 64) (i : Instr), decode w = .ok i ↔ w = encode i) ∧
  (encode .nop = 0#64 ∧ encode .frft = 1#64 ∧ encode .ifrft = 2#64 ∧ encode .reduce = 3#64 ∧ encode .interp = 4#64 ∧
    encode .engine = 5#64) ∧
  ∀ w : BitVec 64, opOfWord w = .illegal ↔ (w.toNat / 16 ≠ 0 ∨ 6 ≤ w.toNat % 16)

/-- R60, R100, R103: over all byte strings, the decoder reads a command exactly from the eight little-endian bytes of its word. -/
def Obligations.BytesDecodeExactlyFromEncodedWord : Prop :=
  ∀ (bs : List (BitVec 8)) (i : Instr), decodeBytes bs = .ok i ↔ bs = wordBytes (encode i)

/-! ### A step runs the decoded command -/

/-- R121, R132: a word that decodes to command `i`, accepted and with the engine's whole-command step next, is run by exec at the
accepted state; so is any accepted command whose turn it is. There is no fetch: that the word is placed as accepted is the model's
reading (log entry 10), and which agent steps is the model's schedule (log entry 7). -/
def Obligations.StepRunsDecodedCommand : Prop :=
  (∀ (s : State) (nbits w : Nat) (i : Instr), decode (tableWord nbits w) = .ok i →
    step (s.withFetchWord nbits w) =
      exec i { accept (tableWord nbits w) s with pend := none, coreResp := none, ticks := s.ticks + 1 }) ∧
  ∀ (s : State) (i : Instr), staleResponse s = false → nextAgent s = .command → s.seq = .run .check →
    s.snap.op = .legal i → step s = exec i (advance s)

/-- R104: an illegal word is accepted, and completes with ERRCODE 3 and OUTLEN 0; CMD holds it, LASTOP is its low four bits, and no
other register and no buffer byte changes. -/
def Obligations.IllegalWordCompletesWithCodeThree : Prop :=
  ∀ (s : State) (w : Nat) (why : DecodeReject), decode (tableWord 64 w) = .rejected why →
    ∃ t, step (s.withFetchWord 64 w) = .next t ∧
      t.cmd = tableWord 64 w ∧ t.lastop = (tableWord 64 w).extractLsb' 0 4 ∧ t.errcode = .illegalCommand ∧
      errBits t.errcode = 3 ∧ t.outlen = 0 ∧ t.busy = false ∧ t.done = true ∧ t.mem = s.mem ∧
      t.orderRed = s.orderRed ∧ t.orderEng = s.orderEng ∧ t.path = s.path ∧ t.ie = s.ie ∧ t.ovr = s.ovr ∧
      t.len = s.len ∧ t.order = s.order

/-! ### The host port -/

/-- R121: a CMD write while BUSY = 0 accepts the word, in the one step of that write. -/
def Obligations.CmdWriteWhileIdleAccepts : Prop :=
  ∀ (s : State) (rest : List HostAccess) (w : BitVec 64), HostTurn s (.write 0x020#32 8 w) rest → s.busy = false →
    step s = .next { answered s rest .written with
      cmd := w, lastop := w.extractLsb' 0 4, done := false, errcode := .none, busy := true,
      snap := ⟨opOfWord w, s.len, s.order⟩, seq := .run .check, work := Work.empty }

/-- R25, R28, R29, R66, R265: while BUSY = 1 a write to CMD, LEN, ORDER or a mapped XBUF word is dropped: it sets OVR and changes nothing
else. -/
def Obligations.BusyOperandWritesAreDropped : Prop :=
  ∀ (s : State) (rest : List HostAccess) (off : BitVec 32) (v : BitVec 64), HostTurn s (.write off 8 v) rest →
    s.busy = true →
    (off = 0x020#32 ∨ off = 0x028#32 ∨ off = 0x030#32 ∨ (off.toNat % 8 = 0 ∧ inXbuf off.toNat = true)) →
    step s = .next { answered s rest .written with ovr := true }

/-- R28, R29: while BUSY = 0 a LEN write stores the low 32 bits, which read back zero-extended, and an ORDER write stores all 64. -/
def Obligations.IdleLenAndOrderWritesStore : Prop :=
  ∀ (s : State) (rest : List HostAccess) (v : BitVec 64), s.busy = false →
    (HostTurn s (.write 0x028#32 8 v) rest →
      ∃ t, step s = .next t ∧ t = { answered s rest .written with len := v.extractLsb' 0 32 } ∧
        (readReg .len t).toNat = v.toNat % 2 ^ 32) ∧
    (HostTurn s (.write 0x030#32 8 v) rest →
      ∃ t, step s = .next t ∧ t = { answered s rest .written with order := v } ∧ readReg .order t = v)

/-- R23, R24: CTRL and STATUS are writable at any time. CTRL takes bit 0 and reads back as that bit; a STATUS write of 1 to bit 1 clears
DONE and to bit 2 clears OVR, a 0 leaves them, and no other STATUS bit reacts. -/
def Obligations.CtrlAndStatusWritesAtAnyTime : Prop :=
  ∀ (s : State) (rest : List HostAccess) (v : BitVec 64),
    (HostTurn s (.write 0x010#32 8 v) rest →
      ∃ t, step s = .next t ∧ t = { answered s rest .written with ie := v.getLsbD 0 } ∧
        (readReg .ctrl t).toNat = v.toNat % 2) ∧
    (HostTurn s (.write 0x018#32 8 v) rest →
      step s = .next { answered s rest .written with
        done := if v.getLsbD 1 then false else s.done
        ovr := if v.getLsbD 2 then false else s.ovr })

/-- R20, R34: a write to a read-only register (ID, CAP, ORDER_RED, ORDER_ENG, PATH, OUTLEN) or to a reserved offset 0x058 to 0xFF8 is
ignored: it changes nothing, sets no OVR and gets no bus error. -/
def Obligations.ReadOnlyAndReservedWritesAreIgnored : Prop :=
  ∀ (s : State) (rest : List HostAccess) (off : BitVec 32) (v : BitVec 64), HostTurn s (.write off 8 v) rest →
    (off = 0x000#32 ∨ off = 0x008#32 ∨ off = 0x038#32 ∨ off = 0x040#32 ∨ off = 0x048#32 ∨ off = 0x050#32 ∨
      (0x058 ≤ off.toNat ∧ off.toNat ≤ 0xFF8 ∧ off.toNat % 8 = 0)) →
    step s = .next (answered s rest .written)

/-- R20 to R34: what a read of each offset of the register window returns, at any time; reserved offsets read zero. -/
def Obligations.RegisterReadsReturnTheRegisters : Prop :=
  ∀ (s : State) (rest : List HostAccess) (off : BitVec 32), HostTurn s (.read off 8) rest →
    (off = 0x000#32 → step s = .next (answered s rest (.data 0x0001000754465246#64))) ∧
    (off = 0x008#32 → step s = .next (answered s rest (.data (BitVec.ofNat 64 (2 * Config.nmax * 2 ^ 32 + Config.nmax))))) ∧
    (off = 0x010#32 → step s = .next (answered s rest (.data (if s.ie then 1 else 0)))) ∧
    (off = 0x018#32 → step s = .next (answered s rest (.data (statusWord s)))) ∧
    (off = 0x020#32 → step s = .next (answered s rest (.data s.cmd))) ∧
    (off = 0x028#32 → step s = .next (answered s rest (.data (BitVec.ofNat 64 s.len.toNat)))) ∧
    (off = 0x030#32 → step s = .next (answered s rest (.data s.order))) ∧
    (off = 0x038#32 → step s = .next (answered s rest (.data s.orderRed))) ∧
    (off = 0x040#32 → step s = .next (answered s rest (.data s.orderEng))) ∧
    (off = 0x048#32 → step s = .next (answered s rest (.data (pathWord s.path)))) ∧
    (off = 0x050#32 → step s = .next (answered s rest (.data (BitVec.ofNat 64 s.outlen.toNat)))) ∧
    (0x058 ≤ off.toNat → off.toNat ≤ 0xFF8 → off.toNat % 8 = 0 → step s = .next (answered s rest (.data 0)))

/-- R24, R32: the bits of STATUS and PATH. -/
def Obligations.StatusAndPathBits : Prop :=
  (∀ s : State, (statusWord s).toNat =
    s.lastop.toNat * 2 ^ 12 + (errBits s.errcode).toNat * 2 ^ 8 + (if s.errcode = .none then 0 else 8) +
      (if s.ovr then 4 else 0) + (if s.done then 2 else 0) + (if s.busy then 1 else 0)) ∧
  (errBits .none = 0 ∧ errBits .emptySignal = 1 ∧ errBits .degenerateOrder = 2 ∧ errBits .illegalCommand = 3 ∧
    errBits .lengthRange = 4) ∧
  pathWord .unset = 0 ∧ pathWord .short = 6 ∧
  (∀ (c : OrderClass) (p f i : Bool), (pathWord (.dispatched c p f i)).toNat =
    (classBits c).toNat + (if p then 16 else 0) + (if f then 32 else 0) + (if i then 64 else 0)) ∧
  (classBits .identity = 1 ∧ classBits .parity = 2 ∧ classBits .cdft = 3 ∧ classBits .cidft = 4 ∧ classBits .general = 5)

/-- R62, R64, R65, R264: an access of another width, at an address that is no multiple of 8, outside the mapped windows, or a write in
the YBUF window gets a bus error that changes no state of the block, STATUS included; the record of the error is the model's (U12, log
entry 9). -/
def Obligations.RejectedAccessChangesNothing : Prop :=
  ∀ (s : State) (rest : List HostAccess) (off : BitVec 32) (bytes : Nat) (v : BitVec 64),
    let bad := bytes ≠ 8 ∨ off.toNat % 8 ≠ 0 ∨
      ¬ (off.toNat < 0x1000 ∨ (0x01000000 ≤ off.toNat ∧ off.toNat < 0x01000000 + 16 * Config.nmax) ∨
        (0x02000000 ≤ off.toNat ∧ off.toNat < 0x02000000 + 16 * (2 * Config.nmax)))
    (HostTurn s (.read off bytes) rest → bad →
      ∃ f, step s = .next { answered s rest .busError with hostFaults := f :: s.hostFaults }) ∧
    (HostTurn s (.write off bytes v) rest →
      (bad ∨ (0x02000000 ≤ off.toNat ∧ off.toNat < 0x04000000)) →
      ∃ f, step s = .next { answered s rest .busError with hostFaults := f :: s.hostFaults })

/-- R62, R64: an aligned 64-bit access of a mapped word is accepted: a read is answered with data, a write (outside YBUF) with
completion, and no bus error is recorded. -/
def Obligations.AcceptedAccessIsAnswered : Prop :=
  ∀ (s : State) (rest : List HostAccess) (off : BitVec 32) (v : BitVec 64), off.toNat % 8 = 0 →
    let regsOrX := off.toNat < 0x1000 ∨ (0x01000000 ≤ off.toNat ∧ off.toNat < 0x01000000 + 16 * Config.nmax)
    (HostTurn s (.write off 8 v) rest → regsOrX →
      ∃ t, step s = .next t ∧ t.responses = .written :: s.responses ∧ t.hostFaults = s.hostFaults) ∧
    (HostTurn s (.read off 8) rest →
      (regsOrX ∨ (0x02000000 ≤ off.toNat ∧ off.toNat < 0x02000000 + 16 * (2 * Config.nmax))) →
      ∃ t d, step s = .next t ∧ t.responses = .data d :: s.responses ∧ t.hostFaults = s.hostFaults)

/-- R69: no read has a side effect: whatever the host reads, every piece of the block's state stays. -/
def Obligations.ReadsHaveNoSideEffect : Prop :=
  ∀ (s : State) (rest : List HostAccess) (off : BitVec 32) (bytes : Nat), HostTurn s (.read off bytes) rest →
    ∃ t, step s = .next t ∧ visibleRegs t = visibleRegs s ∧ t.mem = s.mem ∧ t.seq = s.seq ∧ t.snap = s.snap ∧
      t.pend = s.pend ∧ t.coreResp = s.coreResp ∧ t.work = s.work ∧ t.busy = s.busy ∧ t.done = s.done ∧ t.ovr = s.ovr ∧
      t.errcode = s.errcode

/-- R60, R63, R66, R68: while BUSY = 0 a write of a mapped XBUF word is stored: that word reads back, every byte outside its eight
reads as before, and nothing else changes. -/
def Obligations.XbufWriteReadsBack : Prop :=
  ∀ (s : State) (rest : List HostAccess) (off : BitVec 32) (v : BitVec 64), HostTurn s (.write off 8 v) rest →
    s.busy = false → off.toNat % 8 = 0 → inXbuf off.toNat = true →
    ∃ t, step s = .next t ∧ t = { answered s rest .written with mem := t.mem } ∧
      t.mem.readWord off.toNat = some v ∧
      (∀ a, a < off.toNat ∨ off.toNat + 8 ≤ a → t.mem.read a = s.mem.read a) ∧
      ∀ (rest' : List HostAccess) (u : State), HostTurn u (.read off 8) rest' → u.mem = t.mem →
        ∃ u', step u = .next u' ∧ u'.responses = .data v :: u.responses

/-- R42, R67, R68: a read of a mapped YBUF word while BUSY = 1, and of any buffer word never written, is a fresh free word; any other
read of a mapped buffer word returns the stored word. The draw is the model's form of the unspecified value (U1, U2, log entry 5). -/
def Obligations.BufferReadsReturnStoredOrFreeWord : Prop :=
  ∀ (s : State) (rest : List HostAccess) (off : BitVec 32), HostTurn s (.read off 8) rest → off.toNat % 8 = 0 →
    (inXbuf off.toNat = true ∨ inYbuf off.toNat = true) →
    ∃ d, step s = .next { answered s rest (.data d) with draws := s.draws + 1 } ∧
      (s.busy = true → inYbuf off.toNat = true → d = Config.freeWord s.draws) ∧
      ((s.busy = false ∨ inXbuf off.toNat = true) →
        (s.mem.readWord off.toNat = none → d = Config.freeWord s.draws) ∧
        ∀ w, s.mem.readWord off.toNat = some w → d = w)

/-- R106: `wait` reads STATUS at every host step and ends with the first value that shows DONE. That it is one host access of the list,
made again and again, is the model's form (log entry 17). -/
def Obligations.WaitPollsUntilDone : Prop :=
  ∀ (s : State) (rest : List HostAccess), HostTurn s .wait rest →
    (s.done = true → step s = .next (answered s rest (.data (statusWord s)))) ∧
    (s.done = false → step s = .next (answered s (.wait :: rest) (.data (statusWord s))))

/-- R290, R291: reset, at any time and in any state of a command, gives every register its reset value, leaves SEQ IDLE and nothing
outstanding, and makes every buffer byte unspecified. That the reset input is an agent of the schedule is the model's (log entry 7). -/
def Obligations.ResetAbandonsEverything : Prop :=
  ∀ s : State, staleResponse s = false → nextAgent s = .reset →
    ∃ t, step s = .next t ∧
      visibleRegs t = [0x0001000754465246#64, BitVec.ofNat 64 (2 * Config.nmax * 2 ^ 32 + Config.nmax), 0, 0, 0, 0, 0, 0, 0, 0, 0] ∧
      t.seq = .idle ∧ t.pend = none ∧ t.coreResp = none ∧ t.work = Work.empty ∧ irq t = false ∧
      ∀ a, t.mem.read a = none

/-- R270, R302: the interrupt output. It falls at acceptance, equals IE after any completion, and a W1C write of DONE lowers it. -/
def Obligations.InterruptFollowsDoneAndEnable : Prop :=
  (∀ s : State, irq s = (s.done && s.ie)) ∧
  (∀ (w : BitVec 64) (s : State), irq (accept w s) = false) ∧
  (∀ (i : Instr) (s t : State), exec i s = .next t → irq t = s.ie) ∧
  ∀ (v : BitVec 64) (s : State), v.getLsbD 1 = true → irq (clearStatus v s) = false

/-! ### Commands: frames, checks and errors -/

/-- R121, R126, R127, R128: every command completes in every state; it leaves SEQ IDLE with nothing outstanding, changes nothing of CTRL,
OVR, CMD, LASTOP, LEN, ORDER and SNAP, and reads every byte outside YBUF entries `0 .. OUTLEN-1` as before. -/
def Obligations.EveryCommandCompletesWithinItsFrame : Prop :=
  ∀ (i : Instr) (s : State), ∃ t, exec i s = .next t ∧ Idle t ∧ SameHostSide s t ∧
    ∀ a, a < 0x02000000 ∨ 0x02000000 + 16 * t.outlen.toNat ≤ a → t.mem.read a = s.mem.read a

/-- R130, R150, R197, R222: NOP, INTERP and ENGINE write no result register but OUTLEN and STATUS; the others, stopped by the length check,
write none either. -/
def Obligations.UndispatchedCommandsKeepOrderRegisters : Prop :=
  ∀ (i : Instr) (s t : State), exec i s = .next t →
    (i = .nop ∨ i = .interp ∨ i = .engine ∨
      ((i = .frft ∨ i = .ifrft) ∧ (lengthOperand s = 0 ∨ Config.nmax < lengthOperand s))) →
    t.orderRed = s.orderRed ∧ t.orderEng = s.orderEng ∧ t.path = s.path

/-- R41, R127: a command that ends with an error writes no byte of the buffers and sets OUTLEN to 0. -/
def Obligations.ErrorsWriteNoResult : Prop :=
  ∀ (i : Instr) (s t : State), exec i s = .next t → t.errcode ≠ .none → t.mem = s.mem ∧ t.outlen = 0

/-- R130: NOP completes successfully in every state, with OUTLEN 0 and nothing else written. -/
def Obligations.NopCompletes : Prop :=
  ∀ s : State, ∃ t, exec .nop s = .next t ∧ Idle t ∧ SameHostSide s t ∧ t.errcode = .none ∧ t.outlen = 0 ∧
    t.mem = s.mem ∧ t.orderRed = s.orderRed ∧ t.orderEng = s.orderEng ∧ t.path = s.path ∧ t.draws = s.draws

/-- R123: with N = 0 a data command ends with EMPTY_SIGNAL and with N > NMAX with LENGTH_RANGE, whatever the order; STATUS and OUTLEN apart
no register changes, no byte is written and none is read. -/
def Obligations.LengthErrors : Prop :=
  ∀ (i : Instr) (s : State), i = .frft ∨ i = .ifrft ∨ i = .interp ∨ i = .engine →
    (s.snap.n = 0 → exec i s = .next { s with
      errcode := .emptySignal, outlen := 0, busy := false, done := true, seq := .idle, pend := none, coreResp := none,
      work := Work.empty }) ∧
    (Config.nmax < s.snap.n.toNat → exec i s = .next { s with
      errcode := .lengthRange, outlen := 0, busy := false, done := true, seq := .idle, pend := none, coreResp := none,
      work := Work.empty })

/-- R129, R243: with N = 1 a data command copies XBUF entry 0 to YBUF entry 0 bit for bit, whatever the order; FRFT and IFRFT set PATH to
0x06, and ORDER_RED and ORDER_ENG are not written. -/
def Obligations.OneSampleIsCopied : Prop :=
  ∀ (i : Instr) (s : State) (z : Sample), i = .frft ∨ i = .ifrft ∨ i = .interp ∨ i = .engine → s.snap.n = 1 →
    s.mem.readSample (xAddr 0) = some z →
    ∃ t, exec i s = .next t ∧ t.mem.readSample (yAddr 0) = some z ∧ t.outlen = 1 ∧ t.errcode = .none ∧ Idle t ∧
      t.orderRed = s.orderRed ∧ t.orderEng = s.orderEng ∧
      pathWord t.path = (if i = .frft ∨ i = .ifrft then 0x06 else pathWord s.path)

/-- R70, R123: where XBUF holds `f` in entries `0 .. N-1`, the running command's working copy is `f`, bit for bit. -/
def Obligations.WorkingCopyIsXbuf : Prop :=
  ∀ (s : State) (f : List Sample), f.length = lengthOperand s → xHolds s.mem f → inputSignal s = f

/-- R155: REDUCE in every state: ORDER_RED, ORDER_ENG and PATH get the dispatch of ORDER, OUTLEN is 0, no byte is written, and the code
is DEGENERATE_ORDER exactly where a GENERAL-class order leaves [0.5, 1.5]. -/
def Obligations.ReduceReportsTheDispatch : Prop :=
  ∀ s : State,
    let ar := floormod4 s.snap.a0
    let cls := classify ar
    let r1 := reduceParity ar
    let r2 := reduceForward r1.1
    let r3 := reduceInverse r2.1
    let ae := if cls = .general then r3.1 else ar
    ∃ t, exec .reduce s = .next t ∧ Idle t ∧ SameHostSide s t ∧ t.mem = s.mem ∧ t.draws = s.draws ∧ t.outlen = 0 ∧
      t.orderRed = ar ∧ t.orderEng = ae ∧
      t.path = (if cls = .general then .dispatched .general r1.2 r2.2 r3.2 else .dispatched cls false false false) ∧
      t.errcode = (if cls = .general ∧ ¬ (F64.le F64.half ae = true ∧ F64.le ae F64.oneHalf = true) then .degenerateOrder else .none)

/-- R155, R267: REDUCE ends with DEGENERATE_ORDER exactly when ORDER is NaN or infinite, and successfully for every finite order. -/
def Obligations.ReduceFailsExactlyOnNonFiniteOrders : Prop :=
  ∀ s : State, ∃ t, exec .reduce s = .next t ∧
    (t.errcode = .degenerateOrder ↔ (F64.isNaN s.snap.a0 = true ∨ F64.isInf s.snap.a0 = true)) ∧
    (F64.isFinite s.snap.a0 = true → t.errcode = .none)

/-- R197, R192 to R196: INTERP on N samples, 2 <= N <= NMAX: YBUF entries `0 .. 2N-2` hold the upsampled signal, OUTLEN is 2N - 1. For every
NUM, sample `j` of the upsampled signal is sample `2N - 3 + j` of NUM.conv of the zero-stuffed signal, first, and the sinc kernel. -/
def Obligations.InterpWritesUpsampledSignal : Prop :=
  (∀ s : State, 2 ≤ lengthOperand s → lengthOperand s ≤ Config.nmax →
    ∃ t, exec .interp s = .next t ∧ yHolds t.mem (sincinterp Config.num (inputSignal s)) ∧
      (sincinterp Config.num (inputSignal s)).length = 2 * lengthOperand s - 1 ∧
      t.outlen.toNat = 2 * lengthOperand s - 1 ∧ t.errcode = .none ∧ Idle t ∧ SameHostSide s t ∧
      t.orderRed = s.orderRed ∧ t.orderEng = s.orderEng ∧ t.path = s.path) ∧
  ∀ (num : Numerics) (x : List Sample) (j : Nat), 2 ≤ x.length → j < 2 * x.length - 1 →
    let N := x.length
    let y := (List.range (2 * N - 1)).map fun m => if m % 2 = 0 then elem x (m / 2) else Sample.zero
    let hs := (List.range (4 * N - 5)).map fun m : Nat =>
      Sample.mk (num.sinc (F64.div (F64.ofInt ((m : Int) - (2 * (N : Int) - 3))) F64.two)) F64.zero
    elem (sincinterp num x) j = num.conv y hs (2 * N - 3 + j)

/-- R222, R210 to R220: ENGINE on N samples, 2 <= N <= NMAX: where the order guard passes, YBUF entries `0 .. N-1` hold the engine's result at
ORDER itself; where it fails, the command ends with DEGENERATE_ORDER and writes nothing. Whether NUM.sin returns a zero is open (R13).
For every NUM, sample `n` of the engine's result is what R211 to R220 compute, each real expression in the spec's order. -/
def Obligations.EngineRunsAtOrderItself : Prop :=
  (∀ s : State, 2 ≤ lengthOperand s → lengthOperand s ≤ Config.nmax →
    let a := s.snap.a0
    ∃ t, exec .engine s = .next t ∧ Idle t ∧ SameHostSide s t ∧
      t.orderRed = s.orderRed ∧ t.orderEng = s.orderEng ∧ t.path = s.path ∧
      if F64.le F64.half a = true ∧ F64.le a F64.oneHalf = true ∧
          F64.eq (Config.num.sin (F64.div (F64.mul a Config.num.pi) F64.two)) F64.zero = false then
        yHolds t.mem (engineBody Config.num (inputSignal s) a) ∧ t.outlen.toNat = lengthOperand s ∧ t.errcode = .none
      else t.errcode = .degenerateOrder ∧ t.outlen = 0 ∧ t.mem = s.mem) ∧
  ∀ (num : Numerics) (f : List Sample) (a : Binary64), 2 ≤ f.length →
    let N := f.length
    let alpha := F64.div (F64.mul a num.pi) F64.two
    let tana2 := num.tan (F64.div alpha F64.two)
    let sina := num.sin alpha
    let p := fun j : Nat => if N - 1 ≤ j ∧ j < 3 * N - 2 then elem (sincinterp num f) (j - (N - 1)) else Sample.zero
    let beta := F64.div (F64.mul (F64.div num.pi (F64.ofNat N)) tana2) F64.four
    let chirp1 := fun j : Nat => num.cis (F64.neg (F64.mul beta (F64.ofInt (((j : Int) - (2 * (N : Int) - 2)) ^ 2))))
    let c := F64.div num.pi (F64.mul (F64.mul F64.four (F64.ofNat N)) sina)
    let chirp2 := fun m : Nat => num.cis (F64.mul c (F64.ofInt (((m : Int) - (4 * (N : Int) - 4)) ^ 2)))
    let w := num.conv ((List.range (4 * N - 3)).map fun j => cmul (chirp1 j) (p j)) ((List.range (8 * N - 7)).map chirp2)
    let g := num.sqrt (F64.div c num.pi)
    let ph := num.cis (F64.neg (F64.div (F64.mul (F64.sub F64.one a) num.pi) F64.four))
    (engineBody num f a).length = N ∧
      ∀ n, n < N → elem (engineBody num f a) n =
        cmul ph (cmul (chirp1 (N - 1 + 2 * n)) (rscale g (w (4 * N - 4 + (N - 1 + 2 * n)))))

/-- R143, R152, R241, R244: FRFT at ORDER and IFRFT at the negated ORDER, where the reduced order equals 0, 2, 1 or 3. -/
def Obligations.TransformAtIntegerOrder : Prop :=
  ∀ (i : Instr) (s : State) (a : Binary64), TransformOrder i s a → 2 ≤ lengthOperand s → lengthOperand s ≤ Config.nmax →
    let f := inputSignal s
    let ar := floormod4 a
    ∀ (c : OrderClass) (r : List Sample),
      (F64.eq ar F64.zero = true ∧ c = .identity ∧ r = f) ∨ (F64.eq ar F64.two = true ∧ c = .parity ∧ r = f.reverse) ∨
        (F64.eq ar F64.one = true ∧ c = .cdft ∧ r = cdft Config.num f) ∨
        (F64.eq ar F64.three = true ∧ c = .cidft ∧ r = cidft Config.num f) →
      ∃ t, exec i s = .next t ∧ yHolds t.mem r ∧ r.length = lengthOperand s ∧ t.outlen.toNat = lengthOperand s ∧
        t.errcode = .none ∧ Idle t ∧ SameHostSide s t ∧ t.orderRed = ar ∧ t.orderEng = ar ∧
        t.path = .dispatched c false false false

/-- R143, R144, R241, R244: FRFT at ORDER and IFRFT at the negated ORDER, where the reduced order equals none of 0, 1, 2 and 3, a NaN
included: the range reducer's steps, then the chirp engine at the engine order, whose guard decides between the result and
DEGENERATE_ORDER; the result registers are written in both cases. What `engineBody` computes is in EngineRunsAtOrderItself, what the
centred transforms compute in CentredTransformsScaleAndScatter. -/
def Obligations.TransformAtGeneralOrder : Prop :=
  ∀ (i : Instr) (s : State) (a : Binary64), TransformOrder i s a → 2 ≤ lengthOperand s → lengthOperand s ≤ Config.nmax →
    F64.eq (floormod4 a) F64.zero = false → F64.eq (floormod4 a) F64.one = false →
    F64.eq (floormod4 a) F64.two = false → F64.eq (floormod4 a) F64.three = false →
    let r1 := reduceParity (floormod4 a)
    let r2 := reduceForward r1.1
    let r3 := reduceInverse r2.1
    let f1 := if r1.2 then (inputSignal s).reverse else inputSignal s
    let f2 := if r2.2 then cdft Config.num f1 else f1
    let f3 := if r3.2 then cidft Config.num f2 else f2
    ∃ t, exec i s = .next t ∧ Idle t ∧ SameHostSide s t ∧ t.orderRed = floormod4 a ∧ t.orderEng = r3.1 ∧
      t.path = .dispatched .general r1.2 r2.2 r3.2 ∧
      if F64.le F64.half r3.1 = true ∧ F64.le r3.1 F64.oneHalf = true ∧
          F64.eq (Config.num.sin (F64.div (F64.mul r3.1 Config.num.pi) F64.two)) F64.zero = false then
        yHolds t.mem (engineBody Config.num f3 r3.1) ∧ t.outlen.toNat = lengthOperand s ∧ t.errcode = .none
      else t.mem = s.mem ∧ t.outlen = 0 ∧ t.errcode = .degenerateOrder

/-- R223, R241, R267: on 2 to NMAX samples, FRFT and IFRFT end with DEGENERATE_ORDER exactly when the order is NaN or infinite, or when it is
of class GENERAL and NUM.sin returns a zero at the engine order. -/
def Obligations.TransformFailsExactlyWhenDegenerate : Prop :=
  ∀ (i : Instr) (s : State) (a : Binary64), TransformOrder i s a → 2 ≤ lengthOperand s → lengthOperand s ≤ Config.nmax →
    ∃ t, exec i s = .next t ∧
      (t.errcode = .degenerateOrder ↔
        (F64.isFinite a = false ∨ (classify (floormod4 a) = .general ∧
          F64.eq (Config.num.sin (F64.div (F64.mul (reduceOrder (floormod4 a)).ae Config.num.pi) F64.two)) F64.zero = true))) ∧
      (t.errcode ≠ .degenerateOrder → t.errcode = .none)

/-- R155: for every N from 2 to NMAX, REDUCE leaves exactly the ORDER_RED, ORDER_ENG and PATH that FRFT leaves at the same ORDER. Where
REDUCE ends with DEGENERATE_ORDER so does FRFT, and where FRFT does, so does REDUCE unless NUM.sin returns a zero at the engine order. -/
def Obligations.ReducePredictsTransform : Prop :=
  ∀ s : State, 2 ≤ lengthOperand s → lengthOperand s ≤ Config.nmax →
    ∃ t u, exec .reduce s = .next t ∧ exec .frft s = .next u ∧
      u.orderRed = t.orderRed ∧ u.orderEng = t.orderEng ∧ u.path = t.path ∧
      (t.errcode = .degenerateOrder → u.errcode = .degenerateOrder) ∧
      (F64.eq (Config.num.sin (F64.div (F64.mul t.orderEng Config.num.pi) F64.two)) F64.zero = false →
        u.errcode = .degenerateOrder → t.errcode = .degenerateOrder)

/-- R245 items 1 and 2, R153: identity and parity, bit for bit, at every order that reduces to 0 or 2, for every NUM. -/
def Obligations.IdentityAndParityAreExact : Prop :=
  ∀ (s : State) (f : List Sample), 2 ≤ f.length → f.length ≤ Config.nmax → f.length = lengthOperand s → xHolds s.mem f →
    (floormod4 s.snap.a0 = F64.zero → ∃ t, exec .frft s = .next t ∧
      ∀ e, e < f.length → t.mem.readSample (yAddr e) = s.mem.readSample (xAddr e)) ∧
    (floormod4 s.snap.a0 = F64.two → ∃ t, exec .frft s = .next t ∧
      ∀ e, e < f.length → t.mem.readSample (yAddr e) = s.mem.readSample (xAddr (f.length - 1 - e)))

/-- R245 item 1: the orders the spec names for the identity and for parity reduce to `+0.0` and to `2.0`. -/
def Obligations.NamedOrdersReduceExactly : Prop :=
  (∀ a ∈ [0x0000000000000000#64, 0x8000000000000000#64, 0x4010000000000000#64, 0xC010000000000000#64, 0x4020000000000000#64,
      0x7E37E43C8800759C#64, 0xBBC79CA10C924223#64], floormod4 a = F64.zero) ∧
  ∀ a ∈ [0x4000000000000000#64, 0xC000000000000000#64, 0x4018000000000000#64], floormod4 a = F64.two

/-- R245 item 3: IFRFT at an order writes the same ORDER_RED, ORDER_ENG, PATH, OUTLEN and ERRCODE as FRFT at the negated order, and the same
YBUF where XBUF entries `0 .. N-1` were written. The premise is asked where they are read (N up to NMAX); the two runs may differ in
their free draws (log entry 5). Equal NaN bits rest on log entry 6. -/
def Obligations.InverseIsForwardAtNegatedOrder : Prop :=
  ∀ (s s' : State) (d : Nat),
    s' = { s with snap := { s.snap with a0 := s.snap.a0 ^^^ 0x8000000000000000#64 }, draws := d } →
    ∃ t t', exec .ifrft s = .next t ∧ exec .frft s' = .next t' ∧ resultRegs t = resultRegs t' ∧
      ∀ f : List Sample, f.length = lengthOperand s → (lengthOperand s ≤ Config.nmax → xHolds s.mem f) → t.mem = t'.mem

/-- R245 item 4: FRFT at two orders with one reduced order gives identical results, and with two NaN reduced orders results that are
identical but for the bits of the NaNs in ORDER_RED and ORDER_ENG (U4). YBUF is compared where XBUF entries `0 .. N-1` were written, as
in InverseIsForwardAtNegatedOrder (log entry 5); equal NaN bits in YBUF rest on log entry 6. -/
def Obligations.EqualReducedOrdersGiveEqualResults : Prop :=
  ∀ (s s' : State) (b : Binary64) (d : Nat), s' = { s with snap := { s.snap with a0 := b }, draws := d } →
    (floormod4 s.snap.a0 = floormod4 b →
      ∃ t t', exec .frft s = .next t ∧ exec .frft s' = .next t' ∧ resultRegs t = resultRegs t' ∧
        ∀ f : List Sample, f.length = lengthOperand s → (lengthOperand s ≤ Config.nmax → xHolds s.mem f) → t.mem = t'.mem) ∧
    (F64.isNaN (floormod4 s.snap.a0) = true → F64.isNaN (floormod4 b) = true →
      ∃ t t', exec .frft s = .next t ∧ exec .frft s' = .next t' ∧
        t.path = t'.path ∧ t.outlen = t'.outlen ∧ t.errcode = t'.errcode ∧
        ((t.orderRed = t'.orderRed ∧ t.orderEng = t'.orderEng) ∨
          (F64.isNaN t.orderRed = true ∧ F64.isNaN t'.orderRed = true ∧ F64.isNaN t.orderEng = true ∧ F64.isNaN t'.orderEng = true)) ∧
        ∀ f : List Sample, f.length = lengthOperand s → (lengthOperand s ≤ Config.nmax → xHolds s.mem f) → t.mem = t'.mem)

/-- R245 item 6: a data command's output is a function of the opcode, LEN, ORDER and XBUF entries `0 .. N-1` alone: two states that
differ in anything else give the same YBUF entries, OUTLEN and ERRCODE, and FRFT and IFRFT on two samples or more the same
ORDER_RED, ORDER_ENG and PATH. That computed NaNs have equal bits in both runs is log entry 6. -/
def Obligations.OutputDependsOnOperandsOnly : Prop :=
  ∀ (i : Instr) (s s' : State) (f : List Sample), i = .frft ∨ i = .ifrft ∨ i = .interp ∨ i = .engine →
    s.snap = s'.snap → f.length = lengthOperand s → xHolds s.mem f → xHolds s'.mem f →
    ∃ t t', exec i s = .next t ∧ exec i s' = .next t' ∧ visibleOutput t = visibleOutput t' ∧ t.outlen = t'.outlen ∧
      t.errcode = t'.errcode ∧
      ((i = .frft ∨ i = .ifrft) → 2 ≤ lengthOperand s → lengthOperand s ≤ Config.nmax →
        t.orderRed = t'.orderRed ∧ t.orderEng = t'.orderEng ∧ t.path = t'.path)

/-! ### Order arithmetic -/

/-- R142, whole. With `r0 = fmod4 a` the truncated remainder of R141: a finite order reduces into [0, 4) and a zero is `+0.0`; to `r0` itself
without a sign, and to the value of `r0` from zero up (`-0.0 >= 0` too); with a sign and `r0` not zero to `r0 + 4.0` rounded, or to `+0.0` where that is 4.0; a NaN or infinite order to a NaN; and
the three orders the rule names. -/
def Obligations.ReducedOrderProperties : Prop :=
  (∀ a : Binary64, F64.isFinite a = true →
    F64.le F64.zero (floormod4 a) = true ∧ F64.lt (floormod4 a) F64.four = true ∧
      (F64.eq (floormod4 a) F64.zero = true → floormod4 a = F64.zero) ∧
      (F64.sign a = false → floormod4 a = F64.fmod4 a) ∧
      (F64.le F64.zero a = true → F64.eq (floormod4 a) (F64.fmod4 a) = true) ∧
      (F64.sign a = true → F64.eq (F64.fmod4 a) F64.zero = false →
        floormod4 a = if F64.eq (F64.add (F64.fmod4 a) F64.four) F64.four then F64.zero else F64.add (F64.fmod4 a) F64.four)) ∧
  (∀ a : Binary64, F64.isNaN a = true ∨ F64.isInf a = true → F64.isNaN (floormod4 a) = true) ∧
  floormod4 0xBBC79CA10C924223#64 = F64.zero ∧ floormod4 0x7E37E43C8800759C#64 = F64.zero ∧
  floormod4 0xBFB999999999999A#64 = 0x400F333333333333#64

/-- R141: the truncated remainder is exact: for a finite order it is the order's magnitude modulo 4, in units of 2^-1074, with the order's
sign. -/
def Obligations.TruncatedRemainderIsExact : Prop :=
  ∀ a : Binary64, F64.isFinite a = true →
    F64.units (F64.fmod4 a) = F64.units a % (4 * 2 ^ 1074) ∧ F64.sign (F64.fmod4 a) = F64.sign a

/-- R175: for every GENERAL-class order that is not NaN the reducer's result is in [0.5, 1.5]; for a NaN it is that NaN, with P = F = I = 0. -/
def Obligations.EngineOrderLiesInItsInterval : Prop :=
  ∀ a : Binary64,
    (F64.isFinite a = true → classify (floormod4 a) = .general →
      F64.le F64.half (reduceOrder (floormod4 a)).ae = true ∧ F64.le (reduceOrder (floormod4 a)).ae F64.oneHalf = true) ∧
    (F64.isNaN a = true → reduceOrder a = ⟨a, a, .general, false, false, false⟩)

/-- R32, R176: steps 2 and 3 never both fire, for any value the reducer is given. -/
def Obligations.ForwardAndInverseStepsExclude : Prop :=
  ∀ a : Binary64, ¬ ((reduceOrder a).f = true ∧ (reduceOrder a).i = true)

/-- R172, R173, R177: the reducer's two subtractions are exact, and on every order in [0, 4) its steps fire as they do in real arithmetic,
where `ae = ar - 2P - F + I`; the engine order is that value exactly where step 3 does not fire, and where it does, the one rounded
addition of 1 to the exact `ar - 2P`. Classes are those of the exact value (R143), and floor-mod of an order without a sign is exact
(R142). -/
def Obligations.ReducerSubtractionsAreExact : Prop :=
  (∀ a : Binary64, F64.isFinite a = true →
    (F64.lt F64.two a = true → F64.lt a F64.four = true →
      F64.toInt (reduceParity a).1 = F64.toInt a - F64.toInt F64.two) ∧
    (F64.lt F64.oneHalf a = true → F64.lt a F64.two = true →
      F64.toInt (reduceForward a).1 = F64.toInt a - F64.toInt F64.one)) ∧
  (∀ ar : Binary64, F64.le F64.zero ar = true → F64.lt ar F64.four = true →
    let o := reduceOrder ar
    let r := Reference.reduceOrder (Reference.value ar)
    o.p = r.p ∧ o.f = r.f ∧ o.i = r.i ∧
    r.ae = Reference.value ar - (if o.p then 2 else 0) - (if o.f then 1 else 0) + (if o.i then 1 else 0) ∧
    (o.i = false → Reference.value o.ae = r.ae) ∧
    (o.i = true → ∃ x : Binary64, F64.isFinite x = true ∧ o.ae = F64.add x F64.one ∧
      Reference.value x = Reference.value ar - (if o.p then 2 else 0))) ∧
  (∀ ar : Binary64, F64.isFinite ar = true → classify ar = Reference.classify (Reference.value ar)) ∧
  ∀ a : Binary64, F64.isFinite a = true → F64.sign a = false →
    Reference.value (floormod4 a) = Reference.floormod4 (Reference.value a)

/-- R11, R12, R10: the binary64 arithmetic of the block. Rounding is to nearest with ties to even, and past the largest finite value to
infinity; sum, difference, product and quotient of finite operands are the exact result rounded once; NaN and the infinities go through
as IEEE 754 has it; comparisons are those of the exact values, false with a NaN; small integers convert exactly; and the complex
operations are these, each rounded. Exact values count in units of 2^-1074. The bits of a NaN are free (U4, log entry 6). -/
def Obligations.RoundingIsToNearestTiesToEven : Prop :=
  (∀ num den m : Nat, 0 < den → F64.roundBits num den < F64.infBits → m < F64.infBits →
    let chosen := ((F64.unitsOfBits (F64.roundBits num den) * den : Nat) : Int) - num
    let other := ((F64.unitsOfBits m * den : Nat) : Int) - num
    chosen.natAbs ≤ other.natAbs ∧
      (chosen.natAbs = other.natAbs → m ≠ F64.roundBits num den → F64.roundBits num den % 2 = 0)) ∧
  (∀ num den : Nat, 0 < den → F64.roundBits num den ≤ F64.infBits ∧
    (F64.roundBits num den = F64.infBits ↔ (2 ^ 54 - 1) * 2 ^ 2044 * den ≤ num)) ∧
  (∀ a b : Binary64, F64.isFinite a = true → F64.isFinite b = true →
    (F64.magBits (F64.add a b) = F64.roundBits (F64.toInt a + F64.toInt b).natAbs 1 ∧
      F64.sign (F64.add a b) =
        if F64.toInt a + F64.toInt b = 0 then F64.sign a && F64.sign b else decide (F64.toInt a + F64.toInt b < 0)) ∧
    F64.magBits (F64.sub a b) = F64.roundBits (F64.toInt a - F64.toInt b).natAbs 1 ∧
    (F64.toInt a ≠ F64.toInt b → F64.sign (F64.sub a b) = decide (F64.toInt a < F64.toInt b)) ∧
    (F64.magBits (F64.mul a b) = F64.roundBits (F64.units a * F64.units b) (2 ^ 1074) ∧
      F64.sign (F64.mul a b) = (F64.sign a != F64.sign b)) ∧
    (F64.units b ≠ 0 → F64.magBits (F64.div a b) = F64.roundBits (F64.units a * 2 ^ 1074) (F64.units b) ∧
      F64.sign (F64.div a b) = (F64.sign a != F64.sign b)) ∧
    (F64.units b = 0 → F64.units a ≠ 0 → F64.isInf (F64.div a b) = true ∧
      F64.sign (F64.div a b) = (F64.sign a != F64.sign b)) ∧
    (F64.units b = 0 → F64.units a = 0 → F64.isNaN (F64.div a b) = true) ∧
    (F64.lt a b = true ↔ F64.toInt a < F64.toInt b) ∧ (F64.le a b = true ↔ F64.toInt a ≤ F64.toInt b) ∧
    (F64.eq a b = true ↔ F64.toInt a = F64.toInt b)) ∧
  (∀ a b : Binary64, F64.isNaN a = true ∨ F64.isNaN b = true →
    F64.isNaN (F64.add a b) = true ∧ F64.isNaN (F64.mul a b) = true ∧ F64.isNaN (F64.div a b) = true ∧
      F64.lt a b = false ∧ F64.le a b = false ∧ F64.eq a b = false) ∧
  (∀ a b : Binary64, F64.isInf a = true → F64.isFinite b = true →
    F64.add a b = a ∧ F64.add b a = a ∧
    (F64.units b = 0 → F64.isNaN (F64.mul a b) = true ∧ F64.isNaN (F64.mul b a) = true) ∧
    (F64.units b ≠ 0 → F64.isInf (F64.mul a b) = true ∧ F64.isInf (F64.mul b a) = true ∧
      F64.sign (F64.mul a b) = (F64.sign a != F64.sign b) ∧ F64.sign (F64.mul b a) = (F64.sign a != F64.sign b)) ∧
    F64.isInf (F64.div a b) = true ∧ F64.sign (F64.div a b) = (F64.sign a != F64.sign b) ∧
    F64.magBits (F64.div b a) = 0 ∧ F64.sign (F64.div b a) = (F64.sign a != F64.sign b) ∧
    F64.lt a b = F64.sign a ∧ F64.lt b a = !F64.sign a) ∧
  (∀ a b : Binary64, F64.isInf a = true → F64.isInf b = true →
    (F64.sign a = F64.sign b → F64.add a b = a) ∧ (F64.sign a ≠ F64.sign b → F64.isNaN (F64.add a b) = true) ∧
    F64.isInf (F64.mul a b) = true ∧ F64.sign (F64.mul a b) = (F64.sign a != F64.sign b) ∧ F64.isNaN (F64.div a b) = true) ∧
  (∀ k : Int, k.natAbs ≤ 2 ^ 53 → F64.isFinite (F64.ofInt k) = true ∧ F64.toInt (F64.ofInt k) = k * 2 ^ 1074) ∧
  ∀ (x y : Sample) (r : Binary64),
    cmul x y = ⟨F64.sub (F64.mul x.re y.re) (F64.mul x.im y.im), F64.add (F64.mul x.re y.im) (F64.mul x.im y.re)⟩ ∧
    rscale r x = ⟨F64.mul r x.re, F64.mul r x.im⟩ ∧ rdiv x r = ⟨F64.div x.re r, F64.div x.im r⟩

/-! ### Sequences -/

/-- R145, R146: the centering shift is a permutation of `0 .. N-1`, `gather` reads through it, `scatter` writes through it, and each undoes
the other. -/
def Obligations.ScatterInvertsGather : Prop :=
  (∀ n i : Nat, i < n → shiftIndex n i = (i + n / 2) % n ∧ shiftIndex n i < n) ∧
  (∀ n i j : Nat, i < n → j < n → shiftIndex n i = shiftIndex n j → i = j) ∧
  (∀ n m : Nat, m < n → ∃ i, i < n ∧ shiftIndex n i = m) ∧
  (∀ f : List Sample, (gather f).length = f.length ∧ ∀ i, i < f.length → elem (gather f) i = elem f (shiftIndex f.length i)) ∧
  (∀ g : List Sample, (scatter g).length = g.length ∧ ∀ i, i < g.length → elem (scatter g) (shiftIndex g.length i) = elem g i) ∧
  (∀ f : List Sample, scatter (gather f) = f) ∧ ∀ f : List Sample, gather (scatter f) = f

/-- R147, R148: a centred transform gathers, makes one FFT request of its own length, divides each component by NUM.sqrt(N) and writes back
through the same shift. -/
def Obligations.CentredTransformsScaleAndScatter : Prop :=
  ∀ (num : Numerics) (f : List Sample) (i : Nat), i < f.length →
    let g := (List.range f.length).map fun j => elem f ((j + f.length / 2) % f.length)
    let s := num.sqrt (F64.ofNat f.length)
    elem (cdft num f) ((i + f.length / 2) % f.length) = ⟨F64.div (num.fft .fwd g i).re s, F64.div (num.fft .fwd g i).im s⟩ ∧
    elem (cidft num f) ((i + f.length / 2) % f.length) = ⟨F64.div (num.fft .inv g i).re s, F64.div (num.fft .inv g i).im s⟩

/-- R212, R219, R224: zero stuffing and padding put sample `n` of the signal at index `N - 1 + 2n` of the padded array, where the final
downsampling reads, and exact zeros elsewhere. -/
def Obligations.DownsamplingMeetsTheStuffedSamples : Prop :=
  ∀ (f : List Sample), 2 ≤ f.length →
    strided (padSymmetric f.length (zeroStuff f)) (f.length - 1) f.length = f ∧
    ∀ j, j < 4 * f.length - 3 → (∀ n, n < f.length → j ≠ f.length - 1 + 2 * n) →
      elem (padSymmetric f.length (zeroStuff f)) j = Sample.zero

/-! ### The sequencer stage by stage -/

/-- R125, R132, R131: from the CHECK stage of any accepted command, the pipeline run stage by stage, the cores answering in between, reaches
within 12 moves exactly the state that the whole-command step gives. -/
def Obligations.StagedPipelineAgreesWithCommand : Prop :=
  ∀ (i : Instr) (s : State), s.seq = .run .check → s.snap.op = .legal i → s.pend = none → s.coreResp = none →
    s.work = Work.empty → ∃ k, k ≤ 12 ∧ exec i s = .next (pipelineSteps k s)

/-- R128: a stage that does not complete the command changes nothing the host can see: no register, no buffer byte. -/
def Obligations.UnfinishedStagesAreInvisible : Prop :=
  ∀ s : State, (stageStep s).busy = true →
    s.busy = true ∧ visibleRegs (stageStep s) = visibleRegs s ∧ (stageStep s).mem = s.mem ∧ irq (stageStep s) = irq s

/-- R86, R87: a core answers only an outstanding request of its own kind, once, with the NUM value of the request's operands; a core's step
changes nothing else. -/
def Obligations.CoresAnswerTheOutstandingRequest : Prop :=
  ∀ s : State,
    (∀ dir x, s.pend = some (.fft dir x) → s.coreResp = none →
      fftCoreStep s = { s with coreResp := some ((List.range x.length).map (Config.num.fft dir x)) } ∧ convCoreStep s = s) ∧
    (∀ p q, s.pend = some (.conv p q) → s.coreResp = none →
      convCoreStep s = { s with coreResp := some ((List.range (p.length + q.length - 1)).map (Config.num.conv p q)) } ∧
      fftCoreStep s = s) ∧
    (s.pend = none ∨ s.coreResp ≠ none → fftCoreStep s = s ∧ convCoreStep s = s)

/-- R81, R84: in every coherent state the outstanding request has one of the shapes of the table: an FFT request of length N, or a
convolution of 2N - 1 by 4N - 5 or of 4N - 3 by 8N - 7 samples, with 2 <= N <= NMAX. -/
def Obligations.RequestsHaveTheirShapes : Prop :=
  ∀ s : State, Coherent s →
    (s.pend ≠ none → 2 ≤ lengthOperand s ∧ lengthOperand s ≤ Config.nmax) ∧
    (∀ dir x, s.pend = some (.fft dir x) → x.length = lengthOperand s) ∧
    ∀ p q, s.pend = some (.conv p q) →
      (p.length = 2 * lengthOperand s - 1 ∧ q.length = 4 * lengthOperand s - 5) ∨
      (p.length = 4 * lengthOperand s - 3 ∧ q.length = 8 * lengthOperand s - 7)

/-- The invariant of the machine (R24, R32, R35 to R38, R64, R81, R84, R87, R128): every step of every agent keeps it. -/
def Obligations.EveryStepKeepsCoherence : Prop :=
  ∀ s t : State, Coherent s → step s = .next t → Coherent t

/-- R290, R293: the state after reset is coherent. -/
def Obligations.ResetStateIsCoherent : Prop := Coherent State.reset

/-- R5, R86, R131, R291, R310 (spec/93 U6 and U11, log entries 7 and 12): from a coherent state no step ever refuses or faults; the run is
weakly fair, so that the host, the engine and each core eventually get the step they wait for; and a running command comes to its
completion after finitely many steps, unless the platform asserts reset first. -/
def Obligations.CoherentStatesAlwaysStep : Prop :=
  ∀ s : State, Coherent s →
    (∃ t, step s = .next t) ∧
    (∀ k, step (runFrom s k) = .next (runFrom s (k + 1))) ∧
    WeaklyFair (runFrom s) ∧
    (s.busy = true → ∃ k, (∀ j, j < k → (runFrom s j).busy = true) ∧
      (ended (runFrom s k) ∨ ((runFrom s k).busy = true ∧ nextAgent (runFrom s k) = .reset)))

/-! ### The reference semantics (R14) -/

/-- R191: the exact upsampling pipeline equals its closed form; at even indices that is the sample itself, at odd ones the alternating
sum. -/
def Obligations.ReferenceUpsamplerClosedForm : Prop :=
  ∀ (n : ℕ) (x : ℕ → ℂ) (i : ℕ), 2 ≤ n → i < 2 * n - 1 →
    Reference.interp n x i = ∑ k ∈ Finset.range n, x k * (Reference.sinc ((i : ℝ) / 2 - (k : ℝ)) : ℂ) ∧
    (∀ m, i = 2 * m → Reference.interp n x i = x m) ∧
    ∀ m, i = 2 * m + 1 → Reference.interp n x i =
      ∑ k ∈ Finset.range n, x k * (2 / (Real.pi : ℂ)) * (-1) ^ ((m : ℤ) - (k : ℤ)) / (2 * ((m : ℂ) - (k : ℂ)) + 1)

/-- R147, R148: the exact centred pipeline equals its closed form. -/
def Obligations.ReferenceCentredClosedForm : Prop :=
  ∀ (s : ℤ) (n : ℕ) (f : ℕ → ℂ) (m : ℕ), s = 1 ∨ s = -1 → 2 ≤ n → m < n →
    Reference.centred s n f m = Reference.centredValue s n f m

/-- R149: on reference values CIDFT inverts CDFT and CDFT inverts CIDFT, both preserve energy, and CDFT twice is `f[(2h - m) mod N]`: `rev(f)`
for odd N, `f[(-m) mod N]` for even N. -/
def Obligations.ReferenceCentredTransformLaws : Prop :=
  ∀ (n : ℕ) (f : ℕ → ℂ), 2 ≤ n →
    (∀ m, m < n → Reference.centred 1 n (Reference.centred (-1) n f) m = f m ∧
      Reference.centred (-1) n (Reference.centred 1 n f) m = f m) ∧
    (∀ s : ℤ, s = 1 ∨ s = -1 →
      ∑ m ∈ Finset.range n, ‖Reference.centred s n f m‖ ^ 2 = ∑ m ∈ Finset.range n, ‖f m‖ ^ 2) ∧
    ∀ m, m < n →
      Reference.centred (-1) n (Reference.centred (-1) n f) m = f ((2 * (n / 2) + n - m) % n) ∧
      (n % 2 = 1 → Reference.centred (-1) n (Reference.centred (-1) n f) m = f (n - 1 - m)) ∧
      (n % 2 = 0 → Reference.centred (-1) n (Reference.centred (-1) n f) m = f ((n - m) % n))

/-- R14, R177, R210, R221, R241, R244: on reference values the exact engine pipeline equals its closed form; so do FRFT and IFRFT, with the
order path in real arithmetic or in binary64, as the special cases and, for a GENERAL order, the engine at `ae` on `T(f)`, the reversal
and one centred transform in the order P, then F or I. The exact reduced order lies in [0, 4) and differs from the order by a multiple
of 4, and a GENERAL one reduces into [0.5, 1.5] with F and I never both 1. That the engine's `NUM.pi` stands for the real number pi, on
both sides, is the model's choice (log entry 25). -/
def Obligations.ReferenceEngineClosedForm : Prop :=
  (∀ (n : ℕ) (f : ℕ → ℂ) (a : ℝ) (i : ℕ), 2 ≤ n → i < n → Reference.engine n f a i = Reference.engineValue n f a i) ∧
  (∀ (n : ℕ) (f : ℕ → ℂ) (a : ℝ) (m : ℕ), 2 ≤ n → m < n →
    let ar := Reference.floormod4 a
    Reference.frft n f a m = Reference.transformValue n (Reference.classify ar) (Reference.reduceOrder ar) f m ∧
    Reference.ifrft n f a m = Reference.frft n f (-a) m) ∧
  (∀ (n : ℕ) (f : ℕ → ℂ) (a : Binary64) (m : ℕ), 2 ≤ n → m < n →
    let o := dispatchOrder a
    Reference.frftAtOrder n f a m = Reference.transformValue n o.cls ⟨Reference.value o.ae, o.p, o.f, o.i⟩ f m ∧
    Reference.ifrftAtOrder n f a m = Reference.frftAtOrder n f (a ^^^ 0x8000000000000000#64) m) ∧
  ∀ a : ℝ,
    let ar := Reference.floormod4 a
    let r := Reference.reduceOrder ar
    0 ≤ ar ∧ ar < 4 ∧ (∃ k : ℤ, a = ar + 4 * k) ∧
      r.ae = ar - (if r.p then 2 else 0) - (if r.f then 1 else 0) + (if r.i then 1 else 0) ∧
      ¬ (r.f = true ∧ r.i = true) ∧ (Reference.classify ar = .general → 1 / 2 ≤ r.ae ∧ r.ae ≤ 3 / 2)
end

