-- ==== Sys2Proof/Laws/Binary64.lean ====
section
/-! SUPPORT. The laws of binary64 rounding and packing: rounding is monotone, and exact on every value that has an encoding. -/

namespace Sys2Proof.Machine.F64

theorem log2_lt_self_pow (f : Nat) : f < 2 ^ (Nat.log2 f + 1) := Nat.lt_log2_self

/-- The shift that `roundBits` chooses. -/
def shiftOf (f : Nat) : Nat := Nat.log2 f - 52

/-- The rounded quotient that `roundBits` packs. -/
def roundQuot (num d : Nat) : Nat :=
  if d < 2 * (num % d) ∨ (2 * (num % d) = d ∧ num / d % 2 = 1) then num / d + 1 else num / d

theorem roundBits_eq (num den : Nat) :
    roundBits num den =
      min (shiftOf (num / den) * 2 ^ 52 + roundQuot num (den * 2 ^ shiftOf (num / den))) infBits := rfl

theorem roundBits_le_infBits (num den : Nat) : roundBits num den ≤ infBits := by
  rw [roundBits_eq]; exact Nat.min_le_right _ _

theorem roundQuot_le (num d : Nat) : roundQuot num d ≤ num / d + 1 := by
  unfold roundQuot; split_ifs <;> omega

theorem le_roundQuot (num d : Nat) : num / d ≤ roundQuot num d := by
  unfold roundQuot; split_ifs <;> omega

theorem roundQuot_mono (d : Nat) {num num' : Nat} (h : num ≤ num') : roundQuot num d ≤ roundQuot num' d := by
  have hq : num / d ≤ num' / d := Nat.div_le_div_right h
  rcases Nat.lt_or_eq_of_le hq with hlt | heq
  · exact le_trans (roundQuot_le _ _) (le_trans hlt (le_roundQuot _ _))
  · have h1 := Nat.div_add_mod num d
    have h2 := Nat.div_add_mod num' d
    rw [← heq] at h2
    have hr : num % d ≤ num' % d := by omega
    unfold roundQuot
    rw [← heq]
    split_ifs <;> omega

theorem shiftOf_mono {f f' : Nat} (h : f ≤ f') : shiftOf f ≤ shiftOf f' := by
  unfold shiftOf
  have : Nat.log2 f ≤ Nat.log2 f' := by
    rcases Nat.eq_zero_or_pos f with rfl | hf
    · simp
    · rw [Nat.le_log2 (by omega)]; exact le_trans (Nat.log2_self_le (by omega)) h
  omega

theorem quot_lt (f : Nat) : f / 2 ^ shiftOf f < 2 ^ 53 := by
  rw [Nat.div_lt_iff_lt_mul (by positivity), ← pow_add]
  refine lt_of_lt_of_le (log2_lt_self_pow f) (Nat.pow_le_pow_right (by norm_num) ?_)
  unfold shiftOf; omega

theorem le_quot (f : Nat) (h : 0 < shiftOf f) : 2 ^ 52 ≤ f / 2 ^ shiftOf f := by
  have hf : f ≠ 0 := by rintro rfl; simp [shiftOf] at h
  rw [Nat.le_div_iff_mul_le (by positivity), ← pow_add]
  refine le_trans (Nat.pow_le_pow_right (by norm_num) ?_) (Nat.log2_self_le hf)
  unfold shiftOf at h ⊢; omega

/-- Rounding is monotone. -/
theorem roundBits_mono (den : Nat) {num num' : Nat} (h : num ≤ num') : roundBits num den ≤ roundBits num' den := by
  rw [roundBits_eq, roundBits_eq]
  have hf : num / den ≤ num' / den := Nat.div_le_div_right h
  have hs := shiftOf_mono hf
  rcases Nat.lt_or_eq_of_le hs with hlt | heq
  · have h1 : roundQuot num (den * 2 ^ shiftOf (num / den)) ≤ 2 ^ 53 := by
      refine le_trans (roundQuot_le _ _) ?_
      rw [← Nat.div_div_eq_div_mul]
      exact quot_lt _
    have h2 : 2 ^ 52 ≤ roundQuot num' (den * 2 ^ shiftOf (num' / den)) := by
      refine le_trans ?_ (le_roundQuot _ _)
      rw [← Nat.div_div_eq_div_mul]
      exact le_quot _ (by omega)
    have h3 : shiftOf (num / den) * 2 ^ 52 + 2 ^ 53 ≤ shiftOf (num' / den) * 2 ^ 52 + 2 ^ 52 := by
      have : (shiftOf (num / den) + 1) * 2 ^ 52 ≤ shiftOf (num' / den) * 2 ^ 52 := Nat.mul_le_mul_right _ hlt
      omega
    omega
  · have h1 := roundQuot_mono (den * 2 ^ shiftOf (num' / den)) h
    rw [heq]
    omega

theorem roundQuot_exact (q d : Nat) (hd : 0 < d) : roundQuot (q * d) d = q := by
  unfold roundQuot
  rw [Nat.mul_mod_left, Nat.mul_div_cancel _ hd]
  simp; omega

/-- Rounding a value that has an encoding gives that encoding. -/
theorem roundBits_unitsOfBits (m : Nat) (h : m < infBits) : roundBits (unitsOfBits m) 1 = m := by
  rw [roundBits_eq, Nat.div_one, Nat.one_mul]
  unfold unitsOfBits
  have hm := Nat.div_add_mod m (2 ^ 52)
  split_ifs with hE
  · have hlt : m < 2 ^ 52 := by omega
    have hs : shiftOf m = 0 := by
      unfold shiftOf
      rcases Nat.eq_zero_or_pos m with rfl | hp
      · simp
      · have := (Nat.log2_lt (by omega : m ≠ 0)).2 hlt
        omega
    rw [hs]
    have := roundQuot_exact m 1 (by norm_num)
    rw [Nat.mul_one] at this
    rw [pow_zero, this]
    omega
  · have hF : m % 2 ^ 52 < 2 ^ 52 := Nat.mod_lt _ (by norm_num)
    have hlog : Nat.log2 ((2 ^ 52 + m % 2 ^ 52) * 2 ^ (m / 2 ^ 52 - 1)) = 52 + (m / 2 ^ 52 - 1) := by
      rw [Nat.log2_eq_iff (by positivity)]
      constructor
      · rw [pow_add]; exact Nat.mul_le_mul_right _ (by omega)
      · rw [show 52 + (m / 2 ^ 52 - 1) + 1 = 53 + (m / 2 ^ 52 - 1) by omega, pow_add]
        exact Nat.mul_lt_mul_of_pos_right (by omega) (by positivity)
    have hs : shiftOf ((2 ^ 52 + m % 2 ^ 52) * 2 ^ (m / 2 ^ 52 - 1)) = m / 2 ^ 52 - 1 := by
      unfold shiftOf; rw [hlog]; omega
    rw [hs, roundQuot_exact _ _ (by positivity)]
    have : m / 2 ^ 52 * 2 ^ 52 = (m / 2 ^ 52 - 1) * 2 ^ 52 + 2 ^ 52 := by
      have : m / 2 ^ 52 = (m / 2 ^ 52 - 1) + 1 := by omega
      omega
    omega

theorem lt_two_pow_63 {m : Nat} (h : m ≤ infBits) : m < 2 ^ 63 := by unfold infBits at h; omega

theorem toNat_pack (neg : Bool) (m : Nat) (h : m < 2 ^ 63) : (pack neg m).toNat = (if neg then 2 ^ 63 else 0) + m := by
  unfold pack
  rw [BitVec.toNat_ofNat, Nat.mod_eq_of_lt]
  split_ifs <;> omega

theorem magBits_pack (neg : Bool) (m : Nat) (h : m < 2 ^ 63) : magBits (pack neg m) = m := by
  unfold magBits
  rw [toNat_pack _ _ h]
  split_ifs <;> omega

theorem magBits_lt (a : Binary64) : magBits a < 2 ^ 63 := Nat.mod_lt _ (by norm_num)

theorem sign_eq (a : Binary64) : sign a = decide (2 ^ 63 ≤ a.toNat) := by
  have := a.isLt
  unfold sign
  rw [BitVec.getLsbD, Nat.testBit_eq_decide_div_mod_eq]
  congr 1
  apply propext
  omega

theorem sign_pack (neg : Bool) (m : Nat) (h : m < 2 ^ 63) : sign (pack neg m) = neg := by
  rw [sign_eq, toNat_pack _ _ h]
  cases neg
  · simp only [Bool.false_eq_true, if_false, decide_eq_false_iff_not]; omega
  · simp

theorem toNat_eq (a : Binary64) : a.toNat = (if sign a then 2 ^ 63 else 0) + magBits a := by
  have := a.isLt
  rw [sign_eq]; unfold magBits
  by_cases h : 2 ^ 63 ≤ a.toNat
  · rw [if_pos (decide_eq_true h)]; omega
  · rw [if_neg (by simpa using h)]; omega

/-- A value is its sign and the rest. -/
theorem pack_sign_magBits (a : Binary64) : pack (sign a) (magBits a) = a := by
  apply BitVec.eq_of_toNat_eq
  rw [toNat_pack _ _ (magBits_lt a), ← toNat_eq]

theorem unitsOfBits_lt {m m' : Nat} (h' : m' < infBits) (h : unitsOfBits m ≤ unitsOfBits m') (hm : m < infBits) : m ≤ m' := by
  have := roundBits_mono 1 h
  rwa [roundBits_unitsOfBits m hm, roundBits_unitsOfBits m' h'] at this

/-- The order of encodings of one sign is the order of the values. -/
theorem unitsOfBits_le_iff {m m' : Nat} (hm : m < infBits) (h' : m' < infBits) :
    unitsOfBits m ≤ unitsOfBits m' ↔ m ≤ m' := by
  constructor
  · intro h; exact unitsOfBits_lt h' h hm
  · intro h
    by_contra hc
    have h2 := unitsOfBits_lt (m := m') (m' := m) hm (by omega) h'
    have : m = m' := by omega
    subst this; omega

/-- A NaN that an operation produces is a NaN (U4). -/
theorem isNaN_nanOf (op : FpOp) (a b : Binary64) : isNaN (nanOf op a b) = true := by
  unfold nanOf
  split_ifs with h
  · exact h
  · decide

theorem not_isNaN_of_isFinite {a : Binary64} (h : isFinite a = true) : isNaN a = false := by
  simp only [isFinite, isNaN, decide_eq_true_eq, decide_eq_false_iff_not] at *; omega

theorem not_isInf_of_isFinite {a : Binary64} (h : isFinite a = true) : isInf a = false := by
  simp only [isFinite, isInf, decide_eq_true_eq, beq_eq_false_iff_ne] at *; omega

/-- Negation flips the sign and keeps the rest (D35). -/
theorem sign_neg (a : Binary64) : sign (neg a) = !sign a := by
  unfold sign neg
  rw [BitVec.getLsbD_xor]
  cases a.getLsbD 63 <;> decide

theorem magBits_neg (a : Binary64) : magBits (neg a) = magBits a := by
  unfold magBits neg
  rw [BitVec.toNat_xor, Nat.xor_mod_two_pow]
  have : (0x8000000000000000#64).toNat % 2 ^ 63 = 0 := by decide
  rw [this, Nat.xor_zero]

theorem neg_neg (a : Binary64) : neg (neg a) = a := by
  rw [← pack_sign_magBits (neg (neg a)), magBits_neg, magBits_neg, sign_neg, sign_neg, Bool.not_not, pack_sign_magBits]

theorem isFinite_neg (a : Binary64) : isFinite (neg a) = isFinite a := by unfold isFinite; rw [magBits_neg]
theorem isNaN_neg (a : Binary64) : isNaN (neg a) = isNaN a := by unfold isNaN; rw [magBits_neg]
theorem isInf_neg (a : Binary64) : isInf (neg a) = isInf a := by unfold isInf; rw [magBits_neg]

theorem toInt_neg (a : Binary64) : toInt (neg a) = -toInt a := by
  unfold toInt units
  rw [magBits_neg, sign_neg]
  cases sign a <;> simp

theorem magBits_of_isFinite {a : Binary64} (h : isFinite a = true) : magBits a < infBits := by
  simpa [isFinite] using h

theorem toInt_pack (n : Bool) (m : Nat) (h : m < 2 ^ 63) :
    toInt (pack n m) = if n then -(unitsOfBits m : Int) else (unitsOfBits m : Int) := by
  unfold toInt units
  rw [magBits_pack _ _ h, sign_pack _ _ h]

theorem isFinite_pack (n : Bool) (m : Nat) (h : m < infBits) : isFinite (pack n m) = true := by
  unfold isFinite
  rw [magBits_pack _ _ (lt_two_pow_63 h.le)]
  exact decide_eq_true h

theorem unitsOfBits_zero : unitsOfBits 0 = 0 := rfl

theorem unitsOfBits_inj {m m' : Nat} (hm : m < infBits) (h' : m' < infBits) (h : unitsOfBits m = unitsOfBits m') : m = m' :=
  le_antisymm ((unitsOfBits_le_iff hm h').1 h.le) ((unitsOfBits_le_iff h' hm).1 h.ge)

theorem key_lt_iff {a b : Binary64} (ha : isFinite a = true) (hb : isFinite b = true) :
    key a < key b ↔ toInt a < toInt b := by
  have ha' := magBits_of_isFinite ha
  have hb' := magBits_of_isFinite hb
  have h1 := unitsOfBits_le_iff ha' hb'
  have h2 := unitsOfBits_le_iff hb' ha'
  have h0 : 0 < infBits := by decide
  have h3 := unitsOfBits_le_iff ha' h0
  have h4 := unitsOfBits_le_iff hb' h0
  rw [unitsOfBits_zero] at h3 h4
  unfold key toInt units
  cases sign a <;> cases sign b <;> simp only [Bool.false_eq_true, if_false, if_true] <;> omega

/-- On finite values, the comparison is the comparison of the exact values (R11). -/
theorem lt_iff {a b : Binary64} (ha : isFinite a = true) (hb : isFinite b = true) :
    lt a b = true ↔ toInt a < toInt b := by
  simp [lt, not_isNaN_of_isFinite ha, not_isNaN_of_isFinite hb, key_lt_iff ha hb]

theorem le_iff {a b : Binary64} (ha : isFinite a = true) (hb : isFinite b = true) :
    le a b = true ↔ toInt a ≤ toInt b := by
  have := key_lt_iff hb ha
  simp only [le, not_isNaN_of_isFinite ha, not_isNaN_of_isFinite hb, Bool.not_false, Bool.and_self, Bool.true_and,
    decide_eq_true_eq]
  omega

theorem eq_iff {a b : Binary64} (ha : isFinite a = true) (hb : isFinite b = true) :
    eq a b = true ↔ toInt a = toInt b := by
  have h1 := key_lt_iff hb ha
  have h2 := key_lt_iff ha hb
  simp only [eq, not_isNaN_of_isFinite ha, not_isNaN_of_isFinite hb, Bool.not_false, Bool.and_self, Bool.true_and,
    decide_eq_true_eq]
  omega

/-- Two finite values with the same sign and the same exact value are the same encoding. -/
theorem eq_of_toInt_eq {a b : Binary64} (ha : isFinite a = true) (hb : isFinite b = true) (hs : sign a = sign b)
    (h : toInt a = toInt b) : a = b := by
  rw [← pack_sign_magBits a, ← pack_sign_magBits b, hs]
  congr 1
  apply unitsOfBits_inj (magBits_of_isFinite ha) (magBits_of_isFinite hb)
  unfold toInt units at h
  rw [hs] at h
  rcases Bool.eq_false_or_eq_true (sign b) with h' | h' <;> rw [h'] at h <;> simpa using h

/-- Addition of finite values: exact, then rounded once (R11). -/
theorem add_finite {a b : Binary64} (ha : isFinite a = true) (hb : isFinite b = true) :
    add a b = if toInt a + toInt b = 0 then pack (sign a && sign b) 0
      else pack (decide (toInt a + toInt b < 0)) (roundBits (toInt a + toInt b).natAbs 1) := by
  simp [add, not_isNaN_of_isFinite ha, not_isNaN_of_isFinite hb, not_isInf_of_isFinite ha, not_isInf_of_isFinite hb]

/-- A sum that lies between two finite values rounds to a finite value between them. -/
theorem add_between {a b lo hi : Binary64} (ha : isFinite a = true) (hb : isFinite b = true) (hlo : isFinite lo = true)
    (hhi : isFinite hi = true) (h1 : toInt lo ≤ toInt a + toInt b) (h2 : toInt a + toInt b ≤ toInt hi) :
    isFinite (add a b) = true ∧ toInt lo ≤ toInt (add a b) ∧ toInt (add a b) ≤ toInt hi := by
  rw [add_finite ha hb]
  have hl := magBits_of_isFinite hlo
  have hh := magBits_of_isFinite hhi
  split_ifs with h0
  · refine ⟨isFinite_pack _ _ (by decide), ?_⟩
    rw [toInt_pack _ _ (by decide), unitsOfBits_zero]
    cases (sign a && sign b) <;> simp <;> omega
  · generalize hs : toInt a + toInt b = s at *
    have hr := roundBits_le_infBits s.natAbs 1
    rcases lt_or_gt_of_ne h0 with hneg | hpos
    · have hsl : sign lo = true := by
        by_contra hc
        simp only [toInt, Bool.not_eq_true] at hc h1
        rw [hc] at h1; simp at h1; omega
      have hul : s.natAbs ≤ unitsOfBits (magBits lo) := by
        unfold toInt units at h1; rw [hsl] at h1; simp only [if_true] at h1; omega
      have hb1 : roundBits s.natAbs 1 ≤ magBits lo := by
        have := roundBits_mono 1 hul
        rwa [roundBits_unitsOfBits _ hl] at this
      have hfin : roundBits s.natAbs 1 < infBits := by omega
      refine ⟨isFinite_pack _ _ hfin, ?_⟩
      rw [toInt_pack _ _ (lt_two_pow_63 hr)]
      simp only [hneg, decide_true, if_true]
      have hu1 := (unitsOfBits_le_iff hfin hl).2 hb1
      constructor
      · unfold toInt units; rw [hsl]; simp only [if_true]; omega
      · by_cases hsh : sign hi = true
        · have hul2 : unitsOfBits (magBits hi) ≤ s.natAbs := by
            unfold toInt units at h2; rw [hsh] at h2; simp only [if_true] at h2; omega
          have hb2 : magBits hi ≤ roundBits s.natAbs 1 := by
            have := roundBits_mono 1 hul2
            rwa [roundBits_unitsOfBits _ hh] at this
          have hu2 := (unitsOfBits_le_iff hh hfin).2 hb2
          unfold toInt units; rw [hsh]; simp only [if_true]; omega
        · unfold toInt; rw [if_neg hsh]; omega
    · have hsh : sign hi = false := by
        by_contra hc
        simp only [Bool.not_eq_false] at hc
        simp only [toInt] at h2
        rw [hc] at h2; simp at h2; omega
      have huh : s.natAbs ≤ unitsOfBits (magBits hi) := by
        unfold toInt units at h2; rw [hsh] at h2; simp only [Bool.false_eq_true, if_false] at h2; omega
      have hb1 : roundBits s.natAbs 1 ≤ magBits hi := by
        have := roundBits_mono 1 huh
        rwa [roundBits_unitsOfBits _ hh] at this
      have hfin : roundBits s.natAbs 1 < infBits := by omega
      refine ⟨isFinite_pack _ _ hfin, ?_⟩
      rw [toInt_pack _ _ (lt_two_pow_63 hr)]
      have hnn : ¬ s < 0 := by omega
      simp only [hnn, decide_false, Bool.false_eq_true, if_false]
      have hu1 := (unitsOfBits_le_iff hfin hh).2 hb1
      constructor
      · by_cases hsl : sign lo = true
        · unfold toInt; rw [if_pos hsl]; omega
        · have hul2 : unitsOfBits (magBits lo) ≤ s.natAbs := by
            unfold toInt units at h1; rw [if_neg hsl] at h1; omega
          have hb2 : magBits lo ≤ roundBits s.natAbs 1 := by
            have := roundBits_mono 1 hul2
            rwa [roundBits_unitsOfBits _ hl] at this
          have hu2 := (unitsOfBits_le_iff hl hfin).2 hb2
          unfold toInt units; rw [if_neg hsl]; omega
      · unfold toInt units; rw [hsh]; simp only [Bool.false_eq_true, if_false]; omega

/-- A sum that has an encoding is exact. -/
theorem add_exact {a b c : Binary64} (ha : isFinite a = true) (hb : isFinite b = true) (hc : isFinite c = true)
    (h : toInt a + toInt b = toInt c) : isFinite (add a b) = true ∧ toInt (add a b) = toInt c := by
  obtain ⟨h1, h2, h3⟩ := add_between ha hb hc hc h.ge h.le
  exact ⟨h1, le_antisymm h3 h2⟩

theorem isFinite_zero : isFinite zero = true := by decide
theorem isFinite_half : isFinite half = true := by decide
theorem isFinite_one : isFinite one = true := by decide
theorem isFinite_oneHalf : isFinite oneHalf = true := by decide
theorem isFinite_two : isFinite two = true := by decide
theorem isFinite_three : isFinite three = true := by decide
theorem isFinite_four : isFinite four = true := by decide

/-- How many units make 0.5: the constants of the model are multiples of it. -/
@[irreducible] def halfUnits : Nat := 2 ^ 1073

theorem halfUnits_pos : 0 < halfUnits := by decide +kernel

theorem toInt_zero : toInt zero = 0 := by decide
theorem toInt_half : toInt half = halfUnits := by decide +kernel
theorem toInt_one : toInt one = 2 * halfUnits := by decide +kernel
theorem toInt_oneHalf : toInt oneHalf = 3 * halfUnits := by decide +kernel
theorem toInt_two : toInt two = 4 * halfUnits := by decide +kernel
theorem toInt_three : toInt three = 6 * halfUnits := by decide +kernel
theorem toInt_four : toInt four = 8 * halfUnits := by decide +kernel
theorem unitsPerOne_eq : unitsPerOne = 2 ^ 1074 := by unfold unitsPerOne; rw [← pow_mul]
theorem halfUnits_eq : halfUnits = 2 ^ 1073 := by unfold halfUnits; rfl
theorem fourUnits_eq : 4 * unitsPerOne = 8 * halfUnits := by decide +kernel

/-- Every multiple `k * 2^e` with `k` below 2^53 and below the infinities has an encoding. -/
theorem exists_bits {k e : Nat} (hk : k < 2 ^ 53) (he : e ≤ 2045) : ∃ m, m < infBits ∧ unitsOfBits m = k * 2 ^ e := by
  induction e generalizing k with
  | zero =>
    refine ⟨k, by unfold infBits; omega, ?_⟩
    unfold unitsOfBits
    split_ifs with h
    · omega
    · have : k / 2 ^ 52 = 1 := by omega
      rw [this]; omega
  | succ e ih =>
    by_cases h : k < 2 ^ 52
    · obtain ⟨m, h1, h2⟩ := ih (k := 2 * k) (by omega) (by omega)
      exact ⟨m, h1, by rw [h2, pow_succ]; ring⟩
    · refine ⟨(e + 2) * 2 ^ 52 + (k - 2 ^ 52), by unfold infBits; omega, ?_⟩
      unfold unitsOfBits
      have h1 : ((e + 2) * 2 ^ 52 + (k - 2 ^ 52)) / 2 ^ 52 = e + 2 := by omega
      have h2 : ((e + 2) * 2 ^ 52 + (k - 2 ^ 52)) % 2 ^ 52 = k - 2 ^ 52 := by omega
      rw [h1, h2, if_neg (by omega), show e + 2 - 1 = e + 1 by omega, show 2 ^ 52 + (k - 2 ^ 52) = k by omega]

/-- Every magnitude is `k * 2^e` with `k` below 2^53, and `k` at least 2^52 unless `e` is 0. -/
theorem units_scaled (m : Nat) :
    ∃ k e, k < 2 ^ 53 ∧ unitsOfBits m = k * 2 ^ e ∧ e = m / 2 ^ 52 - 1 ∧ (e = 0 ∨ 2 ^ 52 ≤ k) := by
  unfold unitsOfBits
  split_ifs with h
  · exact ⟨m, 0, by omega, by simp, by omega, .inl rfl⟩
  · have := Nat.mod_lt m (show 0 < 2 ^ 52 by norm_num)
    exact ⟨_, _, by omega, rfl, rfl, .inr (by omega)⟩

/-- What a finite rounded encoding stands for, and its last bit. -/
theorem units_roundBits {num den : Nat} (h : roundBits num den < infBits) :
    unitsOfBits (roundBits num den) = roundQuot num (den * 2 ^ shiftOf (num / den)) * 2 ^ shiftOf (num / den) ∧
      roundBits num den % 2 = roundQuot num (den * 2 ^ shiftOf (num / den)) % 2 := by
  have hR : roundBits num den = shiftOf (num / den) * 2 ^ 52 + roundQuot num (den * 2 ^ shiftOf (num / den)) := by
    rw [roundBits_eq] at h ⊢; omega
  rw [hR]
  have hq1 := roundQuot_le num (den * 2 ^ shiftOf (num / den))
  have hq2 := le_roundQuot num (den * 2 ^ shiftOf (num / den))
  rw [← Nat.div_div_eq_div_mul] at hq1 hq2
  have hlt := quot_lt (num / den)
  have hge := le_quot (num / den)
  generalize roundQuot num (den * 2 ^ shiftOf (num / den)) = q at *
  generalize num / den / 2 ^ shiftOf (num / den) = Q at *
  generalize shiftOf (num / den) = sh at *
  refine ⟨?_, by omega⟩
  unfold unitsOfBits
  rcases Nat.lt_or_ge q (2 ^ 53) with h53 | h53
  · rcases Nat.lt_or_ge q (2 ^ 52) with h52 | h52
    · have : sh = 0 := by
        by_contra hc; have := hge (by omega); omega
      subst this
      rw [if_pos (by omega)]; simp
    · have e1 : (sh * 2 ^ 52 + q) / 2 ^ 52 = sh + 1 := by omega
      have e2 : (sh * 2 ^ 52 + q) % 2 ^ 52 = q - 2 ^ 52 := by omega
      rw [e1, e2, if_neg (by omega), show sh + 1 - 1 = sh by omega, show 2 ^ 52 + (q - 2 ^ 52) = q by omega]
  · have hq : q = 2 ^ 53 := by omega
    subst hq
    have e1 : (sh * 2 ^ 52 + 2 ^ 53) / 2 ^ 52 = sh + 2 := by omega
    have e2 : (sh * 2 ^ 52 + 2 ^ 53) % 2 ^ 52 = 0 := by omega
    rw [e1, e2, if_neg (by omega), show sh + 2 - 1 = sh + 1 by omega, Nat.add_zero, pow_succ 2 sh]
    ring

theorem roundBits_lt_two_pow_63 (num den : Nat) : roundBits num den < 2 ^ 63 := lt_two_pow_63 (roundBits_le_infBits num den)

theorem mul_finite {a b : Binary64} (ha : isFinite a = true) (hb : isFinite b = true) :
    mul a b = pack (sign a != sign b) (roundBits (units a * units b) unitsPerOne) := by
  simp [mul, not_isNaN_of_isFinite ha, not_isNaN_of_isFinite hb, not_isInf_of_isFinite ha, not_isInf_of_isFinite hb]

/-- A quotient of finite operands: rounded once, an infinity of a nonzero operand over a zero, a NaN of two zeros. -/
theorem div_finite {a b : Binary64} (ha : isFinite a = true) (hb : isFinite b = true) :
    div a b =
      if units b = 0 then (if units a = 0 then nanOf .div a b else pack (sign a != sign b) infBits)
      else pack (sign a != sign b) (roundBits (units a * unitsPerOne) (units b)) := by
  simp [div, not_isNaN_of_isFinite ha, not_isNaN_of_isFinite hb, not_isInf_of_isFinite ha, not_isInf_of_isFinite hb]

theorem magBits_of_isInf {a : Binary64} (h : isInf a = true) : magBits a = infBits := by simpa [isInf] using h

theorem not_isNaN_of_isInf {a : Binary64} (h : isInf a = true) : isNaN a = false := by simp [isNaN, magBits_of_isInf h]

theorem units_of_isInf {a : Binary64} (h : isInf a = true) : units a ≠ 0 := by
  rw [units, magBits_of_isInf h, unitsOfBits, infBits, if_neg (by norm_num)]
  exact (Nat.mul_pos (by norm_num) (by positivity)).ne'

theorem isInf_pack (neg : Bool) : isInf (pack neg infBits) = true := by cases neg <;> decide

end Sys2Proof.Machine.F64
end

