-- ==== Sys2Proof/Laws/Memory.lean ====
section
/-! SUPPORT. The laws of the buffers: read after write, what a write leaves alone, and that every store keeps the canonical form. -/

namespace Sys2Proof.Machine

theorem Memory.read_set (m : Memory) (a x : Nat) (b : BitVec 8) :
    Memory.read (m.set a b) x = if x = a then some b else m.read x := by
  induction m with
  | nil => simp [Memory.set, Memory.read]
  | cons c r ih =>
    obtain ⟨y, v⟩ := c
    by_cases h1 : a < y
    · simp [Memory.set, Memory.read, h1]
    · by_cases h2 : a = y
      · subst h2
        by_cases hx : x = a <;> simp [Memory.set, Memory.read, hx]
      · by_cases hx : x = y
        · subst hx
          have : x ≠ a := fun h => h2 h.symm
          simp [Memory.set, Memory.read, h1, h2, this]
        · simp [Memory.set, Memory.read, h1, h2, hx, ih]

theorem Memory.read_writeWord (m : Memory) (a x : Nat) (w : BitVec 64) :
    Memory.read (m.writeWord a w) x = if a ≤ x ∧ x < a + 8 then some (byteOf w (x - a)) else m.read x := by
  have h8 : List.range 8 = [0, 1, 2, 3, 4, 5, 6, 7] := rfl
  simp only [Memory.writeWord, h8, List.foldl_cons, List.foldl_nil, Memory.read_set]
  by_cases h : a ≤ x ∧ x < a + 8
  · obtain ⟨k, rfl⟩ : ∃ k, x = a + k := ⟨x - a, by omega⟩
    have hk : k < 8 := by omega
    rw [if_pos h, Nat.add_sub_cancel_left]
    interval_cases k <;> simp
  · rw [if_neg h]
    repeat rw [if_neg (by omega)]

theorem wordOfBytes_byteOf (w : BitVec 64) :
    wordOfBytes (byteOf w 0) (byteOf w 1) (byteOf w 2) (byteOf w 3) (byteOf w 4) (byteOf w 5) (byteOf w 6) (byteOf w 7) = w := by
  apply BitVec.eq_of_getLsbD_eq
  intro i hi
  obtain ⟨j, k, rfl, hk⟩ : ∃ j k, i = 8 * j + k ∧ k < 8 := ⟨i / 8, i % 8, by omega, by omega⟩
  have hj : j < 8 := by omega
  simp only [wordOfBytes, byteOf, BitVec.getLsbD_append, BitVec.getLsbD_extractLsb']
  interval_cases j <;> interval_cases k <;> simp

theorem Memory.readWord_of_bytes (m : Memory) (a : Nat) (w : BitVec 64)
    (h : ∀ k, k < 8 → m.read (a + k) = some (byteOf w k)) : m.readWord a = some w := by
  have h0 : m.read a = some (byteOf w 0) := h 0 (by omega)
  simp only [Memory.readWord, h0, h 1 (by omega), h 2 (by omega), h 3 (by omega), h 4 (by omega), h 5 (by omega),
    h 6 (by omega), h 7 (by omega), wordOfBytes_byteOf]

theorem Memory.readWord_congr (m m' : Memory) (a : Nat) (h : ∀ k, k < 8 → m.read (a + k) = m'.read (a + k)) :
    m.readWord a = m'.readWord a := by
  have h0 : m.read a = m'.read a := h 0 (by omega)
  simp only [Memory.readWord, h0, h 1 (by omega), h 2 (by omega), h 3 (by omega), h 4 (by omega), h 5 (by omega),
    h 6 (by omega), h 7 (by omega)]

theorem Memory.readWord_writeWord_same (m : Memory) (a : Nat) (w : BitVec 64) :
    Memory.readWord (m.writeWord a w) a = some w := by
  apply Memory.readWord_of_bytes
  intro k hk
  rw [Memory.read_writeWord, if_pos (by omega), Nat.add_sub_cancel_left]

theorem Memory.readWord_writeWord_disjoint (m : Memory) (a b : Nat) (w : BitVec 64) (h : b + 8 ≤ a ∨ a + 8 ≤ b) :
    Memory.readWord (m.writeWord a w) b = m.readWord b := by
  apply Memory.readWord_congr
  intro k hk
  rw [Memory.read_writeWord, if_neg (by omega)]

theorem Memory.read_writeSample_outside (m : Memory) (a x : Nat) (z : Sample) (h : x < a ∨ a + 16 ≤ x) :
    Memory.read (m.writeSample a z) x = m.read x := by
  rw [Memory.writeSample, Memory.read_writeWord, if_neg (by omega), Memory.read_writeWord, if_neg (by omega)]

/-- A store of consecutive samples leaves every byte outside them alone. -/
theorem Memory.read_writeSamples_outside (zs : List Sample) :
    ∀ (m : Memory) (a x : Nat), x < a ∨ a + 16 * zs.length ≤ x →
      Memory.read (m.writeSamples a zs) x = m.read x := by
  induction zs with
  | nil => intro m a x _; rfl
  | cons z r ih =>
    intro m a x h
    simp only [List.length_cons] at h
    rw [Memory.writeSamples, ih _ _ _ (by omega), Memory.read_writeSample_outside _ _ _ _ (by omega)]

theorem Memory.readWord_writeSamples_outside (zs : List Sample) (m : Memory) (a b : Nat)
    (h : b + 8 ≤ a ∨ a + 16 * zs.length ≤ b) : Memory.readWord (m.writeSamples a zs) b = m.readWord b := by
  apply Memory.readWord_congr
  intro k hk
  exact Memory.read_writeSamples_outside zs m a (b + k) (by omega)

/-- After a store of consecutive samples, sample `e` reads back, both words. -/
theorem Memory.readWord_writeSamples (zs : List Sample) :
    ∀ (m : Memory) (a e : Nat), e < zs.length →
      Memory.readWord (m.writeSamples a zs) (a + 16 * e) = some (elem zs e).re ∧
      Memory.readWord (m.writeSamples a zs) (a + 16 * e + 8) = some (elem zs e).im := by
  induction zs with
  | nil => intro m a e h; simp at h
  | cons z r ih =>
    intro m a e h
    rw [Memory.writeSamples]
    cases e with
    | zero =>
      have h1 := Memory.readWord_writeSamples_outside r (m.writeSample a z) (a + 16) a (by omega)
      have h2 := Memory.readWord_writeSamples_outside r (m.writeSample a z) (a + 16) (a + 8) (by omega)
      simp only [Nat.mul_zero, Nat.add_zero, h1, h2, elem, List.getD_cons_zero]
      rw [Memory.writeSample, Memory.readWord_writeWord_same,
        Memory.readWord_writeWord_disjoint _ _ _ _ (by omega), Memory.readWord_writeWord_same]
      exact ⟨rfl, rfl⟩
    | succ e =>
      have hr := ih (m.writeSample a z) (a + 16) e (by simpa using h)
      have : a + 16 * (e + 1) = a + 16 + 16 * e := by omega
      rw [this]
      simpa only [elem, List.getD_cons_succ] using hr

/-- Every store keeps the canonical form. -/
theorem Memory.wf_set (m : Memory) (a : Nat) (b : BitVec 8) (h : m.wf = true) : Memory.wf (m.set a b) = true := by
  induction m with
  | nil => rfl
  | cons c r ih =>
    obtain ⟨y, v⟩ := c
    by_cases h1 : a < y
    · simp [Memory.set, Memory.wf, h1, h]
    · by_cases h2 : a = y
      · subst h2
        cases r with
        | nil => simp [Memory.set, Memory.wf]
        | cons d r' => simpa [Memory.set, Memory.wf] using h
      · have hlt : y < a := by omega
        cases r with
        | nil => simp [Memory.set, Memory.wf, h1, h2, hlt]
        | cons d r' =>
          obtain ⟨z, u⟩ := d
          simp only [Memory.wf, Bool.and_eq_true, decide_eq_true_eq] at h
          have hr := ih h.2
          simp only [Memory.set, h1, h2, if_false] at hr ⊢
          split_ifs at hr ⊢ <;> simp_all [Memory.wf]

theorem Memory.wf_writeWord (m : Memory) (a : Nat) (w : BitVec 64) (h : m.wf = true) :
    Memory.wf (m.writeWord a w) = true := by
  rw [Memory.writeWord]
  generalize List.range 8 = l
  induction l generalizing m with
  | nil => exact h
  | cons k l ih => exact ih _ (Memory.wf_set _ _ _ h)

theorem Memory.wf_writeSample (m : Memory) (a : Nat) (z : Sample) (h : m.wf = true) :
    Memory.wf (m.writeSample a z) = true :=
  Memory.wf_writeWord _ _ _ (Memory.wf_writeWord _ _ _ h)

theorem Memory.wf_writeSamples (zs : List Sample) :
    ∀ (m : Memory) (a : Nat), m.wf = true → Memory.wf (m.writeSamples a zs) = true := by
  induction zs with
  | nil => intro m a h; exact h
  | cons z r ih => intro m a h; exact ih _ _ (Memory.wf_writeSample _ _ _ h)

/-- A store lists no address but the one stored to. -/
theorem Memory.mem_set (m : Memory) (a : Nat) (b : BitVec 8) (c : Host.Cell) (h : c ∈ m.set a b) : c ∈ m ∨ c.1 = a := by
  induction m with
  | nil => simp [Memory.set] at h; exact .inr (by rw [h])
  | cons d r ih =>
    obtain ⟨y, v⟩ := d
    simp only [Memory.set] at h
    split_ifs at h with h1 h2
    · rcases List.mem_cons.1 h with h | h
      · exact .inr (by rw [h])
      · exact .inl h
    · rcases List.mem_cons.1 h with h | h
      · exact .inr (by rw [h])
      · exact .inl (List.mem_cons_of_mem _ h)
    · rcases List.mem_cons.1 h with h | h
      · exact .inl (h ▸ List.mem_cons_self)
      · rcases ih h with h | h
        · exact .inl (List.mem_cons_of_mem _ h)
        · exact .inr h

theorem Memory.mem_writeWord (m : Memory) (a : Nat) (w : BitVec 64) (c : Host.Cell) (h : c ∈ m.writeWord a w) :
    c ∈ m ∨ (a ≤ c.1 ∧ c.1 < a + 8) := by
  have key : ∀ (l : List Nat) (m : Memory), (∀ k ∈ l, k < 8) →
      c ∈ l.foldl (fun m k => Memory.set m (a + k) (byteOf w k)) m → c ∈ m ∨ (a ≤ c.1 ∧ c.1 < a + 8) := by
    intro l
    induction l with
    | nil => intro m _ h; exact .inl h
    | cons k l ih =>
      intro m hl h
      rcases ih _ (fun j hj => hl j (List.mem_cons_of_mem _ hj)) h with h | h
      · rcases Memory.mem_set _ _ _ _ h with h | h
        · exact .inl h
        · have := hl k List.mem_cons_self
          exact .inr (by omega)
      · exact .inr h
  exact key _ m (fun k hk => List.mem_range.1 hk) h

theorem Memory.mem_writeSamples (zs : List Sample) :
    ∀ (m : Memory) (a : Nat) (c : Host.Cell), c ∈ m.writeSamples a zs → c ∈ m ∨ (a ≤ c.1 ∧ c.1 < a + 16 * zs.length) := by
  induction zs with
  | nil => intro m a c h; exact .inl h
  | cons z r ih =>
    intro m a c h
    simp only [List.length_cons]
    rcases ih _ _ _ h with h | h
    · rcases Memory.mem_writeWord _ _ _ _ h with h | h
      · rcases Memory.mem_writeWord _ _ _ _ h with h | h
        · exact .inl h
        · exact .inr (by omega)
      · exact .inr (by omega)
    · exact .inr (by omega)

end Sys2Proof.Machine
end

