-- ==== Sys2Proof/Laws/Sequences.lean ====
section
/-! SUPPORT. The length of every sequence of the pipeline (R38, R84), and the elements of the pure data movements. -/

namespace Sys2Proof.Machine

@[simp] theorem length_fftResponse (num : Numerics) (dir : Dir) (x : List Sample) :
    (fftResponse num dir x).length = x.length := by simp [fftResponse]

@[simp] theorem length_convResponse (num : Numerics) (p q : List Sample) :
    (convResponse num p q).length = p.length + q.length - 1 := by simp [convResponse]

@[simp] theorem length_gather (f : List Sample) : (gather f).length = f.length := by simp [gather]

@[simp] theorem length_scatter (g : List Sample) : (scatter g).length = g.length := by simp [scatter]

@[simp] theorem length_centredFinish (num : Numerics) (g : List Sample) : (centredFinish num g).length = g.length := by
  simp [centredFinish]

@[simp] theorem length_cdft (num : Numerics) (f : List Sample) : (cdft num f).length = f.length := by simp [cdft]

@[simp] theorem length_cidft (num : Numerics) (f : List Sample) : (cidft num f).length = f.length := by simp [cidft]

@[simp] theorem length_reduceSignal (num : Numerics) (o : OrderRecord) (f : List Sample) :
    (reduceSignal num o f).length = f.length := by
  unfold reduceSignal
  cases o.p <;> cases o.f <;> cases o.i <;> simp

@[simp] theorem length_zeroStuff (x : List Sample) : (zeroStuff x).length = 2 * x.length - 1 := by simp [zeroStuff]

@[simp] theorem length_sincKernel (num : Numerics) (n : Nat) : (sincKernel num n).length = 4 * n - 5 := by simp [sincKernel]

theorem length_slice (x : List Sample) (s m : Nat) : (slice x s m).length = min m (x.length - s) := by simp [slice]

@[simp] theorem length_strided (x : List Sample) (s m : Nat) : (strided x s m).length = m := by simp [strided]

@[simp] theorem length_hadamard (x y : List Sample) : (hadamard x y).length = min x.length y.length := by simp [hadamard]

@[simp] theorem length_premultiply (x y : List Sample) : (premultiply x y).length = min x.length y.length := by
  simp [premultiply]

/-- The window of the interpolation response is inside it (R196). -/
theorem length_interpTruncate {n : Nat} {w : List Sample} (hn : 2 ≤ n) (hw : w.length = 6 * n - 7) :
    (interpTruncate n w).length = 2 * n - 1 := by
  rw [interpTruncate, length_slice, hw]; omega

theorem length_sincinterp {num : Numerics} {x : List Sample} (h : 2 ≤ x.length) :
    (sincinterp num x).length = 2 * x.length - 1 := by
  apply length_interpTruncate h
  simp; omega

theorem length_padSymmetric {n : Nat} {u : List Sample} (hn : 2 ≤ n) (hu : u.length = 2 * n - 1) :
    (padSymmetric n u).length = 4 * n - 3 := by
  simp [padSymmetric, zeros, hu]; omega

@[simp] theorem length_makeChirp1 (num : Numerics) (n : Nat) (t : Binary64) : (makeChirp1 num n t).length = 4 * n - 3 := by
  simp [makeChirp1]

@[simp] theorem length_makeChirp2 (num : Numerics) (n : Nat) (t : Binary64) : (makeChirp2 num n t).length = 8 * n - 7 := by
  simp [makeChirp2]

@[simp] theorem length_normalise (num : Numerics) (a : Binary64) (d : List Sample) : (normalise num a d).length = d.length := by
  simp [normalise]

@[simp] theorem length_chirpFinish (num : Numerics) (n : Nat) (a : Binary64) (c w : List Sample) :
    (chirpFinish num n a c w).length = n := by simp [chirpFinish]

@[simp] theorem length_engineBody (num : Numerics) (f : List Sample) (a : Binary64) :
    (engineBody num f a).length = f.length := by simp [engineBody]

/-- Every successful transform returns as many samples as it was given (R240). -/
theorem length_transformResult {num : Numerics} {o : OrderRecord} {f r : List Sample}
    (h : transformResult num o f = .ok r) : r.length = f.length := by
  unfold transformResult engineRun at h
  cases ho : o.cls <;> rw [ho] at h <;> simp only at h
  case general =>
    split_ifs at h
    injection h with h; subst h; simp
  all_goals (injection h with h; subst h; simp)

@[simp] theorem length_xSamples (m : Memory) (d n : Nat) : (xSamples m d n).length = n := by simp [xSamples]

theorem elem_map_range (g : Nat → Sample) {n j : Nat} (h : j < n) : elem ((List.range n).map g) j = g j := by
  simp [elem, List.getD, List.getElem?_map, List.getElem?_range h]

theorem elem_xSamples (m : Memory) (d : Nat) {n e : Nat} (h : e < n) : elem (xSamples m d n) e = xSample m d e :=
  elem_map_range _ h

theorem elem_gather (f : List Sample) {i : Nat} (h : i < f.length) : elem (gather f) i = elem f (shiftIndex f.length i) :=
  elem_map_range _ h

theorem elem_scatter (g : List Sample) {j : Nat} (h : j < g.length) : elem (scatter g) j = elem g (unshiftIndex g.length j) :=
  elem_map_range _ h

theorem elem_strided (x : List Sample) (s : Nat) {m n : Nat} (h : n < m) : elem (strided x s m) n = elem x (s + 2 * n) :=
  elem_map_range _ h

theorem elem_zeroStuff (x : List Sample) {j : Nat} (h : j < 2 * x.length - 1) :
    elem (zeroStuff x) j = if j % 2 = 0 then elem x (j / 2) else Sample.zero :=
  elem_map_range _ h

theorem elem_eq_getElem (x : List Sample) {j : Nat} (h : j < x.length) : elem x j = x[j] := by
  simp [elem, List.getD, h]

theorem elem_map (g : Sample → Sample) (x : List Sample) {j : Nat} (h : j < x.length) : elem (x.map g) j = g (elem x j) := by
  rw [elem_eq_getElem _ (by simpa using h), elem_eq_getElem _ h, List.getElem_map]

theorem elem_slice (x : List Sample) {s m j : Nat} (h : j < m) (hx : s + m ≤ x.length) : elem (slice x s m) j = elem x (s + j) := by
  rw [elem_eq_getElem _ (by rw [length_slice]; omega), elem_eq_getElem _ (by omega)]
  simp [slice]

theorem elem_hadamard {x y : List Sample} {j : Nat} (hx : j < x.length) (hy : j < y.length) :
    elem (hadamard x y) j = cmul (elem x j) (elem y j) := by
  rw [elem_eq_getElem _ (by simp; omega), elem_eq_getElem _ hx, elem_eq_getElem _ hy]
  simp [hadamard]

theorem elem_convResponse (num : Numerics) (p q : List Sample) {j : Nat} (h : j < p.length + q.length - 1) :
    elem (convResponse num p q) j = num.conv p q j := elem_map_range _ h

theorem elem_fftResponse (num : Numerics) (dir : Dir) (x : List Sample) {j : Nat} (h : j < x.length) :
    elem (fftResponse num dir x) j = num.fft dir x j := elem_map_range _ h

/-- Padding keeps the signal at offset `n - 1` and is zero elsewhere (R212). -/
theorem elem_padSymmetric {n : Nat} {u : List Sample} (hn : 2 ≤ n) (hu : u.length = 2 * n - 1) (j : Nat) :
    elem (padSymmetric n u) j = if n - 1 ≤ j ∧ j < 3 * n - 2 then elem u (j - (n - 1)) else Sample.zero := by
  unfold padSymmetric elem zeros
  split_ifs with h
  · rw [List.getD_append _ _ _ _ (by simp; omega), List.getD_append_right _ _ _ _ (by simp; omega), List.length_replicate]
  · by_cases h1 : j < n - 1
    · rw [List.getD_append _ _ _ _ (by simp; omega), List.getD_append _ _ _ _ (by simp; omega)]
      simp [h1]
    · rw [List.getD_append_right _ _ _ _ (by simp; omega), List.getD_eq_getElem?_getD, List.getElem?_replicate]
      split_ifs <;> rfl

theorem elem_reverse (x : List Sample) {i : Nat} (h : i < x.length) : elem x.reverse i = elem x (x.length - 1 - i) := by
  rw [elem_eq_getElem _ (by simpa using h), elem_eq_getElem _ (by omega), List.getElem_reverse]

/-- Two sequences of one length with the same elements are one. -/
theorem ext_elem {x y : List Sample} (hl : x.length = y.length) (h : ∀ j, j < x.length → elem x j = elem y j) : x = y := by
  apply List.ext_getElem hl
  intro j h1 h2
  rw [← elem_eq_getElem x h1, ← elem_eq_getElem y h2]
  exact h j h1

/-- The centering shift maps into range and its inverse undoes it (R145). -/
theorem shiftIndex_lt {n : Nat} (h : 0 < n) (i : Nat) : shiftIndex n i < n := Nat.mod_lt _ h

theorem unshiftIndex_lt {n : Nat} (h : 0 < n) (i : Nat) : unshiftIndex n i < n := Nat.mod_lt _ h

theorem unshift_shift {n i : Nat} (h : i < n) : unshiftIndex n (shiftIndex n i) = i := by
  unfold unshiftIndex shiftIndex
  rw [Nat.mod_add_mod]
  have : i + n / 2 + (n - n / 2) = i + n := by omega
  rw [this, Nat.add_mod_right, Nat.mod_eq_of_lt h]

theorem shift_unshift {n j : Nat} (h : j < n) : shiftIndex n (unshiftIndex n j) = j := by
  unfold unshiftIndex shiftIndex
  rw [Nat.mod_add_mod]
  have : j + (n - n / 2) + n / 2 = j + n := by omega
  rw [this, Nat.add_mod_right, Nat.mod_eq_of_lt h]

end Sys2Proof.Machine
end

