-- ==== Sys2Proof/Laws/State.lean ====
section
/-! SUPPORT. For each update of the state, what every field is after it: no later proof unfolds a record update. -/

namespace Sys2Proof.Machine

@[simp] theorem dropWrite_ie (s : State) : (dropWrite s).ie = s.ie := rfl
@[simp] theorem dropWrite_busy (s : State) : (dropWrite s).busy = s.busy := rfl
@[simp] theorem dropWrite_done (s : State) : (dropWrite s).done = s.done := rfl
@[simp] theorem dropWrite_ovr (s : State) : (dropWrite s).ovr = true := rfl
@[simp] theorem dropWrite_errcode (s : State) : (dropWrite s).errcode = s.errcode := rfl
@[simp] theorem dropWrite_lastop (s : State) : (dropWrite s).lastop = s.lastop := rfl
@[simp] theorem dropWrite_cmd (s : State) : (dropWrite s).cmd = s.cmd := rfl
@[simp] theorem dropWrite_len (s : State) : (dropWrite s).len = s.len := rfl
@[simp] theorem dropWrite_order (s : State) : (dropWrite s).order = s.order := rfl
@[simp] theorem dropWrite_orderRed (s : State) : (dropWrite s).orderRed = s.orderRed := rfl
@[simp] theorem dropWrite_orderEng (s : State) : (dropWrite s).orderEng = s.orderEng := rfl
@[simp] theorem dropWrite_path (s : State) : (dropWrite s).path = s.path := rfl
@[simp] theorem dropWrite_outlen (s : State) : (dropWrite s).outlen = s.outlen := rfl
@[simp] theorem dropWrite_seq (s : State) : (dropWrite s).seq = s.seq := rfl
@[simp] theorem dropWrite_snap (s : State) : (dropWrite s).snap = s.snap := rfl
@[simp] theorem dropWrite_pend (s : State) : (dropWrite s).pend = s.pend := rfl
@[simp] theorem dropWrite_coreResp (s : State) : (dropWrite s).coreResp = s.coreResp := rfl
@[simp] theorem dropWrite_work (s : State) : (dropWrite s).work = s.work := rfl
@[simp] theorem dropWrite_mem (s : State) : (dropWrite s).mem = s.mem := rfl
@[simp] theorem dropWrite_draws (s : State) : (dropWrite s).draws = s.draws := rfl
@[simp] theorem dropWrite_hostQueue (s : State) : (dropWrite s).hostQueue = s.hostQueue := rfl
@[simp] theorem dropWrite_responses (s : State) : (dropWrite s).responses = s.responses := rfl
@[simp] theorem dropWrite_hostFaults (s : State) : (dropWrite s).hostFaults = s.hostFaults := rfl
@[simp] theorem dropWrite_agenda (s : State) : (dropWrite s).agenda = s.agenda := rfl
@[simp] theorem dropWrite_ticks (s : State) : (dropWrite s).ticks = s.ticks := rfl

@[simp] theorem accept_ie (w : BitVec 64) (s : State) : (accept w s).ie = s.ie := rfl
@[simp] theorem accept_busy (w : BitVec 64) (s : State) : (accept w s).busy = true := rfl
@[simp] theorem accept_done (w : BitVec 64) (s : State) : (accept w s).done = false := rfl
@[simp] theorem accept_ovr (w : BitVec 64) (s : State) : (accept w s).ovr = s.ovr := rfl
@[simp] theorem accept_errcode (w : BitVec 64) (s : State) : (accept w s).errcode = .none := rfl
@[simp] theorem accept_lastop (w : BitVec 64) (s : State) : (accept w s).lastop = opField w := rfl
@[simp] theorem accept_cmd (w : BitVec 64) (s : State) : (accept w s).cmd = w := rfl
@[simp] theorem accept_len (w : BitVec 64) (s : State) : (accept w s).len = s.len := rfl
@[simp] theorem accept_order (w : BitVec 64) (s : State) : (accept w s).order = s.order := rfl
@[simp] theorem accept_orderRed (w : BitVec 64) (s : State) : (accept w s).orderRed = s.orderRed := rfl
@[simp] theorem accept_orderEng (w : BitVec 64) (s : State) : (accept w s).orderEng = s.orderEng := rfl
@[simp] theorem accept_path (w : BitVec 64) (s : State) : (accept w s).path = s.path := rfl
@[simp] theorem accept_outlen (w : BitVec 64) (s : State) : (accept w s).outlen = s.outlen := rfl
@[simp] theorem accept_seq (w : BitVec 64) (s : State) : (accept w s).seq = .run .check := rfl
@[simp] theorem accept_snap (w : BitVec 64) (s : State) : (accept w s).snap = ⟨opOfWord w, s.len, s.order⟩ := rfl
@[simp] theorem accept_pend (w : BitVec 64) (s : State) : (accept w s).pend = s.pend := rfl
@[simp] theorem accept_coreResp (w : BitVec 64) (s : State) : (accept w s).coreResp = s.coreResp := rfl
@[simp] theorem accept_work (w : BitVec 64) (s : State) : (accept w s).work = Work.empty := rfl
@[simp] theorem accept_mem (w : BitVec 64) (s : State) : (accept w s).mem = s.mem := rfl
@[simp] theorem accept_draws (w : BitVec 64) (s : State) : (accept w s).draws = s.draws := rfl
@[simp] theorem accept_hostQueue (w : BitVec 64) (s : State) : (accept w s).hostQueue = s.hostQueue := rfl
@[simp] theorem accept_responses (w : BitVec 64) (s : State) : (accept w s).responses = s.responses := rfl
@[simp] theorem accept_hostFaults (w : BitVec 64) (s : State) : (accept w s).hostFaults = s.hostFaults := rfl
@[simp] theorem accept_agenda (w : BitVec 64) (s : State) : (accept w s).agenda = s.agenda := rfl
@[simp] theorem accept_ticks (w : BitVec 64) (s : State) : (accept w s).ticks = s.ticks := rfl

@[simp] theorem writeOrder_ie (o : OrderRecord) (s : State) : (writeOrder o s).ie = s.ie := rfl
@[simp] theorem writeOrder_busy (o : OrderRecord) (s : State) : (writeOrder o s).busy = s.busy := rfl
@[simp] theorem writeOrder_done (o : OrderRecord) (s : State) : (writeOrder o s).done = s.done := rfl
@[simp] theorem writeOrder_ovr (o : OrderRecord) (s : State) : (writeOrder o s).ovr = s.ovr := rfl
@[simp] theorem writeOrder_errcode (o : OrderRecord) (s : State) : (writeOrder o s).errcode = s.errcode := rfl
@[simp] theorem writeOrder_lastop (o : OrderRecord) (s : State) : (writeOrder o s).lastop = s.lastop := rfl
@[simp] theorem writeOrder_cmd (o : OrderRecord) (s : State) : (writeOrder o s).cmd = s.cmd := rfl
@[simp] theorem writeOrder_len (o : OrderRecord) (s : State) : (writeOrder o s).len = s.len := rfl
@[simp] theorem writeOrder_order (o : OrderRecord) (s : State) : (writeOrder o s).order = s.order := rfl
@[simp] theorem writeOrder_orderRed (o : OrderRecord) (s : State) : (writeOrder o s).orderRed = o.ar := rfl
@[simp] theorem writeOrder_orderEng (o : OrderRecord) (s : State) : (writeOrder o s).orderEng = o.ae := rfl
@[simp] theorem writeOrder_path (o : OrderRecord) (s : State) : (writeOrder o s).path = .dispatched o.cls o.p o.f o.i := rfl
@[simp] theorem writeOrder_outlen (o : OrderRecord) (s : State) : (writeOrder o s).outlen = s.outlen := rfl
@[simp] theorem writeOrder_seq (o : OrderRecord) (s : State) : (writeOrder o s).seq = s.seq := rfl
@[simp] theorem writeOrder_snap (o : OrderRecord) (s : State) : (writeOrder o s).snap = s.snap := rfl
@[simp] theorem writeOrder_pend (o : OrderRecord) (s : State) : (writeOrder o s).pend = s.pend := rfl
@[simp] theorem writeOrder_coreResp (o : OrderRecord) (s : State) : (writeOrder o s).coreResp = s.coreResp := rfl
@[simp] theorem writeOrder_work (o : OrderRecord) (s : State) : (writeOrder o s).work = s.work := rfl
@[simp] theorem writeOrder_mem (o : OrderRecord) (s : State) : (writeOrder o s).mem = s.mem := rfl
@[simp] theorem writeOrder_draws (o : OrderRecord) (s : State) : (writeOrder o s).draws = s.draws := rfl
@[simp] theorem writeOrder_hostQueue (o : OrderRecord) (s : State) : (writeOrder o s).hostQueue = s.hostQueue := rfl
@[simp] theorem writeOrder_responses (o : OrderRecord) (s : State) : (writeOrder o s).responses = s.responses := rfl
@[simp] theorem writeOrder_hostFaults (o : OrderRecord) (s : State) : (writeOrder o s).hostFaults = s.hostFaults := rfl
@[simp] theorem writeOrder_agenda (o : OrderRecord) (s : State) : (writeOrder o s).agenda = s.agenda := rfl
@[simp] theorem writeOrder_ticks (o : OrderRecord) (s : State) : (writeOrder o s).ticks = s.ticks := rfl

@[simp] theorem goIdle_ie (s : State) : (goIdle s).ie = s.ie := rfl
@[simp] theorem goIdle_busy (s : State) : (goIdle s).busy = false := rfl
@[simp] theorem goIdle_done (s : State) : (goIdle s).done = true := rfl
@[simp] theorem goIdle_ovr (s : State) : (goIdle s).ovr = s.ovr := rfl
@[simp] theorem goIdle_errcode (s : State) : (goIdle s).errcode = s.errcode := rfl
@[simp] theorem goIdle_lastop (s : State) : (goIdle s).lastop = s.lastop := rfl
@[simp] theorem goIdle_cmd (s : State) : (goIdle s).cmd = s.cmd := rfl
@[simp] theorem goIdle_len (s : State) : (goIdle s).len = s.len := rfl
@[simp] theorem goIdle_order (s : State) : (goIdle s).order = s.order := rfl
@[simp] theorem goIdle_orderRed (s : State) : (goIdle s).orderRed = s.orderRed := rfl
@[simp] theorem goIdle_orderEng (s : State) : (goIdle s).orderEng = s.orderEng := rfl
@[simp] theorem goIdle_path (s : State) : (goIdle s).path = s.path := rfl
@[simp] theorem goIdle_outlen (s : State) : (goIdle s).outlen = s.outlen := rfl
@[simp] theorem goIdle_seq (s : State) : (goIdle s).seq = .idle := rfl
@[simp] theorem goIdle_snap (s : State) : (goIdle s).snap = s.snap := rfl
@[simp] theorem goIdle_pend (s : State) : (goIdle s).pend = none := rfl
@[simp] theorem goIdle_coreResp (s : State) : (goIdle s).coreResp = none := rfl
@[simp] theorem goIdle_work (s : State) : (goIdle s).work = Work.empty := rfl
@[simp] theorem goIdle_mem (s : State) : (goIdle s).mem = s.mem := rfl
@[simp] theorem goIdle_draws (s : State) : (goIdle s).draws = s.draws := rfl
@[simp] theorem goIdle_hostQueue (s : State) : (goIdle s).hostQueue = s.hostQueue := rfl
@[simp] theorem goIdle_responses (s : State) : (goIdle s).responses = s.responses := rfl
@[simp] theorem goIdle_hostFaults (s : State) : (goIdle s).hostFaults = s.hostFaults := rfl
@[simp] theorem goIdle_agenda (s : State) : (goIdle s).agenda = s.agenda := rfl
@[simp] theorem goIdle_ticks (s : State) : (goIdle s).ticks = s.ticks := rfl

@[simp] theorem finish_ie (r : List Sample) (s : State) : (finish r s).ie = s.ie := rfl
@[simp] theorem finish_busy (r : List Sample) (s : State) : (finish r s).busy = false := rfl
@[simp] theorem finish_done (r : List Sample) (s : State) : (finish r s).done = true := rfl
@[simp] theorem finish_ovr (r : List Sample) (s : State) : (finish r s).ovr = s.ovr := rfl
@[simp] theorem finish_errcode (r : List Sample) (s : State) : (finish r s).errcode = .none := rfl
@[simp] theorem finish_lastop (r : List Sample) (s : State) : (finish r s).lastop = s.lastop := rfl
@[simp] theorem finish_cmd (r : List Sample) (s : State) : (finish r s).cmd = s.cmd := rfl
@[simp] theorem finish_len (r : List Sample) (s : State) : (finish r s).len = s.len := rfl
@[simp] theorem finish_order (r : List Sample) (s : State) : (finish r s).order = s.order := rfl
@[simp] theorem finish_orderRed (r : List Sample) (s : State) : (finish r s).orderRed = s.orderRed := rfl
@[simp] theorem finish_orderEng (r : List Sample) (s : State) : (finish r s).orderEng = s.orderEng := rfl
@[simp] theorem finish_path (r : List Sample) (s : State) : (finish r s).path = s.path := rfl
@[simp] theorem finish_outlen (r : List Sample) (s : State) : (finish r s).outlen = BitVec.ofNat 32 r.length := rfl
@[simp] theorem finish_seq (r : List Sample) (s : State) : (finish r s).seq = .idle := rfl
@[simp] theorem finish_snap (r : List Sample) (s : State) : (finish r s).snap = s.snap := rfl
@[simp] theorem finish_pend (r : List Sample) (s : State) : (finish r s).pend = none := rfl
@[simp] theorem finish_coreResp (r : List Sample) (s : State) : (finish r s).coreResp = none := rfl
@[simp] theorem finish_work (r : List Sample) (s : State) : (finish r s).work = Work.empty := rfl
@[simp] theorem finish_mem (r : List Sample) (s : State) : (finish r s).mem = s.mem.writeSamples (yAddr 0) r := rfl
@[simp] theorem finish_draws (r : List Sample) (s : State) : (finish r s).draws = s.draws := rfl
@[simp] theorem finish_hostQueue (r : List Sample) (s : State) : (finish r s).hostQueue = s.hostQueue := rfl
@[simp] theorem finish_responses (r : List Sample) (s : State) : (finish r s).responses = s.responses := rfl
@[simp] theorem finish_hostFaults (r : List Sample) (s : State) : (finish r s).hostFaults = s.hostFaults := rfl
@[simp] theorem finish_agenda (r : List Sample) (s : State) : (finish r s).agenda = s.agenda := rfl
@[simp] theorem finish_ticks (r : List Sample) (s : State) : (finish r s).ticks = s.ticks := rfl

@[simp] theorem raiseErr_ie (c : ErrCode) (s : State) : (raiseErr c s).ie = s.ie := rfl
@[simp] theorem raiseErr_busy (c : ErrCode) (s : State) : (raiseErr c s).busy = false := rfl
@[simp] theorem raiseErr_done (c : ErrCode) (s : State) : (raiseErr c s).done = true := rfl
@[simp] theorem raiseErr_ovr (c : ErrCode) (s : State) : (raiseErr c s).ovr = s.ovr := rfl
@[simp] theorem raiseErr_errcode (c : ErrCode) (s : State) : (raiseErr c s).errcode = c := rfl
@[simp] theorem raiseErr_lastop (c : ErrCode) (s : State) : (raiseErr c s).lastop = s.lastop := rfl
@[simp] theorem raiseErr_cmd (c : ErrCode) (s : State) : (raiseErr c s).cmd = s.cmd := rfl
@[simp] theorem raiseErr_len (c : ErrCode) (s : State) : (raiseErr c s).len = s.len := rfl
@[simp] theorem raiseErr_order (c : ErrCode) (s : State) : (raiseErr c s).order = s.order := rfl
@[simp] theorem raiseErr_orderRed (c : ErrCode) (s : State) : (raiseErr c s).orderRed = s.orderRed := rfl
@[simp] theorem raiseErr_orderEng (c : ErrCode) (s : State) : (raiseErr c s).orderEng = s.orderEng := rfl
@[simp] theorem raiseErr_path (c : ErrCode) (s : State) : (raiseErr c s).path = s.path := rfl
@[simp] theorem raiseErr_outlen (c : ErrCode) (s : State) : (raiseErr c s).outlen = 0 := rfl
@[simp] theorem raiseErr_seq (c : ErrCode) (s : State) : (raiseErr c s).seq = .idle := rfl
@[simp] theorem raiseErr_snap (c : ErrCode) (s : State) : (raiseErr c s).snap = s.snap := rfl
@[simp] theorem raiseErr_pend (c : ErrCode) (s : State) : (raiseErr c s).pend = none := rfl
@[simp] theorem raiseErr_coreResp (c : ErrCode) (s : State) : (raiseErr c s).coreResp = none := rfl
@[simp] theorem raiseErr_work (c : ErrCode) (s : State) : (raiseErr c s).work = Work.empty := rfl
@[simp] theorem raiseErr_mem (c : ErrCode) (s : State) : (raiseErr c s).mem = s.mem := rfl
@[simp] theorem raiseErr_draws (c : ErrCode) (s : State) : (raiseErr c s).draws = s.draws := rfl
@[simp] theorem raiseErr_hostQueue (c : ErrCode) (s : State) : (raiseErr c s).hostQueue = s.hostQueue := rfl
@[simp] theorem raiseErr_responses (c : ErrCode) (s : State) : (raiseErr c s).responses = s.responses := rfl
@[simp] theorem raiseErr_hostFaults (c : ErrCode) (s : State) : (raiseErr c s).hostFaults = s.hostFaults := rfl
@[simp] theorem raiseErr_agenda (c : ErrCode) (s : State) : (raiseErr c s).agenda = s.agenda := rfl
@[simp] theorem raiseErr_ticks (c : ErrCode) (s : State) : (raiseErr c s).ticks = s.ticks := rfl

@[simp] theorem useDraws_ie (n : Nat) (s : State) : (useDraws n s).ie = s.ie := rfl
@[simp] theorem useDraws_busy (n : Nat) (s : State) : (useDraws n s).busy = s.busy := rfl
@[simp] theorem useDraws_done (n : Nat) (s : State) : (useDraws n s).done = s.done := rfl
@[simp] theorem useDraws_ovr (n : Nat) (s : State) : (useDraws n s).ovr = s.ovr := rfl
@[simp] theorem useDraws_errcode (n : Nat) (s : State) : (useDraws n s).errcode = s.errcode := rfl
@[simp] theorem useDraws_lastop (n : Nat) (s : State) : (useDraws n s).lastop = s.lastop := rfl
@[simp] theorem useDraws_cmd (n : Nat) (s : State) : (useDraws n s).cmd = s.cmd := rfl
@[simp] theorem useDraws_len (n : Nat) (s : State) : (useDraws n s).len = s.len := rfl
@[simp] theorem useDraws_order (n : Nat) (s : State) : (useDraws n s).order = s.order := rfl
@[simp] theorem useDraws_orderRed (n : Nat) (s : State) : (useDraws n s).orderRed = s.orderRed := rfl
@[simp] theorem useDraws_orderEng (n : Nat) (s : State) : (useDraws n s).orderEng = s.orderEng := rfl
@[simp] theorem useDraws_path (n : Nat) (s : State) : (useDraws n s).path = s.path := rfl
@[simp] theorem useDraws_outlen (n : Nat) (s : State) : (useDraws n s).outlen = s.outlen := rfl
@[simp] theorem useDraws_seq (n : Nat) (s : State) : (useDraws n s).seq = s.seq := rfl
@[simp] theorem useDraws_snap (n : Nat) (s : State) : (useDraws n s).snap = s.snap := rfl
@[simp] theorem useDraws_pend (n : Nat) (s : State) : (useDraws n s).pend = s.pend := rfl
@[simp] theorem useDraws_coreResp (n : Nat) (s : State) : (useDraws n s).coreResp = s.coreResp := rfl
@[simp] theorem useDraws_work (n : Nat) (s : State) : (useDraws n s).work = s.work := rfl
@[simp] theorem useDraws_mem (n : Nat) (s : State) : (useDraws n s).mem = s.mem := rfl
@[simp] theorem useDraws_draws (n : Nat) (s : State) : (useDraws n s).draws = s.draws + 2 * n := rfl
@[simp] theorem useDraws_hostQueue (n : Nat) (s : State) : (useDraws n s).hostQueue = s.hostQueue := rfl
@[simp] theorem useDraws_responses (n : Nat) (s : State) : (useDraws n s).responses = s.responses := rfl
@[simp] theorem useDraws_hostFaults (n : Nat) (s : State) : (useDraws n s).hostFaults = s.hostFaults := rfl
@[simp] theorem useDraws_agenda (n : Nat) (s : State) : (useDraws n s).agenda = s.agenda := rfl
@[simp] theorem useDraws_ticks (n : Nat) (s : State) : (useDraws n s).ticks = s.ticks := rfl

@[simp] theorem advance_ie (s : State) : (advance s).ie = s.ie := rfl
@[simp] theorem advance_busy (s : State) : (advance s).busy = s.busy := rfl
@[simp] theorem advance_done (s : State) : (advance s).done = s.done := rfl
@[simp] theorem advance_ovr (s : State) : (advance s).ovr = s.ovr := rfl
@[simp] theorem advance_errcode (s : State) : (advance s).errcode = s.errcode := rfl
@[simp] theorem advance_lastop (s : State) : (advance s).lastop = s.lastop := rfl
@[simp] theorem advance_cmd (s : State) : (advance s).cmd = s.cmd := rfl
@[simp] theorem advance_len (s : State) : (advance s).len = s.len := rfl
@[simp] theorem advance_order (s : State) : (advance s).order = s.order := rfl
@[simp] theorem advance_orderRed (s : State) : (advance s).orderRed = s.orderRed := rfl
@[simp] theorem advance_orderEng (s : State) : (advance s).orderEng = s.orderEng := rfl
@[simp] theorem advance_path (s : State) : (advance s).path = s.path := rfl
@[simp] theorem advance_outlen (s : State) : (advance s).outlen = s.outlen := rfl
@[simp] theorem advance_seq (s : State) : (advance s).seq = s.seq := rfl
@[simp] theorem advance_snap (s : State) : (advance s).snap = s.snap := rfl
@[simp] theorem advance_pend (s : State) : (advance s).pend = s.pend := rfl
@[simp] theorem advance_coreResp (s : State) : (advance s).coreResp = s.coreResp := rfl
@[simp] theorem advance_work (s : State) : (advance s).work = s.work := rfl
@[simp] theorem advance_mem (s : State) : (advance s).mem = s.mem := rfl
@[simp] theorem advance_draws (s : State) : (advance s).draws = s.draws := rfl
@[simp] theorem advance_hostQueue (s : State) : (advance s).hostQueue = s.hostQueue := rfl
@[simp] theorem advance_responses (s : State) : (advance s).responses = s.responses := rfl
@[simp] theorem advance_hostFaults (s : State) : (advance s).hostFaults = s.hostFaults := rfl
@[simp] theorem advance_agenda (s : State) : (advance s).agenda = s.agenda.tail := rfl
@[simp] theorem advance_ticks (s : State) : (advance s).ticks = s.ticks + 1 := rfl

@[simp] theorem respondHost_ie (r : PortResponse) (s : State) : (respondHost r s).ie = s.ie := rfl
@[simp] theorem respondHost_busy (r : PortResponse) (s : State) : (respondHost r s).busy = s.busy := rfl
@[simp] theorem respondHost_done (r : PortResponse) (s : State) : (respondHost r s).done = s.done := rfl
@[simp] theorem respondHost_ovr (r : PortResponse) (s : State) : (respondHost r s).ovr = s.ovr := rfl
@[simp] theorem respondHost_errcode (r : PortResponse) (s : State) : (respondHost r s).errcode = s.errcode := rfl
@[simp] theorem respondHost_lastop (r : PortResponse) (s : State) : (respondHost r s).lastop = s.lastop := rfl
@[simp] theorem respondHost_cmd (r : PortResponse) (s : State) : (respondHost r s).cmd = s.cmd := rfl
@[simp] theorem respondHost_len (r : PortResponse) (s : State) : (respondHost r s).len = s.len := rfl
@[simp] theorem respondHost_order (r : PortResponse) (s : State) : (respondHost r s).order = s.order := rfl
@[simp] theorem respondHost_orderRed (r : PortResponse) (s : State) : (respondHost r s).orderRed = s.orderRed := rfl
@[simp] theorem respondHost_orderEng (r : PortResponse) (s : State) : (respondHost r s).orderEng = s.orderEng := rfl
@[simp] theorem respondHost_path (r : PortResponse) (s : State) : (respondHost r s).path = s.path := rfl
@[simp] theorem respondHost_outlen (r : PortResponse) (s : State) : (respondHost r s).outlen = s.outlen := rfl
@[simp] theorem respondHost_seq (r : PortResponse) (s : State) : (respondHost r s).seq = s.seq := rfl
@[simp] theorem respondHost_snap (r : PortResponse) (s : State) : (respondHost r s).snap = s.snap := rfl
@[simp] theorem respondHost_pend (r : PortResponse) (s : State) : (respondHost r s).pend = s.pend := rfl
@[simp] theorem respondHost_coreResp (r : PortResponse) (s : State) : (respondHost r s).coreResp = s.coreResp := rfl
@[simp] theorem respondHost_work (r : PortResponse) (s : State) : (respondHost r s).work = s.work := rfl
@[simp] theorem respondHost_mem (r : PortResponse) (s : State) : (respondHost r s).mem = s.mem := rfl
@[simp] theorem respondHost_draws (r : PortResponse) (s : State) : (respondHost r s).draws = s.draws := rfl
@[simp] theorem respondHost_hostQueue (r : PortResponse) (s : State) : (respondHost r s).hostQueue = s.hostQueue := rfl
@[simp] theorem respondHost_responses (r : PortResponse) (s : State) : (respondHost r s).responses = r :: s.responses := rfl
@[simp] theorem respondHost_hostFaults (r : PortResponse) (s : State) : (respondHost r s).hostFaults = s.hostFaults := rfl
@[simp] theorem respondHost_agenda (r : PortResponse) (s : State) : (respondHost r s).agenda = s.agenda := rfl
@[simp] theorem respondHost_ticks (r : PortResponse) (s : State) : (respondHost r s).ticks = s.ticks := rfl

@[simp] theorem issue_ie (r : CoreRequest) (st : Stage) (s : State) : (issue r st s).ie = s.ie := rfl
@[simp] theorem issue_busy (r : CoreRequest) (st : Stage) (s : State) : (issue r st s).busy = s.busy := rfl
@[simp] theorem issue_done (r : CoreRequest) (st : Stage) (s : State) : (issue r st s).done = s.done := rfl
@[simp] theorem issue_ovr (r : CoreRequest) (st : Stage) (s : State) : (issue r st s).ovr = s.ovr := rfl
@[simp] theorem issue_errcode (r : CoreRequest) (st : Stage) (s : State) : (issue r st s).errcode = s.errcode := rfl
@[simp] theorem issue_lastop (r : CoreRequest) (st : Stage) (s : State) : (issue r st s).lastop = s.lastop := rfl
@[simp] theorem issue_cmd (r : CoreRequest) (st : Stage) (s : State) : (issue r st s).cmd = s.cmd := rfl
@[simp] theorem issue_len (r : CoreRequest) (st : Stage) (s : State) : (issue r st s).len = s.len := rfl
@[simp] theorem issue_order (r : CoreRequest) (st : Stage) (s : State) : (issue r st s).order = s.order := rfl
@[simp] theorem issue_orderRed (r : CoreRequest) (st : Stage) (s : State) : (issue r st s).orderRed = s.orderRed := rfl
@[simp] theorem issue_orderEng (r : CoreRequest) (st : Stage) (s : State) : (issue r st s).orderEng = s.orderEng := rfl
@[simp] theorem issue_path (r : CoreRequest) (st : Stage) (s : State) : (issue r st s).path = s.path := rfl
@[simp] theorem issue_outlen (r : CoreRequest) (st : Stage) (s : State) : (issue r st s).outlen = s.outlen := rfl
@[simp] theorem issue_seq (r : CoreRequest) (st : Stage) (s : State) : (issue r st s).seq = .run st := rfl
@[simp] theorem issue_snap (r : CoreRequest) (st : Stage) (s : State) : (issue r st s).snap = s.snap := rfl
@[simp] theorem issue_pend (r : CoreRequest) (st : Stage) (s : State) : (issue r st s).pend = some r := rfl
@[simp] theorem issue_coreResp (r : CoreRequest) (st : Stage) (s : State) : (issue r st s).coreResp = s.coreResp := rfl
@[simp] theorem issue_work (r : CoreRequest) (st : Stage) (s : State) : (issue r st s).work = s.work := rfl
@[simp] theorem issue_mem (r : CoreRequest) (st : Stage) (s : State) : (issue r st s).mem = s.mem := rfl
@[simp] theorem issue_draws (r : CoreRequest) (st : Stage) (s : State) : (issue r st s).draws = s.draws := rfl
@[simp] theorem issue_hostQueue (r : CoreRequest) (st : Stage) (s : State) : (issue r st s).hostQueue = s.hostQueue := rfl
@[simp] theorem issue_responses (r : CoreRequest) (st : Stage) (s : State) : (issue r st s).responses = s.responses := rfl
@[simp] theorem issue_hostFaults (r : CoreRequest) (st : Stage) (s : State) : (issue r st s).hostFaults = s.hostFaults := rfl
@[simp] theorem issue_agenda (r : CoreRequest) (st : Stage) (s : State) : (issue r st s).agenda = s.agenda := rfl
@[simp] theorem issue_ticks (r : CoreRequest) (st : Stage) (s : State) : (issue r st s).ticks = s.ticks := rfl

@[simp] theorem takeResponse_ie (s : State) : (takeResponse s).ie = s.ie := rfl
@[simp] theorem takeResponse_busy (s : State) : (takeResponse s).busy = s.busy := rfl
@[simp] theorem takeResponse_done (s : State) : (takeResponse s).done = s.done := rfl
@[simp] theorem takeResponse_ovr (s : State) : (takeResponse s).ovr = s.ovr := rfl
@[simp] theorem takeResponse_errcode (s : State) : (takeResponse s).errcode = s.errcode := rfl
@[simp] theorem takeResponse_lastop (s : State) : (takeResponse s).lastop = s.lastop := rfl
@[simp] theorem takeResponse_cmd (s : State) : (takeResponse s).cmd = s.cmd := rfl
@[simp] theorem takeResponse_len (s : State) : (takeResponse s).len = s.len := rfl
@[simp] theorem takeResponse_order (s : State) : (takeResponse s).order = s.order := rfl
@[simp] theorem takeResponse_orderRed (s : State) : (takeResponse s).orderRed = s.orderRed := rfl
@[simp] theorem takeResponse_orderEng (s : State) : (takeResponse s).orderEng = s.orderEng := rfl
@[simp] theorem takeResponse_path (s : State) : (takeResponse s).path = s.path := rfl
@[simp] theorem takeResponse_outlen (s : State) : (takeResponse s).outlen = s.outlen := rfl
@[simp] theorem takeResponse_seq (s : State) : (takeResponse s).seq = s.seq := rfl
@[simp] theorem takeResponse_snap (s : State) : (takeResponse s).snap = s.snap := rfl
@[simp] theorem takeResponse_pend (s : State) : (takeResponse s).pend = none := rfl
@[simp] theorem takeResponse_coreResp (s : State) : (takeResponse s).coreResp = none := rfl
@[simp] theorem takeResponse_work (s : State) : (takeResponse s).work = s.work := rfl
@[simp] theorem takeResponse_mem (s : State) : (takeResponse s).mem = s.mem := rfl
@[simp] theorem takeResponse_draws (s : State) : (takeResponse s).draws = s.draws := rfl
@[simp] theorem takeResponse_hostQueue (s : State) : (takeResponse s).hostQueue = s.hostQueue := rfl
@[simp] theorem takeResponse_responses (s : State) : (takeResponse s).responses = s.responses := rfl
@[simp] theorem takeResponse_hostFaults (s : State) : (takeResponse s).hostFaults = s.hostFaults := rfl
@[simp] theorem takeResponse_agenda (s : State) : (takeResponse s).agenda = s.agenda := rfl
@[simp] theorem takeResponse_ticks (s : State) : (takeResponse s).ticks = s.ticks := rfl

@[simp] theorem goStage_ie (st : Stage) (s : State) : (goStage st s).ie = s.ie := rfl
@[simp] theorem goStage_busy (st : Stage) (s : State) : (goStage st s).busy = s.busy := rfl
@[simp] theorem goStage_done (st : Stage) (s : State) : (goStage st s).done = s.done := rfl
@[simp] theorem goStage_ovr (st : Stage) (s : State) : (goStage st s).ovr = s.ovr := rfl
@[simp] theorem goStage_errcode (st : Stage) (s : State) : (goStage st s).errcode = s.errcode := rfl
@[simp] theorem goStage_lastop (st : Stage) (s : State) : (goStage st s).lastop = s.lastop := rfl
@[simp] theorem goStage_cmd (st : Stage) (s : State) : (goStage st s).cmd = s.cmd := rfl
@[simp] theorem goStage_len (st : Stage) (s : State) : (goStage st s).len = s.len := rfl
@[simp] theorem goStage_order (st : Stage) (s : State) : (goStage st s).order = s.order := rfl
@[simp] theorem goStage_orderRed (st : Stage) (s : State) : (goStage st s).orderRed = s.orderRed := rfl
@[simp] theorem goStage_orderEng (st : Stage) (s : State) : (goStage st s).orderEng = s.orderEng := rfl
@[simp] theorem goStage_path (st : Stage) (s : State) : (goStage st s).path = s.path := rfl
@[simp] theorem goStage_outlen (st : Stage) (s : State) : (goStage st s).outlen = s.outlen := rfl
@[simp] theorem goStage_seq (st : Stage) (s : State) : (goStage st s).seq = .run st := rfl
@[simp] theorem goStage_snap (st : Stage) (s : State) : (goStage st s).snap = s.snap := rfl
@[simp] theorem goStage_pend (st : Stage) (s : State) : (goStage st s).pend = s.pend := rfl
@[simp] theorem goStage_coreResp (st : Stage) (s : State) : (goStage st s).coreResp = s.coreResp := rfl
@[simp] theorem goStage_work (st : Stage) (s : State) : (goStage st s).work = s.work := rfl
@[simp] theorem goStage_mem (st : Stage) (s : State) : (goStage st s).mem = s.mem := rfl
@[simp] theorem goStage_draws (st : Stage) (s : State) : (goStage st s).draws = s.draws := rfl
@[simp] theorem goStage_hostQueue (st : Stage) (s : State) : (goStage st s).hostQueue = s.hostQueue := rfl
@[simp] theorem goStage_responses (st : Stage) (s : State) : (goStage st s).responses = s.responses := rfl
@[simp] theorem goStage_hostFaults (st : Stage) (s : State) : (goStage st s).hostFaults = s.hostFaults := rfl
@[simp] theorem goStage_agenda (st : Stage) (s : State) : (goStage st s).agenda = s.agenda := rfl
@[simp] theorem goStage_ticks (st : Stage) (s : State) : (goStage st s).ticks = s.ticks := rfl

@[simp] theorem goFinish_ie (r : List Sample) (s : State) : (goFinish r s).ie = s.ie := rfl
@[simp] theorem goFinish_busy (r : List Sample) (s : State) : (goFinish r s).busy = s.busy := rfl
@[simp] theorem goFinish_done (r : List Sample) (s : State) : (goFinish r s).done = s.done := rfl
@[simp] theorem goFinish_ovr (r : List Sample) (s : State) : (goFinish r s).ovr = s.ovr := rfl
@[simp] theorem goFinish_errcode (r : List Sample) (s : State) : (goFinish r s).errcode = s.errcode := rfl
@[simp] theorem goFinish_lastop (r : List Sample) (s : State) : (goFinish r s).lastop = s.lastop := rfl
@[simp] theorem goFinish_cmd (r : List Sample) (s : State) : (goFinish r s).cmd = s.cmd := rfl
@[simp] theorem goFinish_len (r : List Sample) (s : State) : (goFinish r s).len = s.len := rfl
@[simp] theorem goFinish_order (r : List Sample) (s : State) : (goFinish r s).order = s.order := rfl
@[simp] theorem goFinish_orderRed (r : List Sample) (s : State) : (goFinish r s).orderRed = s.orderRed := rfl
@[simp] theorem goFinish_orderEng (r : List Sample) (s : State) : (goFinish r s).orderEng = s.orderEng := rfl
@[simp] theorem goFinish_path (r : List Sample) (s : State) : (goFinish r s).path = s.path := rfl
@[simp] theorem goFinish_outlen (r : List Sample) (s : State) : (goFinish r s).outlen = s.outlen := rfl
@[simp] theorem goFinish_seq (r : List Sample) (s : State) : (goFinish r s).seq = .run .finish := rfl
@[simp] theorem goFinish_snap (r : List Sample) (s : State) : (goFinish r s).snap = s.snap := rfl
@[simp] theorem goFinish_pend (r : List Sample) (s : State) : (goFinish r s).pend = s.pend := rfl
@[simp] theorem goFinish_coreResp (r : List Sample) (s : State) : (goFinish r s).coreResp = s.coreResp := rfl
@[simp] theorem goFinish_work (r : List Sample) (s : State) : (goFinish r s).work = { s.work with result := r } := rfl
@[simp] theorem goFinish_mem (r : List Sample) (s : State) : (goFinish r s).mem = s.mem := rfl
@[simp] theorem goFinish_draws (r : List Sample) (s : State) : (goFinish r s).draws = s.draws := rfl
@[simp] theorem goFinish_hostQueue (r : List Sample) (s : State) : (goFinish r s).hostQueue = s.hostQueue := rfl
@[simp] theorem goFinish_responses (r : List Sample) (s : State) : (goFinish r s).responses = s.responses := rfl
@[simp] theorem goFinish_hostFaults (r : List Sample) (s : State) : (goFinish r s).hostFaults = s.hostFaults := rfl
@[simp] theorem goFinish_agenda (r : List Sample) (s : State) : (goFinish r s).agenda = s.agenda := rfl
@[simp] theorem goFinish_ticks (r : List Sample) (s : State) : (goFinish r s).ticks = s.ticks := rfl

@[simp] theorem setOrder_ie (o : OrderRecord) (s : State) : (setOrder o s).ie = s.ie := rfl
@[simp] theorem setOrder_busy (o : OrderRecord) (s : State) : (setOrder o s).busy = s.busy := rfl
@[simp] theorem setOrder_done (o : OrderRecord) (s : State) : (setOrder o s).done = s.done := rfl
@[simp] theorem setOrder_ovr (o : OrderRecord) (s : State) : (setOrder o s).ovr = s.ovr := rfl
@[simp] theorem setOrder_errcode (o : OrderRecord) (s : State) : (setOrder o s).errcode = s.errcode := rfl
@[simp] theorem setOrder_lastop (o : OrderRecord) (s : State) : (setOrder o s).lastop = s.lastop := rfl
@[simp] theorem setOrder_cmd (o : OrderRecord) (s : State) : (setOrder o s).cmd = s.cmd := rfl
@[simp] theorem setOrder_len (o : OrderRecord) (s : State) : (setOrder o s).len = s.len := rfl
@[simp] theorem setOrder_order (o : OrderRecord) (s : State) : (setOrder o s).order = s.order := rfl
@[simp] theorem setOrder_orderRed (o : OrderRecord) (s : State) : (setOrder o s).orderRed = s.orderRed := rfl
@[simp] theorem setOrder_orderEng (o : OrderRecord) (s : State) : (setOrder o s).orderEng = s.orderEng := rfl
@[simp] theorem setOrder_path (o : OrderRecord) (s : State) : (setOrder o s).path = s.path := rfl
@[simp] theorem setOrder_outlen (o : OrderRecord) (s : State) : (setOrder o s).outlen = s.outlen := rfl
@[simp] theorem setOrder_seq (o : OrderRecord) (s : State) : (setOrder o s).seq = s.seq := rfl
@[simp] theorem setOrder_snap (o : OrderRecord) (s : State) : (setOrder o s).snap = s.snap := rfl
@[simp] theorem setOrder_pend (o : OrderRecord) (s : State) : (setOrder o s).pend = s.pend := rfl
@[simp] theorem setOrder_coreResp (o : OrderRecord) (s : State) : (setOrder o s).coreResp = s.coreResp := rfl
@[simp] theorem setOrder_work (o : OrderRecord) (s : State) : (setOrder o s).work = { s.work with order := o } := rfl
@[simp] theorem setOrder_mem (o : OrderRecord) (s : State) : (setOrder o s).mem = s.mem := rfl
@[simp] theorem setOrder_draws (o : OrderRecord) (s : State) : (setOrder o s).draws = s.draws := rfl
@[simp] theorem setOrder_hostQueue (o : OrderRecord) (s : State) : (setOrder o s).hostQueue = s.hostQueue := rfl
@[simp] theorem setOrder_responses (o : OrderRecord) (s : State) : (setOrder o s).responses = s.responses := rfl
@[simp] theorem setOrder_hostFaults (o : OrderRecord) (s : State) : (setOrder o s).hostFaults = s.hostFaults := rfl
@[simp] theorem setOrder_agenda (o : OrderRecord) (s : State) : (setOrder o s).agenda = s.agenda := rfl
@[simp] theorem setOrder_ticks (o : OrderRecord) (s : State) : (setOrder o s).ticks = s.ticks := rfl

end Sys2Proof.Machine
end

