-- ==== Sys2Proof/Laws/Ops.lean ====
section
/-! SUPPORT. One lemma per shared operation that says all it can do: the completions, the length check, the data commands. -/

namespace Sys2Proof.Machine

theorem nmax_ge : 2048 ≤ Config.nmax := by unfold Config.nmax; omega

theorem nmax_le : Config.nmax ≤ 1048576 := by
  unfold Config.nmax
  have := Nat.mod_lt Config.nmaxFree (show 0 < 1046529 by norm_num)
  omega

theorem idle_goIdle (s : State) : Idle (goIdle s) := ⟨rfl, rfl, rfl, rfl, rfl, rfl⟩

theorem idle_finish (r : List Sample) (s : State) : Idle (finish r s) := idle_goIdle _

theorem idle_raiseErr (c : ErrCode) (s : State) : Idle (raiseErr c s) := idle_goIdle _

theorem idle_complete (r : Except ErrCode (List Sample)) (s : State) : Idle (complete r s) := by
  cases r
  · exact idle_raiseErr _ _
  · exact idle_finish _ _

theorem sameHostSide_refl (s : State) : SameHostSide s s := ⟨rfl, rfl, rfl, rfl, rfl, rfl, rfl, rfl, rfl, rfl, rfl, rfl⟩

theorem SameHostSide.trans {s t u : State} (h : SameHostSide s t) (k : SameHostSide t u) : SameHostSide s u :=
  ⟨k.ie.trans h.ie, k.ovr.trans h.ovr, k.cmd.trans h.cmd, k.lastop.trans h.lastop, k.len.trans h.len, k.order.trans h.order,
    k.snap.trans h.snap, k.hostQueue.trans h.hostQueue, k.responses.trans h.responses, k.hostFaults.trans h.hostFaults,
    k.agenda.trans h.agenda, k.ticks.trans h.ticks⟩

theorem sameHostSide_finish (r : List Sample) (s : State) : SameHostSide s (finish r s) :=
  ⟨rfl, rfl, rfl, rfl, rfl, rfl, rfl, rfl, rfl, rfl, rfl, rfl⟩

theorem sameHostSide_raiseErr (c : ErrCode) (s : State) : SameHostSide s (raiseErr c s) :=
  ⟨rfl, rfl, rfl, rfl, rfl, rfl, rfl, rfl, rfl, rfl, rfl, rfl⟩

theorem sameHostSide_complete (r : Except ErrCode (List Sample)) (s : State) : SameHostSide s (complete r s) := by
  cases r
  · exact sameHostSide_raiseErr _ _
  · exact sameHostSide_finish _ _

/-- The length check, case by case (R123). -/
theorem lengthCase_cases (n : Nat) :
    (n = 0 ∧ lengthCase n = .empty) ∨ (Config.nmax < n ∧ lengthCase n = .tooLong) ∨ (n = 1 ∧ lengthCase n = .short) ∨
      (2 ≤ n ∧ n ≤ Config.nmax ∧ lengthCase n = .normal) := by
  have := nmax_ge
  unfold lengthCase
  split_ifs <;> simp <;> omega

theorem lengthCase_zero : lengthCase 0 = .empty := rfl

theorem lengthCase_tooLong {n : Nat} (h : Config.nmax < n) : lengthCase n = .tooLong := by
  have := nmax_ge
  rw [lengthCase, if_neg (by omega), if_pos h]

theorem lengthCase_one : lengthCase 1 = .short := by
  have := nmax_ge
  rw [lengthCase, if_neg (by omega), if_neg (by omega), if_pos rfl]

theorem lengthCase_normal {n : Nat} (h : 2 ≤ n) (h' : n ≤ Config.nmax) : lengthCase n = .normal := by
  rw [lengthCase, if_neg (by omega), if_neg (by omega), if_neg (by omega)]

/-- A data command does one of four things (R123, R129). -/
theorem dataCommand_cases (short : State → State) (body : List Sample → State → State) (s : State) :
    (lengthOperand s = 0 ∧ dataCommand short body s = raiseErr .emptySignal s) ∨
      (Config.nmax < lengthOperand s ∧ dataCommand short body s = raiseErr .lengthRange s) ∨
      (lengthOperand s = 1 ∧ dataCommand short body s = short s) ∨
      (2 ≤ lengthOperand s ∧ lengthOperand s ≤ Config.nmax ∧
        dataCommand short body s = body (inputSignal s) (useDraws (lengthOperand s) s)) := by
  unfold dataCommand
  rcases lengthCase_cases (lengthOperand s) with ⟨h, e⟩ | ⟨h, e⟩ | ⟨h, e⟩ | ⟨h, h', e⟩
  · exact .inl ⟨h, by rw [e]⟩
  · exact .inr (.inl ⟨h, by rw [e]⟩)
  · exact .inr (.inr (.inl ⟨h, by rw [e]⟩))
  · exact .inr (.inr (.inr ⟨h, h', by rw [e]⟩))

theorem dataCommand_normal {short : State → State} {body : List Sample → State → State} {s : State}
    (h : 2 ≤ lengthOperand s) (h' : lengthOperand s ≤ Config.nmax) :
    dataCommand short body s = body (inputSignal s) (useDraws (lengthOperand s) s) := by
  rw [dataCommand, lengthCase_normal h h']

/-- After a successful completion, the result stands in YBUF from entry 0 on (R126). -/
theorem yHolds_finish (r : List Sample) (s : State) : yHolds (finish r s).mem r := by
  intro e he
  have := Memory.readWord_writeSamples r s.mem (yAddr 0) e he
  have ha : yAddr 0 + 16 * e = yAddr e := by unfold yAddr; omega
  rw [ha] at this
  simp [Memory.readSample, this.1, this.2]

/-- A successful completion changes no byte outside the entries it writes (R41). -/
theorem read_finish_outside (r : List Sample) (s : State) (a : Nat) (h : a < yAddr 0 ∨ yAddr r.length ≤ a) :
    (finish r s).mem.read a = s.mem.read a := by
  apply Memory.read_writeSamples_outside
  unfold yAddr at *
  omega

/-- OUTLEN after a successful completion, for every result that fits YBUF (R126). -/
theorem outlen_finish {r : List Sample} (s : State) (h : r.length ≤ Config.ycap) : (finish r s).outlen.toNat = r.length := by
  have := nmax_le
  unfold Config.ycap at h
  change (BitVec.ofNat 32 r.length).toNat = _
  rw [BitVec.toNat_ofNat, Nat.mod_eq_of_lt (by omega)]

theorem sameHostSide_useDraws (n : Nat) (s : State) : SameHostSide s (useDraws n s) :=
  ⟨rfl, rfl, rfl, rfl, rfl, rfl, rfl, rfl, rfl, rfl, rfl, rfl⟩

theorem sameHostSide_writeOrder (o : OrderRecord) (s : State) : SameHostSide s (writeOrder o s) :=
  ⟨rfl, rfl, rfl, rfl, rfl, rfl, rfl, rfl, rfl, rfl, rfl, rfl⟩

theorem sameHostSide_path (p : PathReg) (s : State) : SameHostSide s { s with path := p } :=
  ⟨rfl, rfl, rfl, rfl, rfl, rfl, rfl, rfl, rfl, rfl, rfl, rfl⟩

/-- A sample whose words were written is read as stored, whatever the draws (R42, R70). -/
theorem xSample_of_readSample {m : Memory} {d e : Nat} {z : Sample} (h : m.readSample (xAddr e) = some z) :
    xSample m d e = z := by
  unfold Memory.readSample at h
  split at h
  · injection h with h
    subst h
    rename_i h1 h2
    simp [xSample, Memory.readOr, h1, h2]
  · simp at h

/-- FRFT and IFRFT past the length check (R241). -/
theorem transformAt_normal {a : Binary64} {s : State} (h : 2 ≤ lengthOperand s) (h' : lengthOperand s ≤ Config.nmax) :
    transformAt a s = complete (transformResult Config.num (dispatchOrder a) (inputSignal s))
      (writeOrder (dispatchOrder a) (useDraws (lengthOperand s) s)) := dataCommand_normal h h'

end Sys2Proof.Machine
end

