-- ==== Sys2Proof/Laws/HostPort.lean ====
section
/-! SUPPORT. What the host's step does, access by access: one lemma per kind of accepted access, and which accesses are accepted. -/

namespace Sys2Proof.Machine

/-- On the host's turn, the step is the host's. -/
theorem HostTurn.step_eq {s : State} {a : HostAccess} {rest : List HostAccess} (h : HostTurn s a rest) :
    step s = .next (hostStep (advance s)) := by
  simp only [step, h.live, h.agent, agentStep, Bool.false_eq_true, if_false]

theorem HostTurn.step_write {s : State} {off : BitVec 32} {bytes : Nat} {v : BitVec 64} {rest : List HostAccess}
    (h : HostTurn s (.write off bytes v) rest) : step s = .next (hostWrite off bytes v { advance s with hostQueue := rest }) := by
  rw [h.step_eq, hostStep, advance_hostQueue, h.queue]

theorem HostTurn.step_read {s : State} {off : BitVec 32} {bytes : Nat} {rest : List HostAccess}
    (h : HostTurn s (.read off bytes) rest) : step s = .next (hostRead off bytes { advance s with hostQueue := rest }) := by
  rw [h.step_eq, hostStep, advance_hostQueue, h.queue]

theorem inYbufWindow_of_lt {a : Nat} (h : a < 0x1000) : inYbufWindow a = false := by
  rw [inYbufWindow, Bool.and_eq_false_iff]; left
  unfold ybufBase; exact decide_eq_false (by omega)

theorem inXbuf_iff (a : Nat) : inXbuf a = true ↔ 0x01000000 ≤ a ∧ a < 0x01000000 + 16 * Config.nmax := by
  simp only [inXbuf, Bool.and_eq_true, decide_eq_true_eq]
  unfold xbufBase; omega

theorem inYbuf_iff (a : Nat) : inYbuf a = true ↔ 0x02000000 ≤ a ∧ a < 0x02000000 + 16 * (2 * Config.nmax) := by
  simp only [inYbuf, Bool.and_eq_true, decide_eq_true_eq]
  unfold ybufBase Config.ycap; omega

theorem inYbufWindow_iff (a : Nat) : inYbufWindow a = true ↔ 0x02000000 ≤ a ∧ a < 0x04000000 := by
  simp only [inYbufWindow, Bool.and_eq_true, decide_eq_true_eq]
  rfl

theorem inYbufWindow_of_inXbuf {a : Nat} (h : inXbuf a = true) : inYbufWindow a = false := by
  have := nmax_le
  rw [inXbuf_iff] at h
  rw [Bool.eq_false_iff, ne_eq, inYbufWindow_iff]; omega

/-- The register window is mapped for every access (R64). -/
theorem accessFault_regs (write : Bool) {off : BitVec 32} (h : off.toNat < 0x1000) (h8 : off.toNat % 8 = 0) :
    accessFault write off 8 = none := by
  have hr : inRegs off.toNat = true := decide_eq_true h
  simp only [accessFault, ne_eq, not_true, if_false, h8, inYbufWindow_of_lt h, Bool.and_false, Bool.false_eq_true, hr,
    Bool.true_or, if_true]

theorem accessFault_xbuf (write : Bool) {off : BitVec 32} (h : inXbuf off.toNat = true) (h8 : off.toNat % 8 = 0) :
    accessFault write off 8 = none := by
  simp only [accessFault, ne_eq, not_true, if_false, h8, inYbufWindow_of_inXbuf h, Bool.and_false, Bool.false_eq_true, h,
    Bool.or_true, Bool.true_or, if_true]

theorem accessFault_ybuf {off : BitVec 32} (h : inYbuf off.toNat = true) (h8 : off.toNat % 8 = 0) :
    accessFault false off 8 = none := by
  simp only [accessFault, ne_eq, not_true, if_false, h8, Bool.false_and, Bool.false_eq_true, h, Bool.or_true, if_true]

/-- An access is rejected exactly when R62, R64 or R65 says so. -/
theorem accessFault_isSome (write : Bool) (off : BitVec 32) (bytes : Nat) :
    (accessFault write off bytes).isSome = true ↔
      bytes ≠ 8 ∨ off.toNat % 8 ≠ 0 ∨ (write = true ∧ inYbufWindow off.toNat = true) ∨
        (inRegs off.toNat || inXbuf off.toNat || inYbuf off.toNat) = false := by
  unfold accessFault
  split_ifs with h1 h2 h3 h4
  · simp [h1]
  · simp [h2]
  · simp only [Option.isSome_some, true_iff]
    exact .inr (.inr (.inl (by simpa using h3)))
  · simp only [Option.isSome_none, Bool.false_eq_true, false_iff, not_or]
    refine ⟨h1, h2, by simpa using h3, by rw [h4]; exact Bool.noConfusion⟩
  · simp only [Option.isSome_some, true_iff]
    exact .inr (.inr (.inr (by simpa using h4)))

theorem HostTurn.step_write_reg {s : State} {off : BitVec 32} {v : BitVec 64} {rest : List HostAccess}
    (h : HostTurn s (.write off 8 v) rest) (hr : off.toNat < 0x1000) (h8 : off.toNat % 8 = 0) :
    step s = .next (respondHost .written (writeRegAt off.toNat v { advance s with hostQueue := rest })) := by
  have hi : inRegs off.toNat = true := decide_eq_true hr
  rw [h.step_write, hostWrite, accessFault_regs true hr h8]
  simp only [hi, if_true]

theorem HostTurn.step_read_reg {s : State} {off : BitVec 32} {rest : List HostAccess}
    (h : HostTurn s (.read off 8) rest) (hr : off.toNat < 0x1000) (h8 : off.toNat % 8 = 0) :
    step s = .next (answered s rest (.data (readRegAt off.toNat { advance s with hostQueue := rest }))) := by
  have hi : inRegs off.toNat = true := decide_eq_true hr
  rw [h.step_read, hostRead, accessFault_regs false hr h8]
  simp only [hi, if_true, respondHost, answered, advance_responses]

theorem inRegs_of_ge {a : Nat} (h : 0x1000 ≤ a) : inRegs a = false := decide_eq_false (by omega)

theorem HostTurn.step_write_xbuf {s : State} {off : BitVec 32} {v : BitVec 64} {rest : List HostAccess}
    (h : HostTurn s (.write off 8 v) rest) (hx : inXbuf off.toNat = true) (h8 : off.toNat % 8 = 0) :
    step s = .next (respondHost .written (writeXbuf off.toNat v { advance s with hostQueue := rest })) := by
  have hi : inRegs off.toNat = false := inRegs_of_ge (by have := (inXbuf_iff _).1 hx; omega)
  rw [h.step_write, hostWrite, accessFault_xbuf true hx h8]
  simp only [hi, Bool.false_eq_true, if_false]

theorem HostTurn.step_read_buffer {s : State} {off : BitVec 32} {rest : List HostAccess} (h : HostTurn s (.read off 8) rest)
    (hb : inXbuf off.toNat = true ∨ inYbuf off.toNat = true) (h8 : off.toNat % 8 = 0) :
    step s = .next { answered s rest (.data (readBuffer off.toNat s)) with draws := s.draws + 1 } := by
  have hge : 0x1000 ≤ off.toNat := by
    rcases hb with hb | hb
    · have := (inXbuf_iff _).1 hb; omega
    · have := (inYbuf_iff _).1 hb; omega
  have hf : accessFault false off 8 = none := hb.elim (accessFault_xbuf false · h8) (accessFault_ybuf · h8)
  rw [h.step_read, hostRead, hf]
  simp only [inRegs_of_ge hge, Bool.false_eq_true, if_false]
  rfl

theorem regAt_reserved {a : Nat} (h : 0x058 ≤ a) : regAt a = none := by
  unfold regAt
  repeat rw [if_neg (by omega)]

/-- CAP as one number (R22). -/
theorem capWord_eq : capWord = BitVec.ofNat 64 (2 * Config.nmax * 2 ^ 32 + Config.nmax) := by
  have key : ∀ n : Nat, n ≤ 1048576 →
      BitVec.ofNat 32 (2 * n) ++ BitVec.ofNat 32 n = BitVec.ofNat 64 (2 * n * 2 ^ 32 + n) := by
    intro n hn
    apply BitVec.eq_of_toNat_eq
    rw [BitVec.toNat_append, BitVec.toNat_ofNat, BitVec.toNat_ofNat, BitVec.toNat_ofNat,
      Nat.mod_eq_of_lt (show 2 * n < 2 ^ 32 by omega), Nat.mod_eq_of_lt (show n < 2 ^ 32 by omega),
      Nat.mod_eq_of_lt (show 2 * n * 2 ^ 32 + n < 2 ^ 64 by omega), ← Nat.shiftLeft_add_eq_or_of_lt (by omega), Nat.shiftLeft_eq]
  exact key _ nmax_le

end Sys2Proof.Machine
end

