-- ==== Sys2Proof/Laws/Orders.lean ====
section
/-! SUPPORT. The laws of floor-mod reduction, classification and range reduction (R141 to R143, R171 to R176), on exact values counted in
halves. -/

namespace Sys2Proof.Machine

open F64

theorem fmod4_bound {a : Binary64} (h : F64.isFinite a = true) :
    isFinite (fmod4 a) = true ∧ sign (fmod4 a) = sign a ∧ -(8 * (halfUnits : Int)) ≤ toInt (fmod4 a) ∧
      toInt (fmod4 a) ≤ 8 * halfUnits := by
  have hm := magBits_of_isFinite h
  have hle : units a % (4 * unitsPerOne) ≤ unitsOfBits (magBits four) := by
    have h1 : (unitsOfBits (magBits four) : Int) = toInt four := by decide +kernel
    rw [toInt_four] at h1
    have h2 := Nat.mod_lt (units a) (show 0 < 4 * unitsPerOne by rw [fourUnits_eq]; have := halfUnits_pos; omega)
    rw [fourUnits_eq] at *
    omega
  have h4 : magBits four < infBits := by decide
  have hr : roundBits (units a % (4 * unitsPerOne)) 1 ≤ magBits four := by
    have := roundBits_mono 1 hle
    rwa [roundBits_unitsOfBits _ h4] at this
  have hfin : roundBits (units a % (4 * unitsPerOne)) 1 < infBits := by omega
  have hu := (unitsOfBits_le_iff hfin h4).2 hr
  have h1 : (unitsOfBits (magBits four) : Int) = toInt four := by decide +kernel
  rw [toInt_four] at h1
  unfold fmod4
  refine ⟨isFinite_pack _ _ hfin, sign_pack _ _ (lt_two_pow_63 hfin.le), ?_⟩
  rw [toInt_pack _ _ (lt_two_pow_63 hfin.le)]
  cases sign a <;> simp <;> omega

theorem zero_of_eq_zero {a : Binary64} (ha : isFinite a = true) (h : toInt a ≠ 0) : F64.eq a zero = false := by
  rw [Bool.eq_false_iff]
  intro hc
  exact h (by simpa [toInt_zero] using (eq_iff ha isFinite_zero).1 hc)

/-- For every finite order the reduced order lies in [0, 4), and a zero is `+0.0` (R142). -/
theorem floormod4_range {a : Binary64} (h : F64.isFinite a = true) :
    isFinite (floormod4 a) = true ∧ sign (floormod4 a) = false ∧ 0 ≤ toInt (floormod4 a) ∧
      toInt (floormod4 a) < 8 * halfUnits := by
  obtain ⟨hf, hs, hlo, hhi⟩ := fmod4_bound h
  have hp := halfUnits_pos
  unfold floormod4
  rw [not_isNaN_of_isFinite h, not_isInf_of_isFinite h]
  simp only [Bool.or_self, Bool.false_eq_true, if_false]
  -- the value before the two corrections: finite and in [0, 4]
  have key : ∀ r : Binary64, isFinite r = true → 0 ≤ toInt r → toInt r ≤ 8 * halfUnits →
      let r' := if F64.eq r four then zero else r
      let r'' := if F64.eq r' zero then zero else r'
      isFinite r'' = true ∧ sign r'' = false ∧ 0 ≤ toInt r'' ∧ toInt r'' < 8 * halfUnits := by
    intro r hr h0 h8
    have hz : isFinite zero = true ∧ sign zero = false ∧ 0 ≤ toInt zero ∧ toInt zero < 8 * halfUnits :=
      ⟨by decide, by decide, by rw [toInt_zero], by rw [toInt_zero]; omega⟩
    by_cases h4 : F64.eq r four = true
    · simp only [h4, if_true]
      split_ifs <;> exact hz
    · simp only [h4, Bool.false_eq_true, if_false]
      by_cases hzz : F64.eq r zero = true
      · simp only [hzz, if_true]; exact hz
      · simp only [hzz, Bool.false_eq_true, if_false]
        have h4' : toInt r ≠ 8 * halfUnits := by
          intro hc; exact h4 ((eq_iff hr isFinite_four).2 (by rw [toInt_four]; exact hc))
        have hz' : toInt r ≠ 0 := by
          intro hc; exact hzz ((eq_iff hr isFinite_zero).2 (by rw [toInt_zero]; exact hc))
        refine ⟨hr, ?_, h0, by omega⟩
        by_contra hc
        simp only [Bool.not_eq_false] at hc
        unfold toInt at h0 hz'
        rw [hc] at h0 hz'
        simp only [if_true] at h0 hz'
        omega
  by_cases hlt : F64.lt (fmod4 a) zero = true
  · simp only [hlt, if_true]
    have hneg : toInt (fmod4 a) < 0 := by
      have := (lt_iff hf isFinite_zero).1 hlt
      rwa [toInt_zero] at this
    obtain ⟨h1, h2, h3⟩ := add_between (lo := zero) (hi := four) hf isFinite_four isFinite_zero isFinite_four
      (by rw [toInt_zero, toInt_four]; omega) (by rw [toInt_four]; omega)
    rw [toInt_zero] at h2
    rw [toInt_four] at h3
    exact key _ h1 h2 h3
  · simp only [hlt, Bool.false_eq_true, if_false]
    have hnn : 0 ≤ toInt (fmod4 a) := by
      by_contra hc
      exact hlt ((lt_iff hf isFinite_zero).2 (by rw [toInt_zero]; omega))
    exact key _ hf hnn (by omega)

/-- A NaN or infinite order reduces to a NaN (R141). -/
theorem isNaN_floormod4 {a : Binary64} (h : F64.isFinite a = false) : isNaN (floormod4 a) = true := by
  unfold floormod4
  have : (F64.isNaN a || F64.isInf a) = true := by
    simp only [isFinite, isNaN, isInf, decide_eq_false_iff_not, Bool.or_eq_true, decide_eq_true_eq, beq_iff_eq] at *
    omega
  rw [if_pos this]
  exact isNaN_nanOf _ _ _

theorem toInt_sub (a b : Binary64) : toInt a + toInt (F64.neg b) = toInt a - toInt b := by
  rw [toInt_neg]; ring

/-- What range reduction does to a value in (0, 4), all three steps (R175, R176): the engine order lies in [0.5, 1.5], and steps 2 and
3 do not both fire. -/
theorem reduceOrder_range {a : Binary64} (hf : isFinite a = true) (h0 : 0 ≤ toInt a) (h4 : toInt a < 8 * halfUnits) :
    isFinite (reduceOrder a).ae = true ∧ (halfUnits : Int) ≤ toInt (reduceOrder a).ae ∧
      toInt (reduceOrder a).ae ≤ 3 * halfUnits := by
  have hp := halfUnits_pos
  -- step 1
  obtain ⟨f1, l1, u1⟩ : isFinite (reduceParity a).1 = true ∧ 0 ≤ toInt (reduceParity a).1 ∧
      toInt (reduceParity a).1 ≤ 4 * halfUnits := by
    unfold reduceParity
    split_ifs with h
    · have hgt := (lt_iff isFinite_two hf).1 h
      rw [toInt_two] at hgt
      have hb : isFinite (F64.neg two) = true := by decide
      obtain ⟨x1, x2, x3⟩ := add_between (lo := zero) (hi := two) hf hb isFinite_zero isFinite_two
        (by rw [toInt_sub, toInt_zero, toInt_two]; omega) (by rw [toInt_sub, toInt_two]; omega)
      rw [toInt_zero] at x2; rw [toInt_two] at x3
      exact ⟨x1, x2, x3⟩
    · have hle : ¬ (4 * (halfUnits : Int) < toInt a) := by
        intro hc; exact h ((lt_iff isFinite_two hf).2 (by rw [toInt_two]; exact hc))
      exact ⟨hf, h0, by simp only; omega⟩
  generalize ha1 : (reduceParity a).1 = a1 at *
  -- step 2
  obtain ⟨f2, l2, u2⟩ : isFinite (reduceForward a1).1 = true ∧ 0 ≤ toInt (reduceForward a1).1 ∧
      toInt (reduceForward a1).1 ≤ 3 * halfUnits := by
    unfold reduceForward
    split_ifs with h
    · have hgt := (lt_iff isFinite_oneHalf f1).1 h
      rw [toInt_oneHalf] at hgt
      have hb : isFinite (F64.neg one) = true := by decide
      obtain ⟨x1, x2, x3⟩ := add_between (lo := half) (hi := one) f1 hb isFinite_half isFinite_one
        (by rw [toInt_sub, toInt_half, toInt_one]; omega) (by rw [toInt_sub, toInt_one]; omega)
      rw [toInt_half] at x2; rw [toInt_one] at x3
      exact ⟨x1, le_trans (by omega) x2, le_trans x3 (by omega)⟩
    · have hle : ¬ (3 * (halfUnits : Int) < toInt a1) := by
        intro hc; exact h ((lt_iff isFinite_oneHalf f1).2 (by rw [toInt_oneHalf]; exact hc))
      exact ⟨f1, l1, by simp only; omega⟩
  generalize ha2 : (reduceForward a1).1 = a2 at *
  -- step 3
  have hae : (reduceOrder a).ae = (reduceInverse a2).1 := by
    show (reduceInverse (reduceForward (reduceParity a).1).1).1 = _; rw [ha1, ha2]
  rw [hae]
  unfold reduceInverse
  split_ifs with h
  · have hlt := (lt_iff f2 isFinite_half).1 h
    rw [toInt_half] at hlt
    obtain ⟨x1, x2, x3⟩ := add_between (lo := one) (hi := oneHalf) f2 isFinite_one isFinite_one isFinite_oneHalf
      (by rw [toInt_one]; omega) (by rw [toInt_one, toInt_oneHalf]; omega)
    rw [toInt_one] at x2; rw [toInt_oneHalf] at x3
    exact ⟨x1, le_trans (by omega) x2, x3⟩
  · have hge : ¬ (toInt a2 < (halfUnits : Int)) := by
      intro hc; exact h ((lt_iff f2 isFinite_half).2 (by rw [toInt_half]; exact hc))
    exact ⟨f2, by simp only; omega, u2⟩

theorem lt_of_isNaN_left {a b : Binary64} (h : isNaN a = true) : F64.lt a b = false := by simp [F64.lt, h]
theorem lt_of_isNaN_right {a b : Binary64} (h : isNaN b = true) : F64.lt a b = false := by simp [F64.lt, h]
theorem le_of_isNaN_left {a b : Binary64} (h : isNaN a = true) : F64.le a b = false := by simp [F64.le, h]
theorem le_of_isNaN_right {a b : Binary64} (h : isNaN b = true) : F64.le a b = false := by simp [F64.le, h]
theorem eq_of_isNaN_left {a b : Binary64} (h : isNaN a = true) : F64.eq a b = false := by simp [F64.eq, h]

/-- After step 2 has fired, step 3's test fails, for every binary64 value (R176). -/
theorem not_inverse_after_forward {a : Binary64} (h : F64.lt oneHalf a = true) : F64.lt (F64.sub a one) half = false := by
  have hnan : isNaN a = false := by
    rw [Bool.eq_false_iff]; intro hc; rw [lt_of_isNaN_right hc] at h; exact Bool.noConfusion h
  by_cases hf : isFinite a = true
  · have hgt := (lt_iff isFinite_oneHalf hf).1 h
    rw [toInt_oneHalf] at hgt
    have hp := halfUnits_pos
    have hb : isFinite (F64.neg one) = true := by decide
    have hrange := add_between (lo := half) (hi := a) hf hb isFinite_half hf
      (by rw [toInt_sub, toInt_half, toInt_one]; omega) (by rw [toInt_sub, toInt_one]; omega)
    obtain ⟨x1, x2, -⟩ := hrange
    rw [Bool.eq_false_iff]
    intro hc
    have := (lt_iff x1 isFinite_half).1 hc
    exact absurd (lt_of_lt_of_le this x2) (lt_irrefl _)
  · -- an infinity: the difference is the infinity itself
    have hinf : isInf a = true := by
      simp only [isFinite, isNaN, isInf, decide_eq_true_eq, decide_eq_false_iff_not, beq_iff_eq] at *
      omega
    have hb1 : isNaN (F64.neg one) = false := by decide
    have hb2 : isInf (F64.neg one) = false := by decide
    have hs : F64.sub a one = a := by
      simp [F64.sub, F64.add, hnan, hb1, hb2, hinf]
    rw [hs]
    rw [Bool.eq_false_iff]
    intro hc
    simp only [F64.lt, hnan, Bool.not_false, Bool.true_and, Bool.and_true, Bool.and_eq_true,
      Bool.not_eq_true', decide_eq_true_eq] at h hc
    have hk : key half < key oneHalf := by decide
    omega

/-- Steps 2 and 3 never both fire (R32, R176). -/
theorem reduceOrder_not_both (a : Binary64) : ((reduceOrder a).f && (reduceOrder a).i) = false := by
  unfold reduceOrder
  simp only
  generalize (reduceParity a).1 = a1
  unfold reduceForward
  split_ifs with h
  · unfold reduceInverse
    simp only
    rw [not_inverse_after_forward h]
    rfl
  · rfl

/-- A NaN order goes through the reducer unchanged (R175). -/
theorem reduceOrder_of_isNaN {a : Binary64} (h : isNaN a = true) : reduceOrder a = ⟨a, a, .general, false, false, false⟩ := by
  have h1 : F64.lt two a = false := lt_of_isNaN_right h
  have h2 : F64.lt oneHalf a = false := lt_of_isNaN_right h
  have h3 : F64.lt a half = false := lt_of_isNaN_left h
  simp [reduceOrder, reduceParity, reduceForward, reduceInverse, h1, h2, h3]

theorem classify_of_isNaN {a : Binary64} (h : isNaN a = true) : classify a = .general := by
  simp [classify, eq_of_isNaN_left h]

/-- The dispatch of a NaN or infinite order: GENERAL, no step, a NaN engine order (R155, R175). -/
theorem dispatchOrder_nonfinite {a : Binary64} (h : isFinite a = false) :
    dispatchOrder a = ⟨floormod4 a, floormod4 a, .general, false, false, false⟩ := by
  have hn := isNaN_floormod4 h
  simp [dispatchOrder, classify_of_isNaN hn, reduceOrder_of_isNaN hn]

theorem reduceOrder_cls (a : Binary64) : (reduceOrder a).cls = .general := rfl

theorem dispatchOrder_cls (a : Binary64) : (dispatchOrder a).cls = classify (floormod4 a) := by
  unfold dispatchOrder
  split_ifs with h
  · rw [h, reduceOrder_cls]
  · rfl

theorem dispatchOrder_ar (a : Binary64) : (dispatchOrder a).ar = floormod4 a := by
  unfold dispatchOrder
  split_ifs <;> rfl

/-- The dispatch of a GENERAL-class order is the reducer's record. -/
theorem dispatchOrder_general {a : Binary64} (h : classify (floormod4 a) = .general) :
    dispatchOrder a = reduceOrder (floormod4 a) := by
  rw [dispatchOrder, if_pos h]

/-- The dispatch of a special-class order: the engine order is the reduced order and no step fires (R152). -/
theorem dispatchOrder_special {a : Binary64} (h : classify (floormod4 a) ≠ .general) :
    dispatchOrder a = ⟨floormod4 a, floormod4 a, classify (floormod4 a), false, false, false⟩ := by
  rw [dispatchOrder, if_neg h]

/-- The engine order of a finite GENERAL-class order passes the interval test (R175). -/
theorem inEngineRange_dispatch {a : Binary64} (hf : isFinite a = true) (hc : (dispatchOrder a).cls = .general) :
    inEngineRange (dispatchOrder a).ae = true := by
  rw [dispatchOrder_cls] at hc
  rw [dispatchOrder_general hc]
  obtain ⟨f, -, l, u⟩ := floormod4_range hf
  obtain ⟨f', l', u'⟩ := reduceOrder_range f l u
  unfold inEngineRange
  rw [Bool.and_eq_true]
  refine ⟨(le_iff isFinite_half f').2 ?_, (le_iff f' isFinite_oneHalf).2 ?_⟩
  · rw [toInt_half]; exact l'
  · rw [toInt_oneHalf]; exact u'

theorem inEngineRange_nonfinite {a : Binary64} (h : isFinite a = false) : inEngineRange (dispatchOrder a).ae = false := by
  rw [dispatchOrder_nonfinite h]
  unfold inEngineRange
  rw [le_of_isNaN_right (isNaN_floormod4 h)]
  rfl

/-- The record of every dispatch is legal: no flag outside class GENERAL, F and I never both (R32). -/
theorem dispatchOrder_flags (a : Binary64) :
    ((dispatchOrder a).cls ≠ .general →
      (dispatchOrder a).p = false ∧ (dispatchOrder a).f = false ∧ (dispatchOrder a).i = false) ∧
    ((dispatchOrder a).f && (dispatchOrder a).i) = false := by
  by_cases h : classify (floormod4 a) = .general
  · rw [dispatchOrder_general h]
    exact ⟨fun hc => absurd (reduceOrder_cls _) hc, reduceOrder_not_both _⟩
  · rw [dispatchOrder_special h]
    exact ⟨fun _ => ⟨rfl, rfl, rfl⟩, rfl⟩

end Sys2Proof.Machine
end

