-- ==== Sys2Proof/Laws/PerInstr.lean ====
section
/-! SUPPORT. Statements made for every instruction, one lemma per constructor. -/

namespace Sys2Proof.Laws.LegalWord

/-- The instruction is well formed, its word is a legal command word and has no bit above bit 3 (R100, R101, R107). -/
def Statement (i : Instr) : Prop :=
  i.wellFormed = true ∧ wellFormedWord (encode i) = true ∧ (encode i).toNat < 16

theorem nop : Statement .nop := by unfold Statement; decide
theorem frft : Statement .frft := by unfold Statement; decide
theorem ifrft : Statement .ifrft := by unfold Statement; decide
theorem reduce : Statement .reduce := by unfold Statement; decide
theorem interp : Statement .interp := by unfold Statement; decide
theorem engine : Statement .engine := by unfold Statement; decide

end Sys2Proof.Laws.LegalWord
end

