-- ==== Sys2Proof/Laws/Reference.lean ====
section
/-! SUPPORT. Exact values of binary64 operands against the real numbers of the reference semantics (R8, R14). -/

namespace Sys2Proof.Machine.Reference

open F64

theorem value_eq (a : Binary64) : value a = (toInt a : ℝ) / (2 * (halfUnits : ℝ)) := by
  rw [value, halfUnits_eq, show (1074 : ℕ) = 1073 + 1 by rfl, pow_succ]
  push_cast
  exact congrArg _ (mul_comm _ _)

theorem twoHalfUnits_pos : (0 : ℝ) < 2 * (halfUnits : ℝ) := by
  have := halfUnits_pos
  positivity

theorem value_lt_iff (a b : Binary64) : value a < value b ↔ toInt a < toInt b := by
  rw [value_eq, value_eq, div_lt_div_iff_of_pos_right twoHalfUnits_pos]
  exact_mod_cast Iff.rfl

theorem value_eq_iff (a b : Binary64) : value a = value b ↔ toInt a = toInt b := by
  rw [value_eq, value_eq, div_left_inj' twoHalfUnits_pos.ne']
  exact_mod_cast Iff.rfl

/-- Comparison of finite values is comparison of the reals they stand for (R11). -/
theorem lt_eq_decide {a b : Binary64} (ha : F64.isFinite a = true) (hb : F64.isFinite b = true) :
    F64.lt a b = decide (value a < value b) := by
  rw [Bool.eq_iff_iff, lt_iff ha hb, decide_eq_true_iff, value_lt_iff]

theorem eq_eq_decide {a b : Binary64} (ha : F64.isFinite a = true) (hb : F64.isFinite b = true) :
    F64.eq a b = decide (value a = value b) := by
  rw [Bool.eq_iff_iff, eq_iff ha hb, decide_eq_true_iff, value_eq_iff]

theorem value_of_halves {a : Binary64} {k : ℤ} (h : toInt a = k * halfUnits) : value a = k / 2 := by
  have h3 : (halfUnits : ℝ) ≠ 0 := by
    have := halfUnits_pos
    positivity
  rw [value_eq, h]
  push_cast
  rw [mul_comm (2 : ℝ), mul_comm (k : ℝ), mul_div_mul_left _ _ h3]

theorem value_zero : value zero = 0 := by rw [value_of_halves (k := 0) (by rw [toInt_zero]; simp)]; norm_num
theorem value_half : value half = 1 / 2 := by rw [value_of_halves (k := 1) (by rw [toInt_half]; simp)]; norm_num
theorem value_one : value one = 1 := by rw [value_of_halves (k := 2) (by rw [toInt_one])]; norm_num
theorem value_oneHalf : value oneHalf = 3 / 2 := by rw [value_of_halves (k := 3) (by rw [toInt_oneHalf])]; norm_num
theorem value_two : value two = 2 := by rw [value_of_halves (k := 4) (by rw [toInt_two])]; norm_num
theorem value_three : value three = 3 := by rw [value_of_halves (k := 6) (by rw [toInt_three])]; norm_num
theorem value_four : value four = 4 := by rw [value_of_halves (k := 8) (by rw [toInt_four])]; norm_num

/-- The centred transform reads its input inside its length only. -/
theorem centredValue_congr (s : ℤ) {n : ℕ} {f g : ℕ → ℂ} (h : ∀ m, m < n → f m = g m) :
    centredValue s n f = centredValue s n g := by
  funext m
  unfold centredValue
  congr 1
  exact Finset.sum_congr rfl fun j hj => by rw [h j (Finset.mem_range.1 hj)]

/-- So does the engine. -/
theorem engineValue_congr (a : ℝ) {n : ℕ} {f g : ℕ → ℂ} (h : ∀ m, m < n → f m = g m) :
    engineValue n f a = engineValue n g a := by
  funext m
  unfold engineValue
  congr 1
  refine Finset.sum_congr rfl fun l _ => ?_
  congr 2
  unfold interpValue
  exact Finset.sum_congr rfl fun j hj => by rw [h j (Finset.mem_range.1 hj)]

end Sys2Proof.Machine.Reference
end

