-- ==== Sys2Proof/Laws/Schedule.lean ====
section
/-! SUPPORT. The schedule: due turns come up in order and for ever, and every step of every agent uses up exactly one choice of agent
(R310; log entry 7). -/

namespace Sys2Proof.Machine

theorem turnTime_strictMono : StrictMono turnTime :=
  strictMono_nat_of_lt_succ fun k => by show turnTime k < turnTime k + 1 + _; omega

theorem le_turnTime (k : Nat) : k ≤ turnTime k := turnTime_strictMono.id_le k

/-- At the step count of a due turn, its agent is scheduled. -/
theorem scheduled_turnTime (k : Nat) : scheduled (turnTime k) = turnAgent k := by
  have hk := le_turnTime k
  have : ((List.range (turnTime k + 1)).find? fun j => turnTime j == turnTime k) = some k := by
    cases hf : (List.range (turnTime k + 1)).find? fun j => turnTime j == turnTime k with
    | none => simpa using List.find?_eq_none.1 hf k (List.mem_range.2 (by omega))
    | some j =>
      have hj : turnTime j = turnTime k := by simpa using List.find?_some hf
      rw [turnTime_strictMono.injective hj]
  rw [scheduled, this]

theorem turnAgent_mod (k : Nat) : turnAgent (k % 4) = turnAgent k := by unfold turnAgent; rw [Nat.mod_mod]

/-- Each of the four agents in rotation has a due turn after any step count. -/
theorem turn_recurs {i : Nat} (hi : i < 4) (t : Nat) : ∃ k, t ≤ turnTime k ∧ turnAgent k = turnAgent i := by
  refine ⟨4 * t + i, by have := le_turnTime (4 * t + i); omega, ?_⟩
  rw [← turnAgent_mod, show (4 * t + i) % 4 = i by omega]

/-- Two states that stand at the same choice of agent. -/
def SameChoice (s t : State) : Prop := t.agenda = s.agenda ∧ t.ticks = s.ticks

theorem SameChoice.of {s u t : State} (h : SameChoice u t) (h1 : u.agenda = s.agenda) (h2 : u.ticks = s.ticks) :
    SameChoice s t := ⟨h.1.trans h1, h.2.trans h2⟩

theorem sameChoice_refl (s : State) : SameChoice s s := ⟨rfl, rfl⟩

theorem sameChoice_complete (r : Except ErrCode (List Sample)) (s : State) : SameChoice s (complete r s) := by
  cases r <;> exact ⟨rfl, rfl⟩

theorem sameChoice_orderWrites (s : State) : SameChoice s (orderWrites s) := by
  unfold orderWrites
  split <;> (try split) <;> exact ⟨rfl, rfl⟩

theorem sameChoice_startEngine (s : State) : SameChoice s (startEngine s) := by
  unfold startEngine
  split
  · exact ⟨rfl, rfl⟩
  · exact sameChoice_orderWrites s

theorem sameChoice_stageLength {next : State → State} (hn : ∀ s, SameChoice s (next s)) (s : State) :
    SameChoice s (stageLength next s) := by
  unfold stageLength
  split
  · exact ⟨rfl, rfl⟩
  · exact ⟨rfl, rfl⟩
  · exact ⟨rfl, rfl⟩
  · exact (hn _).of rfl rfl

theorem sameChoice_reduceStep3 (s : State) : SameChoice s (reduceStep3 s) := by
  unfold reduceStep3
  dsimp only
  split
  · exact ⟨rfl, rfl⟩
  · exact (sameChoice_startEngine _).of rfl rfl

theorem sameChoice_reduceStep12 (s : State) : SameChoice s (reduceStep12 s) := by
  unfold reduceStep12
  dsimp only
  split
  · exact ⟨rfl, rfl⟩
  · exact (sameChoice_reduceStep3 _).of rfl rfl

theorem sameChoice_stageCheck (s : State) : SameChoice s (stageCheck s) := by
  have hg : ∀ s, SameChoice s (goStage .dispatch s) := fun s => ⟨rfl, rfl⟩
  have hi : ∀ s, SameChoice s (issueInterp s) := fun s => ⟨rfl, rfl⟩
  unfold stageCheck
  split
  · exact ⟨rfl, rfl⟩
  · exact ⟨rfl, rfl⟩
  · exact ⟨rfl, rfl⟩
  · exact sameChoice_stageLength hg s
  · exact sameChoice_stageLength hg s
  · exact sameChoice_stageLength hi s
  · exact sameChoice_stageLength sameChoice_startEngine s

theorem sameChoice_stageDispatch (s : State) : SameChoice s (stageDispatch s) := by
  unfold stageDispatch
  dsimp only
  split <;> exact ⟨rfl, rfl⟩

theorem sameChoice_stageReduce (s : State) : SameChoice s (stageReduce s) := by
  unfold stageReduce
  split
  · dsimp only
    split
    · exact (sameChoice_orderWrites (setOrder (dispatchOrder s.snap.a0) s)).of rfl rfl
    · exact ⟨rfl, rfl⟩
  · split
    · exact sameChoice_reduceStep3 s
    · exact sameChoice_reduceStep12 s
  · split
    · exact sameChoice_reduceStep3 s
    · exact sameChoice_reduceStep12 s
  all_goals exact sameChoice_refl s

theorem sameChoice_fftArrived (g : List Sample) (s : State) : SameChoice s (fftArrived g s) := by
  unfold fftArrived
  dsimp only
  split <;> try exact ⟨rfl, rfl⟩
  split
  · exact (sameChoice_startEngine _).of rfl rfl
  · exact ⟨rfl, rfl⟩

theorem sameChoice_stageStep (s : State) : SameChoice s (stageStep s) := by
  unfold stageStep onResponse
  split
  · exact sameChoice_refl s
  · exact sameChoice_stageCheck s
  · exact sameChoice_stageDispatch s
  · exact sameChoice_stageReduce s
  · split
    · exact sameChoice_refl s
    · exact sameChoice_fftArrived _ s
  · split
    · exact sameChoice_refl s
    · unfold interpArrived; dsimp only; split <;> exact ⟨rfl, rfl⟩
  · split <;> exact ⟨rfl, rfl⟩
  · exact sameChoice_orderWrites s

theorem sameChoice_dataCommand {short : State → State} {body : List Sample → State → State}
    (h1 : ∀ s, SameChoice s (short s)) (h2 : ∀ f s, SameChoice s (body f s)) (s : State) :
    SameChoice s (dataCommand short body s) := by
  rcases dataCommand_cases short body s with ⟨_, e⟩ | ⟨_, e⟩ | ⟨_, e⟩ | ⟨_, _, e⟩ <;> rw [e]
  · exact ⟨rfl, rfl⟩
  · exact ⟨rfl, rfl⟩
  · exact h1 s
  · exact (h2 _ _).of rfl rfl

theorem sameChoice_transformAt (a : Binary64) (s : State) : SameChoice s (transformAt a s) :=
  sameChoice_dataCommand (short := fun s => finishShort { s with path := .short })
    (body := fun f s => complete (transformResult Config.num (dispatchOrder a) f) (writeOrder (dispatchOrder a) s))
    (fun _ => ⟨rfl, rfl⟩) (fun _ _ => (sameChoice_complete _ _).of rfl rfl) s

theorem sameChoice_exec {i : Instr} {s t : State} (h : exec i s = .next t) : SameChoice s t := by
  have hs : ∀ s, SameChoice s (finishShort s) := fun s => ⟨rfl, rfl⟩
  cases i <;> injection h with h <;> subst h
  · exact ⟨rfl, rfl⟩
  · exact sameChoice_transformAt _ s
  · exact sameChoice_transformAt _ s
  · unfold reduceFinish
    split <;> exact ⟨rfl, rfl⟩
  · exact sameChoice_dataCommand (body := fun f s => finish (sincinterp Config.num f) s) hs (fun _ _ => ⟨rfl, rfl⟩) s
  · exact sameChoice_dataCommand (body := fun f s' => complete (engineRun Config.num f s.snap.a0) s') hs
      (fun _ _ => sameChoice_complete _ _) s

theorem sameChoice_commandStep {s t : State} (h : commandStep s = .next t) : SameChoice s t := by
  unfold commandStep at h
  split at h <;> try (injection h with h; subst h; exact sameChoice_refl s)
  split at h
  · exact sameChoice_exec h
  · injection h with h
    subst h
    exact ⟨rfl, rfl⟩

theorem sameChoice_writeReg (r : Reg) (v : BitVec 64) (s : State) : SameChoice s (writeReg r v s) := by
  cases r <;> simp only [writeReg] <;> (try split) <;> exact ⟨rfl, rfl⟩

theorem sameChoice_writeRegAt (off : Nat) (v : BitVec 64) (s : State) : SameChoice s (writeRegAt off v s) := by
  unfold writeRegAt
  split
  · exact sameChoice_writeReg _ _ _
  · exact sameChoice_refl s

theorem sameChoice_hostStep (s : State) : SameChoice s (hostStep s) := by
  unfold hostStep
  split
  · exact sameChoice_refl s
  · unfold hostRead
    split
    · exact ⟨rfl, rfl⟩
    · split <;> exact ⟨rfl, rfl⟩
  · rename_i off _ v rest _
    unfold hostWrite
    split
    · exact ⟨rfl, rfl⟩
    · split
      · exact (sameChoice_writeRegAt off.toNat v { s with hostQueue := rest }).of rfl rfl
      · unfold writeXbuf
        split <;> exact ⟨rfl, rfl⟩
  · split <;> exact ⟨rfl, rfl⟩

theorem sameChoice_answer (r : CoreRequest) (s : State) : SameChoice s (answer r s) := by
  unfold answer
  split <;> exact ⟨rfl, rfl⟩

theorem sameChoice_fftCoreStep (s : State) : SameChoice s (fftCoreStep s) := by
  unfold fftCoreStep
  split
  · exact sameChoice_answer _ s
  · exact sameChoice_refl s
  · exact sameChoice_refl s

theorem sameChoice_convCoreStep (s : State) : SameChoice s (convCoreStep s) := by
  unfold convCoreStep
  split
  · exact sameChoice_answer _ s
  · exact sameChoice_refl s
  · exact sameChoice_refl s

theorem sameChoice_agentStep {a : Agent} {s t : State} (h : agentStep a s = .next t) : SameChoice s t := by
  cases a with
  | command => exact sameChoice_commandStep h
  | host => injection h with h; subst h; exact sameChoice_hostStep s
  | stage => injection h with h; subst h; exact sameChoice_stageStep s
  | fftCore => injection h with h; subst h; exact sameChoice_fftCoreStep s
  | convCore => injection h with h; subst h; exact sameChoice_convCoreStep s
  | reset => injection h with h; subst h; exact ⟨rfl, rfl⟩

/-- Every step uses up the agenda's first choice, if there is one, and counts one. -/
theorem step_choice {s t : State} (h : step s = .next t) : t.agenda = s.agenda.tail ∧ t.ticks = s.ticks + 1 := by
  unfold step at h
  split at h
  · cases h
  · exact sameChoice_agentStep h

/-- A run goes on from its first step's state. -/
theorem runFrom_succ {s t : State} (h : step s = .next t) (k : Nat) : runFrom s (k + 1) = runFrom t k := by
  induction k with
  | zero => simp [runFrom, h]
  | succ k ih => rw [runFrom, ih]; rfl

/-- A command never refuses or faults. -/
theorem exec_next (i : Instr) (s : State) : ∃ t, exec i s = .next t := by cases i <;> exact ⟨_, rfl⟩

theorem commandStep_next (s : State) : ∃ t, commandStep s = .next t := by
  unfold commandStep
  split <;> try exact ⟨_, rfl⟩
  split
  · exact exec_next _ _
  · exact ⟨_, rfl⟩

theorem agentStep_next (a : Agent) (s : State) : ∃ t, agentStep a s = .next t := by
  cases a with
  | command => exact commandStep_next s
  | host => exact ⟨_, rfl⟩
  | stage => exact ⟨_, rfl⟩
  | fftCore => exact ⟨_, rfl⟩
  | convCore => exact ⟨_, rfl⟩
  | reset => exact ⟨_, rfl⟩

/-- A step answers a next state wherever no response stands without a request (U11). -/
theorem step_next {s : State} (h : staleResponse s = false) : ∃ t, step s = .next t := by
  rw [step, if_neg (by simp [h])]
  exact agentStep_next _ _

end Sys2Proof.Machine
end

