-- ==== Sys2Proof/Laws/Stages.lean ====
section
/-! SUPPORT. One lemma per move of the pipeline: which agent moves, and to what state. -/

namespace Sys2Proof.Machine

/-- With nothing outstanding the sequencer moves. -/
theorem pipelineStep_of_none {s : State} (h : s.pend = none) : pipelineStep s = stageStep s := by simp [pipelineStep, h]

/-- With a response there the sequencer moves. -/
theorem pipelineStep_of_response {s : State} {g : List Sample} (h : s.coreResp = some g) : pipelineStep s = stageStep s := by
  unfold pipelineStep
  rw [h]
  cases s.pend with
  | none => rfl
  | some r => cases r <;> rfl

/-- With an FFT request unanswered the FFT core moves. -/
theorem pipelineStep_of_fft {s : State} {dir : Dir} {x : List Sample} (h : s.pend = some (.fft dir x)) (h' : s.coreResp = none) :
    pipelineStep s = { s with coreResp := some (fftResponse Config.num dir x) } := by
  simp [pipelineStep, h, h', fftCoreStep, answer, respond]

/-- With a convolution request unanswered the convolution core moves. -/
theorem pipelineStep_of_conv {s : State} {p q : List Sample} (h : s.pend = some (.conv p q)) (h' : s.coreResp = none) :
    pipelineStep s = { s with coreResp := some (convResponse Config.num p q) } := by
  simp [pipelineStep, h, h', convCoreStep, answer, respond]

theorem stageStep_fftWait {s : State} {g : List Sample} (h : s.seq = .run .fftWait) (h' : s.coreResp = some g) :
    stageStep s = fftArrived g s := by simp [stageStep, h, onResponse, h']

theorem stageStep_interpWait {s : State} {g : List Sample} (h : s.seq = .run .interpWait) (h' : s.coreResp = some g) :
    stageStep s = interpArrived g s := by simp [stageStep, h, onResponse, h']

theorem stageStep_chirpWait {s : State} {g : List Sample} (h : s.seq = .run .chirpWait) (h' : s.coreResp = some g) :
    stageStep s = chirpArrived g s := by simp [stageStep, h, onResponse, h']

/-- A completion overwrites the pipeline's registers and the outcome: states that agree elsewhere complete alike. -/
theorem complete_congr (r : Except ErrCode (List Sample)) {s t : State} (h1 : t.ie = s.ie) (h2 : t.ovr = s.ovr)
    (h3 : t.lastop = s.lastop) (h4 : t.cmd = s.cmd) (h5 : t.len = s.len) (h6 : t.order = s.order)
    (h7 : t.orderRed = s.orderRed) (h8 : t.orderEng = s.orderEng) (h9 : t.path = s.path) (h10 : t.mem = s.mem)
    (h11 : t.snap = s.snap) (h12 : t.draws = s.draws) (h13 : t.hostQueue = s.hostQueue) (h14 : t.responses = s.responses)
    (h15 : t.hostFaults = s.hostFaults) (h16 : t.agenda = s.agenda) (h17 : t.ticks = s.ticks) :
    complete r t = complete r s := by
  cases r <;>
    simp [complete, finish, raiseErr, goIdle, h1, h2, h3, h4, h5, h6, h7, h8, h9, h10, h11, h12, h13, h14, h15, h16, h17]

/-- The reducer's record of every dispatch is settled (R176). -/
theorem recordSettled_dispatch (a : Binary64) : recordSettled (dispatchOrder a) := by
  refine ⟨dispatchOrder_flags a, ?_⟩
  by_cases hc : classify (floormod4 a) = .general
  · rw [dispatchOrder_general hc]
    unfold reduceOrder
    dsimp only
    generalize (reduceParity (floormod4 a)).1 = r1
    unfold reduceForward
    split
    · intro _
      have := not_inverse_after_forward ‹_›
      dsimp only
      unfold reduceInverse
      rw [this]; exact this
    · simp
  · rw [dispatchOrder_special hc]; simp

theorem recordSettled_empty : recordSettled Work.empty.order := ⟨⟨fun _ => ⟨rfl, rfl, rfl⟩, rfl⟩, by simp [Work.empty]⟩

/-- An error completion leaves a coherent state, from every state whose buffers, LASTOP and PATH are (R127). -/
theorem coherent_raiseErr {s : State} (c : ErrCode) (h1 : s.mem.wf = true)
    (h2 : ∀ c ∈ s.mem, inXbuf c.1 = true ∨ inYbuf c.1 = true) (h3 : s.lastop = opField s.cmd) (h4 : pathLegal s.path) :
    Coherent (raiseErr c s) :=
  ⟨h1, h2, by simp [raiseErr], by simp [raiseErr], h3, by simp [raiseErr], ⟨rfl, rfl⟩, by simp [raiseErr],
    recordSettled_empty, h4, by simp [raiseErr, goIdle]⟩

/-- A successful completion leaves a coherent state, from every state whose buffers, LASTOP and PATH are (R126). -/
theorem coherent_finish {s : State} {r : List Sample} (hl : r.length ≤ Config.ycap) (h1 : s.mem.wf = true)
    (h2 : ∀ c ∈ s.mem, inXbuf c.1 = true ∨ inYbuf c.1 = true) (h3 : s.lastop = opField s.cmd) (h4 : pathLegal s.path) :
    Coherent (finish r s) := by
  refine ⟨Memory.wf_writeSamples _ _ _ h1, ?_, by simp [finish], by simp [finish], h3, by simp [finish], ⟨rfl, rfl⟩,
    by simp [finish], recordSettled_empty, h4, by rw [outlen_finish _ hl]; exact hl⟩
  intro c hc
  rcases Memory.mem_writeSamples _ _ _ _ hc with hc | hc
  · exact h2 c hc
  · right
    simp only [inYbuf, Bool.and_eq_true, decide_eq_true_eq]
    unfold yAddr at hc
    omega

end Sys2Proof.Machine
end

