-- ==== Sys2Proof/Tests/Slice0.lean ====
section
/-! SUPPORT. Small tests, their expected values from spec/30_encoding.md and spec/95_test_vectors.md, and one witness for every obligation
that has hypotheses. -/

namespace Sys2Proof.Tests

open Sys2Proof.Machine

/-! ### Encoding -/

/-- Each word is written out bit by bit from R100 and R102: bits 63:4 zero, bits 3:0 the opcode. -/
theorem test_decode_nop : decode (0b000000000000000000000000000000000000000000000000000000000000#60 ++ 0b0000#4) = .ok .nop := by decide
theorem test_decode_frft : decode (0b000000000000000000000000000000000000000000000000000000000000#60 ++ 0b0001#4) = .ok .frft := by decide
theorem test_decode_ifrft : decode (0b000000000000000000000000000000000000000000000000000000000000#60 ++ 0b0010#4) = .ok .ifrft := by decide
theorem test_decode_reduce : decode (0b000000000000000000000000000000000000000000000000000000000000#60 ++ 0b0011#4) = .ok .reduce := by decide
theorem test_decode_interp : decode (0b000000000000000000000000000000000000000000000000000000000000#60 ++ 0b0100#4) = .ok .interp := by decide
theorem test_decode_engine : decode (0b000000000000000000000000000000000000000000000000000000000000#60 ++ 0b0101#4) = .ok .engine := by decide

/-- VX11 to VX14, and bytes that are no 64-bit word (R62). -/
theorem test_decode_reserved :
    decode 0x6 = .rejected (.reservedOpcode 6) ∧ decode 0xF = .rejected (.reservedOpcode 15) ∧
      decode 0x11 = .rejected .reservedBits ∧ decode 0x8000000000000000 = .rejected .reservedBits ∧
      decodeBytes [1, 0, 0, 0] = .rejected (.notOneWord 4) := by decide

/-- Bytes come lowest address first (R60). -/
theorem test_decode_bytes : decodeBytes [5, 0, 0, 0, 0, 0, 0, 0] = .ok .engine ∧
    decodeBytes [0, 0, 0, 0, 0, 0, 0, 5] = .rejected .reservedBits := by decide

/-- The WellFormed smoke test: an ill-formed word for each check. -/
theorem test_wellformed_refuses :
    rsvClear 0x10 = false ∧ rsvClear 0x8000000000000000 = false ∧ opDefined 0x6 = false ∧ opDefined 0xF = false ∧
      wellFormedWord 0x10 = false ∧ wellFormedWord 0x6 = false ∧ wellFormedWord 0x5 = true ∧ Instr.wellFormed .engine = true := by
  decide

theorem test_decodeTableWord : decodeTableWord 64 0x2 = some .ifrft ∧ decodeTableWord 64 0x7 = none := by decide

/-- The script notation expands as R106 says. -/
theorem test_script_frft :
    Script.frft 4 F64.two = [.write 0x028 8 4, .write 0x030 8 0x4000000000000000, .write 0x020 8 1, .wait] := by decide

theorem test_port_offset (off : BitVec 32) : portOffset (busAddress off) = off := by
  unfold portOffset busAddress
  rw [BitVec.add_comm, BitVec.add_sub_cancel]

/-! ### States -/

/-- The host about to make one access in a state. -/
def hostNext (s : State) (a : HostAccess) : State := { s with hostQueue := [a], agenda := [.host] }

/-- An accepted command about to run. -/
def accepted (i : Instr) (n : BitVec 32) (a : Binary64) (m : Memory) : State :=
  { State.reset with
    busy := true
    cmd := encode i
    lastop := opField (encode i)
    len := n
    order := a
    seq := .run .check
    snap := ⟨.legal i, n, a⟩
    mem := m
    agenda := [.command] }

/-- The four samples of scenarios 2 and 3. -/
def four : List Sample := [⟨F64.one, 0⟩, ⟨F64.two, 0⟩, ⟨F64.three, 0⟩, ⟨F64.four, 0⟩]

/-- XBUF holding those samples. -/
def fourX : Memory := Memory.writeSamples [] (xAddr 0) four

/-- A numerics record that numbers the elements of a convolution, and whose sine is 1.0. -/
def probe : Numerics :=
  ⟨fun _ x k => elem x k, fun _ _ t => ⟨BitVec.ofNat 64 t, 0⟩, fun _ => F64.two, fun _ => F64.one, fun _ => F64.one,
    fun _ => ⟨F64.one, 0⟩, fun _ => F64.one, 0x400921FB54442D18⟩

theorem four_le_nmax : 4 ≤ Config.nmax := le_trans (by decide) nmax_ge

theorem fourX_wf : fourX.wf = true := by decide

theorem host_turn (s : State) (a : HostAccess) (h : staleResponse s = false) : HostTurn (hostNext s a) a [] := ⟨h, rfl, rfl⟩

/-! ### One step of each instruction -/

/-- VL1. -/
theorem test_nop : ∃ t, step (State.reset.withFetchWord 64 0) = .next t ∧ statusWord t = 0x2 ∧ t.cmd = 0 := ⟨_, rfl, by decide⟩

/-- Scenario 2: parity at order 2.0. -/
theorem test_frft_parity : ∃ t, exec .frft (accepted .frft 4 F64.two fourX) = .next t ∧
    (List.range 4).map (fun e => t.mem.readSample (yAddr e)) = four.reverse.map some ∧ statusWord t = 0x1002 ∧
    pathWord t.path = 0x02 ∧ t.outlen = 4 :=
  ⟨_, congrArg Host.Outcome.next (transformAt_normal (by decide) four_le_nmax), by decide +kernel⟩

/-- VX5: N = 1 copies the sample whatever the order. -/
theorem test_frft_short : ∃ t, exec .frft (accepted .frft 1 0x7FF8000000000000 fourX) = .next t ∧
    t.mem.readSample (yAddr 0) = some ⟨F64.one, 0⟩ ∧ statusWord t = 0x1002 ∧ pathWord t.path = 0x06 := by
  refine ⟨_, rfl, ?_⟩
  rw [transformAt, dataCommand, show lengthOperand (accepted .frft 1 0x7FF8000000000000 fourX) = 1 from rfl, lengthCase_one]
  decide +kernel

/-- VX9: `1e-20` negated reduces to `+0.0`, the identity. -/
theorem test_ifrft_identity : ∃ t, exec .ifrft (accepted .ifrft 4 0x3BC79CA10C924223 fourX) = .next t ∧
    (List.range 4).map (fun e => t.mem.readSample (yAddr e)) = four.map some ∧ statusWord t = 0x2002 ∧ pathWord t.path = 0x01 :=
  ⟨_, congrArg Host.Outcome.next (transformAt_normal (by decide) four_le_nmax), by decide +kernel⟩

/-- VX2: the length is checked before the order. -/
theorem test_ifrft_empty : ∃ t, exec .ifrft (accepted .ifrft 0 0x7FF8000000000000 fourX) = .next t ∧ statusWord t = 0x210A :=
  ⟨_, rfl, by decide⟩

/-- VF26: steps P and I. -/
theorem test_reduce_steps : ∃ t, exec .reduce (accepted .reduce 0 0x4002666666666666 []) = .next t ∧
    t.orderRed = 0x4002666666666666 ∧ t.orderEng = 0x3FF4CCCCCCCCCCCC ∧ pathWord t.path = 0x55 ∧ statusWord t = 0x3002 :=
  ⟨_, rfl, by decide +kernel⟩

/-- VF34: a negative order, steps P and F. -/
theorem test_reduce_negative : ∃ t, exec .reduce (accepted .reduce 0 0xBFD3333333333333 []) = .next t ∧
    t.orderRed = 0x400D99999999999A ∧ t.orderEng = 0x3FE6666666666668 ∧ pathWord t.path = 0x35 ∧ statusWord t = 0x3002 :=
  ⟨_, rfl, by decide +kernel⟩

/-- VI7. -/
theorem test_interp_empty : ∃ t, exec .interp (accepted .interp 0 0 fourX) = .next t ∧ statusWord t = 0x410A :=
  ⟨_, rfl, by decide⟩

/-- The output window for N = 2 is `w[1 .. 3]` of a response of five samples (section 2.5). -/
theorem test_interp_window : sincinterp probe [⟨F64.one, 0⟩, ⟨F64.three, 0⟩] = [⟨1, 0⟩, ⟨2, 0⟩, ⟨3, 0⟩] ∧
    zeroStuff [⟨F64.one, 0⟩, ⟨F64.three, 0⟩] = [⟨F64.one, 0⟩, Sample.zero, ⟨F64.three, 0⟩] := by decide

/-- VE9: the guard fails one step below 0.5. -/
theorem test_engine_guard : ∃ t, exec .engine (accepted .engine 2 0x3FDFFFFFFFFFFFFF fourX) = .next t ∧
    statusWord t = 0x520A ∧ t.outlen = 0 ∧ t.mem = fourX :=
  ⟨_, congrArg Host.Outcome.next (dataCommand_normal (by decide) (le_trans (by decide) nmax_ge)), by decide +kernel⟩

/-- For N = 2 the window is `w[4 .. 8]` (section 2.6); 0.5 and 1.5 pass the guard. -/
theorem test_engine_window : slice ((List.range 13).map fun t => ⟨BitVec.ofNat 64 t, 0⟩) (4 * 2 - 4) (4 * 2 - 3) =
      [⟨4, 0⟩, ⟨5, 0⟩, ⟨6, 0⟩, ⟨7, 0⟩, ⟨8, 0⟩] ∧
    guardPasses probe F64.half = true ∧ guardPasses probe F64.oneHalf = true ∧ guardPasses probe 0x3FF8000000000001 = false := by
  decide +kernel

/-! ### Binary64 -/

/-- `1.0 / 2.8284271247461903` rounds to `0x3FD6A09E667F3BCC` (section 1.1), and pi / 8 is exact (section 2.6). -/
theorem test_div : F64.div F64.one 0x4006A09E667F3BCD = 0x3FD6A09E667F3BCC ∧
    F64.div 0x400921FB54442D18 (F64.mul (F64.mul F64.four F64.two) F64.one) = 0x3FD921FB54442D18 := by decide +kernel

/-- VF17, VF24: a sum that rounds up, and an exact difference. -/
theorem test_add : F64.add 0x3FDFFFFFFFFFFFFF F64.one = F64.oneHalf ∧ F64.sub 0x3FF8000000000001 F64.one = 0x3FE0000000000002 := by
  decide +kernel

/-! ### Witnesses -/

theorem witness_StepRunsDecodedCommand :
    decode (tableWord 64 3) = .ok .reduce ∧ staleResponse (accepted .nop 0 0 []) = false ∧
      nextAgent (accepted .nop 0 0 []) = .command ∧ (accepted .nop 0 0 []).seq = .run .check ∧
      (accepted .nop 0 0 []).snap.op = .legal .nop := by decide

theorem witness_IllegalWord : decode (tableWord 64 0x6) = .rejected (.reservedOpcode 6) ∧
    decode (tableWord 64 0x8000000000000000) = .rejected .reservedBits := by decide

theorem witness_CmdWriteWhileIdle : HostTurn (hostNext State.reset (.write 0x020 8 1)) (.write 0x020 8 1) [] ∧
    (hostNext State.reset (.write 0x020 8 1)).busy = false := ⟨host_turn _ _ rfl, rfl⟩

theorem witness_BusyOperandWrites_cmd :
    HostTurn (hostNext (accepted .frft 4 0 fourX) (.write 0x020 8 0)) (.write 0x020 8 0) [] ∧
      (accepted .frft 4 0 fourX).busy = true := ⟨host_turn _ _ rfl, rfl⟩

theorem witness_BusyOperandWrites_xbuf :
    HostTurn (hostNext (accepted .frft 4 0 fourX) (.write 0x01000000 8 0)) (.write 0x01000000 8 0) [] ∧
      (0x01000000#32).toNat % 8 = 0 ∧ inXbuf (0x01000000#32).toNat = true := by
  have := nmax_ge
  refine ⟨host_turn _ _ rfl, by decide, ?_⟩
  rw [inXbuf_iff]
  change 0x01000000 ≤ 0x01000000 ∧ 0x01000000 < _
  omega

theorem witness_IdleLenAndOrderWrites : HostTurn (hostNext State.reset (.write 0x028 8 4)) (.write 0x028 8 4) [] ∧
    HostTurn (hostNext State.reset (.write 0x030 8 1)) (.write 0x030 8 1) [] ∧ State.reset.busy = false :=
  ⟨host_turn _ _ rfl, host_turn _ _ rfl, rfl⟩

theorem witness_CtrlAndStatusWrites : HostTurn (hostNext State.reset (.write 0x010 8 1)) (.write 0x010 8 1) [] ∧
    HostTurn (hostNext State.reset (.write 0x018 8 6)) (.write 0x018 8 6) [] := ⟨host_turn _ _ rfl, host_turn _ _ rfl⟩

theorem witness_ReadOnlyAndReservedWrites (off : BitVec 32) : HostTurn (hostNext State.reset (.write off 8 7)) (.write off 8 7) [] :=
  host_turn _ _ rfl

theorem witness_reserved_bounds : (0x058 ≤ (0x058#32).toNat ∧ (0x058#32).toNat ≤ 0xFF8 ∧ (0x058#32).toNat % 8 = 0) ∧
    (0x058 ≤ (0xFF8#32).toNat ∧ (0xFF8#32).toNat ≤ 0xFF8 ∧ (0xFF8#32).toNat % 8 = 0) := by decide

/-- RegisterReadsReturnTheRegisters, RejectedAccessChangesNothing, AcceptedAccessIsAnswered, ReadsHaveNoSideEffect, BufferReads: any
offset and width. -/
theorem witness_read (off : BitVec 32) (bytes : Nat) :
    HostTurn (hostNext State.reset (.read off bytes)) (.read off bytes) [] := host_turn _ _ rfl

/-- VH11 to VH15: a wrong width, a misaligned address, the first offset past the registers, the first past XBUF, a YBUF write. -/
theorem witness_RejectedAccess :
    accessFault false 0x018 4 = some (.busWidth 0x018 4) ∧ accessFault false 0x01C 8 = some (.busMisaligned 0x01C) ∧
      (0x1000#32).toNat = 0x1000 ∧ accessFault true 0x02000000 8 = some (.busYbufWrite 0x02000000) ∧
      accessFault true 0x03FFFFF8 8 = some (.busYbufWrite 0x03FFFFF8) ∧
      accessFault false 0x00001000 8 = some (.busUnmapped 0x00001000) := by decide +kernel

theorem toNat_offset {n : Nat} (h : n < 4294967296) : (BitVec.ofNat 32 n).toNat = n := by
  rw [BitVec.toNat_ofNat]; exact Nat.mod_eq_of_lt h

/-- The first offset past XBUF; for NMAX = 2^20 it is the first of YBUF, where a write is rejected too. -/
theorem witness_RejectedAccess_past_xbuf :
    (accessFault true (BitVec.ofNat 32 (0x01000000 + 16 * Config.nmax)) 8).isSome = true := by
  have := nmax_le
  have := nmax_ge
  rw [accessFault_isSome, toNat_offset (by omega)]
  by_cases h : Config.nmax = 1048576
  · exact .inr (.inr (.inl ⟨rfl, by rw [inYbufWindow_iff]; omega⟩))
  · right; right; right
    rw [inRegs_of_ge (by omega), Bool.false_or, Bool.eq_false_iff, ne_eq, Bool.or_eq_true, inXbuf_iff, inYbuf_iff]
    omega

/-- The first offset past YBUF. -/
theorem witness_RejectedAccess_past_ybuf :
    (accessFault false (BitVec.ofNat 32 (0x02000000 + 16 * (2 * Config.nmax))) 8).isSome = true := by
  have := nmax_le
  have := nmax_ge
  rw [accessFault_isSome, toNat_offset (by omega)]
  right; right; right
  rw [inRegs_of_ge (by omega), Bool.false_or, Bool.eq_false_iff, ne_eq, Bool.or_eq_true, inXbuf_iff, inYbuf_iff]
  omega

theorem witness_AcceptedAccess : accessFault true 0xFF8 8 = none ∧ accessFault false 0x000 8 = none :=
  ⟨accessFault_regs _ (by decide) (by decide), accessFault_regs _ (by decide) (by decide)⟩

theorem witness_AcceptedAccess_ybuf_end :
    (BitVec.ofNat 32 (0x02000000 + 16 * (2 * Config.nmax) - 8)).toNat % 8 = 0 ∧
      inYbuf (BitVec.ofNat 32 (0x02000000 + 16 * (2 * Config.nmax) - 8)).toNat = true := by
  have := nmax_le
  have := nmax_ge
  rw [inYbuf_iff, toNat_offset (by omega)]
  omega

theorem witness_XbufWrite_end :
    (BitVec.ofNat 32 (0x01000000 + 16 * Config.nmax - 8)).toNat % 8 = 0 ∧
      inXbuf (BitVec.ofNat 32 (0x01000000 + 16 * Config.nmax - 8)).toNat = true ∧ State.reset.busy = false := by
  have := nmax_le
  have := nmax_ge
  rw [inXbuf_iff, toNat_offset (by omega)]
  exact ⟨by omega, by omega, rfl⟩

theorem witness_BufferReads_stored : fourX.readWord 0x01000010 = some F64.two ∧ Memory.readWord [] 0x01000000 = none ∧
    (accepted .frft 4 0 fourX).busy = true := by decide

theorem witness_WaitPolls : HostTurn (hostNext { State.reset with done := true } .wait) .wait [] ∧
    HostTurn (hostNext State.reset .wait) .wait [] ∧ State.reset.done = false := ⟨host_turn _ _ rfl, host_turn _ _ rfl, rfl⟩

theorem witness_Reset : staleResponse { accepted .frft 4 0 fourX with agenda := [.reset] } = false ∧
    nextAgent { accepted .frft 4 0 fourX with agenda := [.reset] } = .reset := ⟨rfl, rfl⟩

/-- UndispatchedCommandsKeepOrderRegisters and ErrorsWriteNoResult. -/
theorem witness_exec_next : (∃ t, exec .nop State.reset = .next t) ∧
    (∃ t, exec .frft (accepted .frft 0 0 []) = .next t ∧ t.errcode ≠ .none) ∧ lengthOperand (accepted .frft 0 0 []) = 0 :=
  ⟨⟨_, rfl⟩, ⟨_, rfl, by decide⟩, rfl⟩

/-- The last clause of InterruptFollowsDoneAndEnable. -/
theorem witness_exec_interrupt : (2#64).getLsbD 1 = true := by decide

theorem witness_LengthErrors : (accepted .engine 0 0 []).snap.n = 0 ∧ Config.nmax < (accepted .engine 0xFFFFFFFF 0 []).snap.n.toNat := by
  have := nmax_le
  refine ⟨rfl, ?_⟩
  change Config.nmax < 4294967295
  omega

theorem witness_OneSample : (accepted .interp 1 0 fourX).snap.n = 1 ∧
    (accepted .interp 1 0 fourX).mem.readSample (xAddr 0) = some ⟨F64.one, 0⟩ := by decide

/-- WorkingCopyIsXbuf, IdentityAndParityAreExact, InverseIsForwardAtNegatedOrder, EqualReducedOrdersGiveEqualResults,
OutputDependsOnOperandsOnly. -/
theorem witness_xHolds : xHolds fourX four ∧ four.length = lengthOperand (accepted .frft 4 0 fourX) := by
  refine ⟨?_, rfl⟩
  intro e he
  have : e < 4 := he
  interval_cases e <;> decide

/-- For every statement about two samples or more: InterpWritesUpsampledSignal, EngineRunsAtOrderItself, TransformAtIntegerOrder,
TransformAtGeneralOrder, TransformFailsExactlyWhenDegenerate, ReducePredictsTransform. -/
theorem witness_lengths : 2 ≤ lengthOperand (accepted .engine 2 0 fourX) ∧
    lengthOperand (accepted .engine 2 0 fourX) ≤ Config.nmax := ⟨by decide, le_trans (by decide) nmax_ge⟩

/-- The same at the upper end, N = NMAX. -/
theorem witness_length_top : 2 ≤ lengthOperand (accepted .engine (BitVec.ofNat 32 Config.nmax) 0 fourX) ∧
    lengthOperand (accepted .engine (BitVec.ofNat 32 Config.nmax) 0 fourX) ≤ Config.nmax := by
  have := nmax_le
  have := nmax_ge
  change 2 ≤ (BitVec.ofNat 32 Config.nmax).toNat ∧ (BitVec.ofNat 32 Config.nmax).toNat ≤ Config.nmax
  rw [toNat_offset (by omega)]
  omega

/-- TransformAtIntegerOrder, TransformAtGeneralOrder, TransformFailsExactlyWhenDegenerate. -/
theorem witness_TransformOrder : TransformOrder .frft (accepted .frft 2 F64.one fourX) F64.one ∧
    TransformOrder .ifrft (accepted .ifrft 2 F64.one fourX) (F64.neg F64.one) := ⟨.inl ⟨rfl, rfl⟩, .inr ⟨rfl, rfl⟩⟩

/-- Each case of TransformAtIntegerOrder. -/
theorem witness_integer_orders : F64.eq (floormod4 F64.zero) F64.zero = true ∧ F64.eq (floormod4 F64.two) F64.two = true ∧
    F64.eq (floormod4 F64.one) F64.one = true ∧ F64.eq (floormod4 F64.three) F64.three = true := by decide +kernel

/-- An order equal to none of 0, 1, 2 and 3. -/
def GeneralOrder (a : Binary64) : Prop :=
  F64.eq (floormod4 a) F64.zero = false ∧ F64.eq (floormod4 a) F64.one = false ∧ F64.eq (floormod4 a) F64.two = false ∧
    F64.eq (floormod4 a) F64.three = false

/-- TransformAtGeneralOrder: half, the order next to 1.0, an infinity. -/
theorem witness_general_orders : GeneralOrder F64.half ∧ GeneralOrder 0x3FF0000000000001 ∧ GeneralOrder 0x7FF0000000000000 := by
  have h : F64.isNaN (floormod4 0x7FF0000000000000) = true := isNaN_floormod4 (by decide)
  exact ⟨by unfold GeneralOrder; decide +kernel, by unfold GeneralOrder; decide +kernel,
    eq_of_isNaN_left h, eq_of_isNaN_left h, eq_of_isNaN_left h, eq_of_isNaN_left h⟩

/-- IdentityAndParityAreExact and EqualReducedOrdersGiveEqualResults. -/
theorem witness_reduced_orders : floormod4 F64.zero = F64.zero ∧ floormod4 F64.two = F64.two ∧ floormod4 F64.four = floormod4 F64.zero := by
  decide +kernel

/-- EqualReducedOrdersGiveEqualResults: two orders with NaN reduced orders. -/
theorem witness_nan_orders : F64.isNaN (floormod4 0x7FF8000000000000) = true ∧ F64.isNaN (floormod4 0xFFF0000000000000) = true :=
  ⟨isNaN_floormod4 (by decide), isNaN_floormod4 (by decide)⟩

/-- The last elements of InterpWritesUpsampledSignal and EngineRunsAtOrderItself, for four samples. -/
theorem witness_elements : 2 ≤ four.length ∧ 6 < 2 * four.length - 1 ∧ 3 < four.length := by decide

/-- InverseIsForwardAtNegatedOrder and EqualReducedOrdersGiveEqualResults: written entries, and draws that differ. -/
theorem witness_two_runs : four.length = lengthOperand (accepted .frft 4 F64.half fourX) ∧
    (lengthOperand (accepted .frft 4 F64.half fourX) ≤ Config.nmax → xHolds (accepted .frft 4 F64.half fourX).mem four) ∧
    (accepted .frft 4 F64.half fourX).draws ≠ 9 := ⟨rfl, fun _ => witness_xHolds.1, by decide⟩

theorem witness_OutputDepends : (accepted .frft 4 0 fourX).snap = { accepted .frft 4 0 fourX with draws := 9, ie := true }.snap ∧
    2 ≤ lengthOperand (accepted .frft 4 0 fourX) ∧ lengthOperand (accepted .frft 4 0 fourX) ≤ Config.nmax :=
  ⟨rfl, by decide, four_le_nmax⟩

/-- ReducedOrderProperties, TruncatedRemainderIsExact, EngineOrderLiesInItsInterval: the ends of their ranges. -/
theorem witness_finite : F64.isFinite 0x7FEFFFFFFFFFFFFF = true ∧ F64.isFinite 0x8000000000000000 = true ∧
    F64.sign 0x7FEFFFFFFFFFFFFF = false ∧ F64.isNaN 0x7FF0000000000001 = true ∧ F64.isInf 0xFFF0000000000000 = true := by decide

theorem witness_subtractions :
    F64.lt F64.two 0x4000000000000001 = true ∧ F64.lt 0x400FFFFFFFFFFFFF F64.four = true ∧
      F64.lt F64.oneHalf 0x3FF8000000000001 = true ∧ F64.lt 0x3FFFFFFFFFFFFFFF F64.two = true := by decide

/-- ReducerSubtractionsAreExact: the ends of [0, 4), and orders with and without step 3. -/
theorem witness_reducer : F64.le F64.zero F64.zero = true ∧ F64.lt F64.zero F64.four = true ∧
    F64.le F64.zero 0x400FFFFFFFFFFFFF = true ∧ F64.lt 0x400FFFFFFFFFFFFF F64.four = true ∧
    (reduceOrder 0x400FFFFFFFFFFFFF).i = false ∧ (reduceOrder F64.zero).i = true ∧
    F64.isFinite 0x7FEFFFFFFFFFFFFF = true ∧ F64.sign 0x7FEFFFFFFFFFFFFF = false := by decide +kernel

theorem witness_rounding : 0 < 2 ∧ F64.roundBits 1 2 < F64.infBits ∧ 1 < F64.infBits ∧ F64.roundBits 1 2 = 0 := by decide

/-- The other clauses of RoundingIsToNearestTiesToEven: finite pairs of each kind, NaN, infinities, the largest integer. -/
theorem witness_arithmetic : F64.isFinite F64.two = true ∧ F64.units F64.two ≠ 0 ∧ F64.units 0x8000000000000000 = 0 ∧
    F64.toInt F64.two ≠ F64.toInt F64.one ∧ F64.isNaN 0xFFF0000000000001 = true ∧ F64.isInf 0x7FF0000000000000 = true ∧
    F64.isInf 0xFFF0000000000000 = true ∧ F64.sign 0x7FF0000000000000 ≠ F64.sign 0xFFF0000000000000 ∧
    (-9007199254740992 : Int).natAbs ≤ 2 ^ 53 := by decide +kernel

/-- The smallest magnitude that rounds to infinity does. -/
theorem test_overflow : F64.add 0x7FEFFFFFFFFFFFFF 0x7C90000000000000 = 0x7FF0000000000000 ∧
    F64.add 0x7FEFFFFFFFFFFFFF 0x7C8FFFFFFFFFFFFF = 0x7FEFFFFFFFFFFFFF := by decide +kernel

/-- CentredTransformsScaleAndScatter, DownsamplingMeetsTheStuffedSamples. -/
theorem witness_sequences : 3 < four.length ∧ 2 ≤ four.length ∧ (∀ n, n < four.length → 0 ≠ four.length - 1 + 2 * n) := by
  refine ⟨by decide, by decide, ?_⟩
  intro n _ h
  have : four.length = 4 := rfl
  omega

theorem witness_Staged : (accepted .engine 2 0 fourX).seq = .run .check ∧ (accepted .engine 2 0 fourX).snap.op = .legal .engine ∧
    (accepted .engine 2 0 fourX).pend = none ∧ (accepted .engine 2 0 fourX).coreResp = none ∧
    (accepted .engine 2 0 fourX).work = Work.empty := ⟨rfl, rfl, rfl, rfl, rfl⟩

theorem witness_Unfinished : (stageStep (accepted .reduce 0 0 [])).busy = true := rfl

/-- A running FRFT on two samples that waits in a stage for the response to a request. -/
def waiting (st : Stage) (r : CoreRequest) (c : List Sample) : State :=
  { accepted .frft 2 F64.one fourX with
    seq := .run st
    pend := some r
    work := { Work.empty with f := zeros 2, chirp1 := c } }

theorem witness_Cores : (waiting .fftWait (.fft .fwd (zeros 2)) []).pend = some (.fft .fwd (zeros 2)) ∧
    (waiting .fftWait (.fft .fwd (zeros 2)) []).coreResp = none ∧
    (waiting .interpWait (.conv (zeros 3) (zeros 3)) []).pend = some (.conv (zeros 3) (zeros 3)) := ⟨rfl, rfl, rfl⟩

/-- A waiting state is coherent where its stage is. -/
theorem coherent_waiting {st : Stage} {r : CoreRequest} {c : List Sample} (h : stageCoherent (waiting st r c)) :
    Coherent (waiting st r c) where
  memSorted := fourX_wf
  memMapped := by
    intro c hc
    have := nmax_ge
    rcases Memory.mem_writeSamples _ _ _ _ hc with h | h
    · simp at h
    · left
      rw [inXbuf_iff]
      have h4 : four.length = 4 := rfl
      unfold xAddr xbufBase at h
      omega
  idleIffNotBusy := by simp [waiting, accepted]
  busyStatus := fun _ => ⟨rfl, rfl⟩
  lastopOfCmd := rfl
  snapHeld := fun _ => by simp only [waiting, accepted, opOfWord]; rfl
  stage := h
  response := by intro g hg; simp [waiting, accepted, State.reset] at hg
  record := recordSettled_empty
  path := trivial
  outlen := Nat.zero_le _

theorem two_loaded (st : Stage) (r : CoreRequest) (c : List Sample) : signalLoaded (waiting st r c) :=
  ⟨le_refl 2, le_trans (show 2 ≤ 2048 by decide) nmax_ge, rfl⟩

theorem witness_RequestShapes_fft : Coherent (waiting .fftWait (.fft .fwd (zeros 2)) []) :=
  coherent_waiting ⟨⟨_, _, rfl, rfl⟩, rfl, two_loaded _ _ _⟩

theorem witness_RequestShapes_interp : Coherent (waiting .interpWait (.conv (zeros 3) (zeros 3)) []) :=
  coherent_waiting ⟨⟨_, _, rfl, rfl, rfl⟩, rfl, two_loaded _ _ _⟩

theorem witness_RequestShapes_chirp : Coherent (waiting .chirpWait (.conv (zeros 5) (zeros 9)) (zeros 5)) :=
  coherent_waiting ⟨⟨_, _, rfl, rfl, rfl⟩, rfl, by decide, two_loaded _ _ _, rfl⟩

theorem witness_StepKeepsCoherence :
    ∃ t, step { waiting .fftWait (.fft .fwd (zeros 2)) [] with agenda := [.fftCore] } = .next t ∧ t.coreResp ≠ none :=
  ⟨_, rfl, by simp [advance, fftCoreStep, waiting, accepted, answer, State.reset]⟩

/-- CoherentStatesAlwaysStep: a coherent state with BUSY = 1, whose enabled agent is the FFT core. -/
theorem witness_Progress : Coherent (waiting .fftWait (.fft .fwd (zeros 2)) []) ∧
    (waiting .fftWait (.fft .fwd (zeros 2)) []).busy = true ∧
    Party.fftCore.enabled (waiting .fftWait (.fft .fwd (zeros 2)) []) = true := ⟨witness_RequestShapes_fft, rfl, rfl⟩

/-- The Reference statements, at N = 2. -/
theorem witness_Reference : 2 ≤ 2 ∧ 2 < 2 * 2 - 1 ∧ 1 < 2 := by decide

/-- The last clause of ReferenceEngineClosedForm: a real order of class GENERAL. -/
theorem witness_Reference_general : Reference.classify (Reference.floormod4 (1 / 4)) = .general := by
  have h : Reference.floormod4 (1 / 4) = 1 / 4 := by
    have : ⌊(1 / 4 : ℝ) / 4⌋ = 0 := by rw [Int.floor_eq_iff]; norm_num
    rw [Reference.floormod4, this]; norm_num
  rw [h, Reference.classify]
  norm_num

end Sys2Proof.Tests
end

section
/-! PROOFS. Binary64 arithmetic as exact arithmetic rounded once (R10, R11): rounding picks a nearest multiple of the binade's step, then
one law per operation and kind of operand. -/

namespace Sys2Proof.Machine.F64

theorem roundQuot_mul_add (q : Nat) {r d : Nat} (h : r < d) :
    roundQuot (q * d + r) d = if d < 2 * r ∨ (2 * r = d ∧ q % 2 = 1) then q + 1 else q := by
  have hq : (q * d + r) / d = q := by
    rw [Nat.mul_comm, Nat.mul_add_div (by omega), Nat.div_eq_of_lt h, Nat.add_zero]
  have hr : (q * d + r) % d = r := by rw [Nat.mul_comm, Nat.mul_add_mod, Nat.mod_eq_of_lt h]
  rw [roundQuot, hq, hr]

/-- Among the multiples of `d` the rounded quotient gives a nearest one, and an even one where two are nearest. -/
theorem roundQuot_nearest (num j : Nat) {d : Nat} (hd : 0 < d) :
    (((roundQuot num d * d : Nat) : Int) - num).natAbs ≤ (((j * d : Nat) : Int) - num).natAbs ∧
      ((((roundQuot num d * d : Nat) : Int) - num).natAbs = (((j * d : Nat) : Int) - num).natAbs →
        j ≠ roundQuot num d → roundQuot num d % 2 = 0) := by
  obtain ⟨q, r, hr, rfl⟩ : ∃ q r, r < d ∧ num = q * d + r :=
    ⟨num / d, num % d, Nat.mod_lt _ hd, (Nat.div_add_mod' num d).symm⟩
  rw [roundQuot_mul_add q hr]
  have hsucc : (q + 1) * d = q * d + d := Nat.succ_mul q d
  have hj : j = q ∨ j = q + 1 ∨ j * d + d ≤ q * d ∨ q * d + 2 * d ≤ j * d := by
    have low : j + 1 ≤ q → j * d + d ≤ q * d := fun h => by
      simpa [Nat.succ_mul] using Nat.mul_le_mul_right d h
    have high : q + 2 ≤ j → q * d + 2 * d ≤ j * d := fun h => by
      simpa [Nat.add_mul] using Nat.mul_le_mul_right d h
    omega
  rcases hj with rfl | rfl | h | h <;> split_ifs with hup <;> omega

/-- Below the binade of `sh` every value is below `2^52 * 2^sh`; the others are multiples of `2^sh`. -/
theorem unitsOfBits_grid (m sh : Nat) :
    (∃ j, unitsOfBits m = j * 2 ^ sh) ∨ (0 < sh ∧ unitsOfBits m < 2 ^ 52 * 2 ^ sh) := by
  obtain ⟨k, e, hk, hu, -, -⟩ := units_scaled m
  rcases Nat.lt_or_ge e sh with h | h
  · right
    obtain ⟨t, rfl⟩ := Nat.exists_eq_add_of_le (Nat.succ_le_of_lt h)
    refine ⟨by omega, ?_⟩
    calc unitsOfBits m = k * 2 ^ e := hu
      _ < 2 ^ 53 * 2 ^ e := Nat.mul_lt_mul_of_pos_right hk (by positivity)
      _ = 2 ^ 52 * 2 ^ (e.succ + 0) := by rw [Nat.add_zero, pow_succ 2 e]; ring
      _ ≤ 2 ^ 52 * 2 ^ (e.succ + t) := Nat.mul_le_mul_left _ (Nat.pow_le_pow_right (by norm_num) (by omega))
  · left
    obtain ⟨t, rfl⟩ := Nat.exists_eq_add_of_le h
    exact ⟨k * 2 ^ t, by rw [hu, pow_add]; ring⟩

/-- A magnitude whose quotient needs a shift is at least `2^52` steps of that shift. -/
theorem le_of_shiftOf_pos {num den : Nat} (h : 0 < shiftOf (num / den)) :
    2 ^ 52 * (den * 2 ^ shiftOf (num / den)) ≤ num := by
  have hq := le_quot _ h
  rw [Nat.div_div_eq_div_mul] at hq
  exact le_trans (Nat.mul_le_mul_right _ hq) (Nat.div_mul_le_self _ _)

/-- R11: no finite encoding is nearer to `num / den` than the rounded one, and of two nearest the rounded one is even. -/
theorem roundBits_nearest (num den m : Nat) (hden : 0 < den) (hfin : roundBits num den < infBits) (hm : m < infBits) :
    (((unitsOfBits (roundBits num den) * den : Nat) : Int) - num).natAbs ≤
        (((unitsOfBits m * den : Nat) : Int) - num).natAbs ∧
      ((((unitsOfBits (roundBits num den) * den : Nat) : Int) - num).natAbs =
          (((unitsOfBits m * den : Nat) : Int) - num).natAbs →
        m ≠ roundBits num den → roundBits num den % 2 = 0) := by
  obtain ⟨hunits, heven⟩ := units_roundBits hfin
  have hpos := @le_of_shiftOf_pos num den
  generalize hsh : shiftOf (num / den) = sh at *
  have hd : 0 < den * 2 ^ sh := by positivity
  have hscale (j : Nat) : j * 2 ^ sh * den = j * (den * 2 ^ sh) := by ring
  rw [heven]
  rcases unitsOfBits_grid m sh with ⟨j, hj⟩ | ⟨hsh0, hlt⟩
  · obtain ⟨hle, htie⟩ := roundQuot_nearest num j hd
    rw [hunits, hj, hscale, hscale]
    refine ⟨hle, fun heq hne => htie heq fun hjq => hne ?_⟩
    exact unitsOfBits_inj hm hfin (by rw [hj, hunits, hjq])
  · have hle := (roundQuot_nearest num (2 ^ 52) hd).1
    have hother : unitsOfBits m * den < 2 ^ 52 * (den * 2 ^ sh) := by
      rw [← hscale]; exact Nat.mul_lt_mul_of_pos_right hlt hden
    have hnum := hpos hsh0
    rw [hunits, hscale]
    omega

/-- The shift of the binade of the values from `2^53 * 2^s` on. -/
theorem shiftOf_binade {f s : Nat} (h1 : 2 ^ 53 * 2 ^ s ≤ f) (h2 : f < 2 ^ 54 * 2 ^ s) : shiftOf f = s + 1 := by
  rw [← pow_add] at h1 h2
  have hf : f ≠ 0 := fun h => by simp [h] at h1
  have hlog : Nat.log2 f = 53 + s := (Nat.log2_eq_iff hf).2 ⟨h1, by rwa [show 53 + s + 1 = 54 + s by omega]⟩
  unfold shiftOf; omega

/-- The value halfway between the last value of a binade and the next binade rounds up to the next binade. -/
theorem roundBits_halfway (s : Nat) {den : Nat} (hden : 0 < den) :
    roundBits ((2 ^ 54 - 1) * 2 ^ s * den) den = min ((s + 3) * 2 ^ 52) infBits := by
  have hp : 0 < 2 ^ s := by positivity
  have hr : 0 < 2 ^ s * den := by positivity
  have hstep : den * 2 ^ (s + 1) = 2 * (2 ^ s * den) := by rw [pow_succ]; ring
  have hnum : (2 ^ 54 - 1) * 2 ^ s * den = (2 ^ 53 - 1) * (den * 2 ^ (s + 1)) + 2 ^ s * den := by rw [hstep]; ring
  have hsh : shiftOf ((2 ^ 54 - 1) * 2 ^ s) = s + 1 := shiftOf_binade (by omega) (by omega)
  rw [roundBits_eq, Nat.mul_div_cancel _ hden, hsh, hnum, roundQuot_mul_add _ (by omega),
    if_pos (.inr ⟨hstep.symm, by norm_num⟩), show (s + 1) * 2 ^ 52 + (2 ^ 53 - 1 + 1) = (s + 3) * 2 ^ 52 by omega]

/-- Every value below that one rounds to a value before the next binade. -/
theorem roundBits_below_halfway {s num den : Nat} (hden : 0 < den) (h : num < (2 ^ 54 - 1) * 2 ^ s * den) :
    roundBits num den < (s + 3) * 2 ^ 52 := by
  have hp : 0 < 2 ^ s := by positivity
  have hr : 0 < 2 ^ s * den := by positivity
  have hstep : den * 2 ^ (s + 1) = 2 * (2 ^ s * den) := by rw [pow_succ]; ring
  have hnum : (2 ^ 54 - 1) * 2 ^ s * den - 1 = (2 ^ 53 - 1) * (den * 2 ^ (s + 1)) + (2 ^ s * den - 1) := by
    rw [hstep, Nat.mul_assoc]; omega
  have hquot : ((2 ^ 54 - 1) * 2 ^ s * den - 1) / den = (2 ^ 54 - 1) * 2 ^ s - 1 := by
    rw [Nat.mul_comm, Nat.mul_sub_div 0 den _ (by positivity), Nat.zero_div]
  have hsh : shiftOf ((2 ^ 54 - 1) * 2 ^ s - 1) = s + 1 := shiftOf_binade (by omega) (by omega)
  refine lt_of_le_of_lt (roundBits_mono den (Nat.le_sub_one_of_lt h)) ?_
  rw [roundBits_eq, hquot, hsh, hnum, roundQuot_mul_add _ (by omega), if_neg (by omega)]
  calc min ((s + 1) * 2 ^ 52 + (2 ^ 53 - 1)) infBits ≤ (s + 1) * 2 ^ 52 + (2 ^ 53 - 1) := Nat.min_le_left _ _
    _ < (s + 3) * 2 ^ 52 := by omega

/-- R11: rounding gives an infinity exactly from half a step past the largest finite value on. -/
theorem roundBits_eq_infBits_iff (num : Nat) {den : Nat} (hden : 0 < den) :
    roundBits num den = infBits ↔ (2 ^ 54 - 1) * 2 ^ 2044 * den ≤ num := by
  have hinf : (2044 + 3) * 2 ^ 52 = infBits := by decide
  constructor
  · intro h
    by_contra hlt
    exact (roundBits_below_halfway hden (not_le.1 hlt)).ne (h.trans hinf.symm)
  · intro h
    refine le_antisymm (roundBits_le_infBits _ _) ?_
    calc infBits = roundBits ((2 ^ 54 - 1) * 2 ^ 2044 * den) den := by rw [roundBits_halfway 2044 hden, hinf, min_self]
      _ ≤ roundBits num den := roundBits_mono den h

/-! The operations on finite operands. -/

theorem roundBits_zero_one : roundBits 0 1 = 0 := by decide

theorem magBits_add_finite {a b : Binary64} (ha : isFinite a = true) (hb : isFinite b = true) :
    magBits (add a b) = roundBits (toInt a + toInt b).natAbs 1 := by
  rw [add_finite ha hb]
  split_ifs with h
  · rw [h, magBits_pack _ _ (by norm_num), Int.natAbs_zero, roundBits_zero_one]
  · exact magBits_pack _ _ (roundBits_lt_two_pow_63 _ _)

theorem sign_add_finite {a b : Binary64} (ha : isFinite a = true) (hb : isFinite b = true) :
    sign (add a b) = if toInt a + toInt b = 0 then sign a && sign b else decide (toInt a + toInt b < 0) := by
  rw [add_finite ha hb]
  split_ifs with h
  · exact sign_pack _ _ (by norm_num)
  · exact sign_pack _ _ (roundBits_lt_two_pow_63 _ _)

theorem magBits_sub_finite {a b : Binary64} (ha : isFinite a = true) (hb : isFinite b = true) :
    magBits (sub a b) = roundBits (toInt a - toInt b).natAbs 1 := by
  rw [sub, magBits_add_finite ha (isFinite_neg b ▸ hb), toInt_neg, ← sub_eq_add_neg]

theorem sign_sub_finite {a b : Binary64} (ha : isFinite a = true) (hb : isFinite b = true) (hne : toInt a ≠ toInt b) :
    sign (sub a b) = decide (toInt a < toInt b) := by
  rw [sub, sign_add_finite ha (isFinite_neg b ▸ hb), toInt_neg, ← sub_eq_add_neg, if_neg (sub_ne_zero.2 hne)]
  simp only [sub_neg]

theorem magBits_mul_finite {a b : Binary64} (ha : isFinite a = true) (hb : isFinite b = true) :
    magBits (mul a b) = roundBits (units a * units b) (2 ^ 1074) := by
  rw [mul_finite ha hb, magBits_pack _ _ (roundBits_lt_two_pow_63 _ _), unitsPerOne_eq]

theorem sign_mul_finite {a b : Binary64} (ha : isFinite a = true) (hb : isFinite b = true) :
    sign (mul a b) = (sign a != sign b) := by
  rw [mul_finite ha hb, sign_pack _ _ (roundBits_lt_two_pow_63 _ _)]

theorem div_finite_of_ne_zero {a b : Binary64} (ha : isFinite a = true) (hb : isFinite b = true) (h : units b ≠ 0) :
    magBits (div a b) = roundBits (units a * 2 ^ 1074) (units b) ∧ sign (div a b) = (sign a != sign b) := by
  rw [div_finite ha hb, if_neg h, ← unitsPerOne_eq]
  exact ⟨magBits_pack _ _ (roundBits_lt_two_pow_63 _ _), sign_pack _ _ (roundBits_lt_two_pow_63 _ _)⟩

theorem sign_pack_infBits (neg : Bool) : sign (pack neg infBits) = neg := sign_pack _ _ (by decide)

theorem div_finite_by_zero {a b : Binary64} (ha : isFinite a = true) (hb : isFinite b = true) (h : units b = 0)
    (hne : units a ≠ 0) : isInf (div a b) = true ∧ sign (div a b) = (sign a != sign b) := by
  rw [div_finite ha hb, if_pos h, if_neg hne]
  exact ⟨isInf_pack _, sign_pack_infBits _⟩

theorem isNaN_div_zeros {a b : Binary64} (ha : isFinite a = true) (hb : isFinite b = true) (h : units b = 0)
    (h0 : units a = 0) : isNaN (div a b) = true := by
  rw [div_finite ha hb, if_pos h, if_pos h0]
  exact isNaN_nanOf _ _ _

/-! NaN and infinite operands. -/

theorem arith_of_isNaN {a b : Binary64} (h : isNaN a = true ∨ isNaN b = true) :
    isNaN (add a b) = true ∧ isNaN (mul a b) = true ∧ isNaN (div a b) = true := by
  have hor : (isNaN a || isNaN b) = true := by simpa using h
  simp only [add, mul, div, hor, if_true, isNaN_nanOf, and_self]

theorem compare_of_isNaN {a b : Binary64} (h : isNaN a = true ∨ isNaN b = true) :
    lt a b = false ∧ le a b = false ∧ eq a b = false := by
  rcases h with h | h <;> simp [lt, le, eq, h]

section Infinite

variable {a b : Binary64} (ha : isInf a = true)

include ha

theorem add_isInf_finite (hb : isFinite b = true) : add a b = a ∧ add b a = a := by
  simp [add, ha, not_isNaN_of_isInf ha, not_isNaN_of_isFinite hb, not_isInf_of_isFinite hb]

theorem mul_isInf_left (hb : isNaN b = false) :
    mul a b = if units b = 0 then nanOf .mul a b else pack (sign a != sign b) infBits := by
  simp [mul, ha, hb, not_isNaN_of_isInf ha, units_of_isInf ha]

theorem mul_isInf_right (hb : isNaN b = false) :
    mul b a = if units b = 0 then nanOf .mul b a else pack (sign b != sign a) infBits := by
  simp [mul, ha, hb, not_isNaN_of_isInf ha, units_of_isInf ha]

theorem div_isInf_finite (hb : isFinite b = true) : div a b = pack (sign a != sign b) infBits := by
  simp [div, ha, not_isNaN_of_isInf ha, not_isNaN_of_isFinite hb, not_isInf_of_isFinite hb]

theorem div_finite_isInf (hb : isFinite b = true) : div b a = pack (sign b != sign a) 0 := by
  simp [div, ha, not_isNaN_of_isInf ha, not_isNaN_of_isFinite hb, not_isInf_of_isFinite hb]

theorem key_isInf : key a = if sign a then -(infBits : Int) else infBits := by
  rw [key, magBits_of_isInf ha]

/-- An infinity lies on its side of every finite value. -/
theorem lt_isInf_finite (hb : isFinite b = true) : lt a b = sign a ∧ lt b a = !sign a := by
  have hmag := magBits_of_isFinite hb
  have hkey : -(infBits : Int) < key b ∧ key b < infBits := by
    unfold key; split_ifs <;> omega
  simp only [lt, not_isNaN_of_isInf ha, not_isNaN_of_isFinite hb, key_isInf ha]
  cases sign a <;> simp <;> omega

theorem add_isInf_isInf (hb : isInf b = true) : add a b = if sign a = sign b then a else nanOf .add a b := by
  simp [add, ha, hb, not_isNaN_of_isInf ha, not_isNaN_of_isInf hb]

theorem isNaN_div_isInf_isInf (hb : isInf b = true) : isNaN (div a b) = true := by
  simp [div, ha, hb, not_isNaN_of_isInf ha, not_isNaN_of_isInf hb, isNaN_nanOf]

end Infinite

/-! Conversion of integers. -/

/-- The multiples of 1.0 up to `2^53` have encodings. -/
theorem exists_bits_of_nat {k : Nat} (h : k ≤ 2 ^ 53) : ∃ m, m < infBits ∧ unitsOfBits m = k * unitsPerOne := by
  rw [unitsPerOne_eq]
  rcases Nat.lt_or_eq_of_le h with hlt | rfl
  · exact exists_bits (e := 1074) hlt (by norm_num)
  · obtain ⟨m, hm, hu⟩ := exists_bits (k := 2 ^ 52) (e := 1074 + 1) (by norm_num) (by norm_num)
    exact ⟨m, hm, by rw [hu, pow_succ 2 1074, pow_succ 2 52, Nat.mul_assoc, Nat.mul_comm 2]⟩

/-- R10: integers up to `2^53` in magnitude convert exactly. -/
theorem ofInt_exact {k : Int} (h : k.natAbs ≤ 2 ^ 53) :
    isFinite (ofInt k) = true ∧ toInt (ofInt k) = k * 2 ^ 1074 := by
  obtain ⟨m, hm, hu⟩ := exists_bits_of_nat h
  have hof : ofInt k = pack (decide (k < 0)) m := by rw [ofInt, ← hu, roundBits_unitsOfBits m hm]
  have hone : (2 : Int) ^ 1074 = unitsPerOne := by rw [unitsPerOne_eq, Nat.cast_pow, Nat.cast_ofNat]
  rw [hof, toInt_pack _ _ (lt_two_pow_63 hm.le), hu, hone]
  refine ⟨isFinite_pack _ _ hm, ?_⟩
  generalize unitsPerOne = u
  push_cast
  rcases lt_or_ge k 0 with hk | hk
  · rw [if_pos (decide_eq_true hk), abs_of_neg hk]; ring
  · rw [if_neg (by simpa using hk), abs_of_nonneg hk]

end Sys2Proof.Machine.F64

namespace Sys2Proof.Machine

open F64

/-- Settles O46: rounding through the nearest multiple of the binade's step, the operations case by case of their operands. -/
theorem roundingIsToNearestTiesToEven : Obligations.RoundingIsToNearestTiesToEven := by
  unfold Obligations.RoundingIsToNearestTiesToEven
  refine ⟨roundBits_nearest, fun num den hden => ⟨roundBits_le_infBits num den, roundBits_eq_infBits_iff num hden⟩,
    fun a b ha hb => ?_, fun a b h => ?_, fun a b ha hb => ?_, fun a b ha hb => ?_, fun k hk => ofInt_exact hk,
    fun x y r => ⟨rfl, rfl, rfl⟩⟩
  · exact ⟨⟨magBits_add_finite ha hb, sign_add_finite ha hb⟩, magBits_sub_finite ha hb, sign_sub_finite ha hb,
      ⟨magBits_mul_finite ha hb, sign_mul_finite ha hb⟩, div_finite_of_ne_zero ha hb, div_finite_by_zero ha hb,
      isNaN_div_zeros ha hb, lt_iff ha hb, le_iff ha hb, eq_iff ha hb⟩
  · obtain ⟨hadd, hmul, hdiv⟩ := arith_of_isNaN h
    exact ⟨hadd, hmul, hdiv, compare_of_isNaN h⟩
  · have hbn := not_isNaN_of_isFinite hb
    obtain ⟨hadd, hadd'⟩ := add_isInf_finite ha hb
    obtain ⟨hlt, hgt⟩ := lt_isInf_finite ha hb
    have hsign : (sign b != sign a) = (sign a != sign b) := bne_comm
    rw [mul_isInf_left ha hbn, mul_isInf_right ha hbn, div_isInf_finite ha hb, div_finite_isInf ha hb, hsign]
    refine ⟨hadd, hadd', fun h0 => ?_, fun h0 => ?_, isInf_pack _, sign_pack_infBits _, magBits_pack _ _ (by norm_num),
      sign_pack _ _ (by norm_num), hlt, hgt⟩
    · rw [if_pos h0, if_pos h0]
      exact ⟨isNaN_nanOf _ _ _, isNaN_nanOf _ _ _⟩
    · rw [if_neg h0, if_neg h0]
      exact ⟨isInf_pack _, isInf_pack _, sign_pack_infBits _, sign_pack_infBits _⟩
  · rw [add_isInf_isInf ha hb, mul_isInf_left ha (not_isNaN_of_isInf hb), if_neg (units_of_isInf hb)]
    refine ⟨fun hs => if_pos hs, fun hs => ?_, isInf_pack _, sign_pack_infBits _, isNaN_div_isInf_isInf ha hb⟩
    rw [if_neg hs]
    exact isNaN_nanOf _ _ _

end Sys2Proof.Machine
end

section
/-! PROOFS. The reference semantics of R14: each exact pipeline equals its closed form, and the exact order path keeps its ranges (R141,
R147, R148, R177, R191, R221, R241, R244). -/

namespace Sys2Proof.Machine.Reference

open Complex

/-! The upsampler (R191). -/

theorem sinc_intCast {z : ℤ} (h : z ≠ 0) : sinc z = 0 := by
  have hz : (z : ℝ) ≠ 0 := Int.cast_ne_zero.2 h
  rw [sinc, if_neg hz, mul_comm, Real.sin_int_mul_pi, zero_div]

/-- The kernel under sample `k` of the window's output `i` (R192, R194). -/
theorem kernel_at {n i k : ℕ} (h : 2 * k ≤ 2 * n - 3 + i) (hn : 2 ≤ n) :
    kernel n (2 * n - 3 + i - 2 * k) = (sinc ((i : ℝ) / 2 - (k : ℝ)) : ℂ) := by
  have ht : 2 * n - 3 + i - 2 * k + 2 * k + 3 = 2 * n + i := by omega
  have ht' : ((2 * n - 3 + i - 2 * k : ℕ) : ℝ) + 2 * k + 3 = 2 * n + i := by exact_mod_cast ht
  rw [kernel, show (((2 * n - 3 + i - 2 * k : ℕ) : ℝ) - (2 * n - 3)) / 2 = i / 2 - k by linarith]

/-- The two terms that fall outside the convolution stand at zeros of sinc. -/
theorem sinc_outside_window {n i k : ℕ} (hn : 2 ≤ n) (h : (i = 0 ∧ k = n - 1) ∨ (i = 2 * (n - 1) ∧ k = 0)) :
    sinc ((i : ℝ) / 2 - (k : ℝ)) = 0 := by
  have hz : ((n - 1 : ℕ) : ℤ) ≠ 0 := by omega
  rcases h with ⟨rfl, rfl⟩ | ⟨rfl, rfl⟩
  · rw [← sinc_intCast (neg_ne_zero.2 hz)]
    congr 1
    push_cast
    ring
  · rw [← sinc_intCast hz]
    congr 1
    push_cast
    ring

/-- A sum over the indices below `2N - 1` whose terms vanish at the odd ones. -/
theorem sum_range_even {n : ℕ} (hn : 0 < n) (g : ℕ → ℂ) (hodd : ∀ j, j % 2 ≠ 0 → g j = 0) :
    ∑ j ∈ Finset.range (2 * n - 1), g j = ∑ k ∈ Finset.range n, g (2 * k) := by
  obtain ⟨n, rfl⟩ := Nat.exists_eq_add_of_le' hn
  induction n with
  | zero => simp
  | succ n ih =>
    rw [Finset.sum_range_succ, ← ih (by omega), show 2 * (n + 1 + 1) - 1 = 2 * (n + 1) - 1 + 1 + 1 by omega,
      Finset.sum_range_succ, Finset.sum_range_succ, hodd (2 * (n + 1) - 1) (by omega), add_zero,
      show 2 * (n + 1) - 1 + 1 = 2 * (n + 1) by omega]

/-- R191: outside the convolution's window the closed form has a zero of sinc. -/
theorem interp_eq_interpValue {n i : ℕ} (x : ℕ → ℂ) (hn : 2 ≤ n) (hi : i < 2 * n - 1) :
    interp n x i = interpValue n x i := by
  rw [interp, conv, sum_range_even (by omega), interpValue]
  · refine Finset.sum_congr rfl fun k hk => ?_
    have hkn := Finset.mem_range.1 hk
    have hx : stuffed x (2 * k) = x k := by simp [stuffed]
    split_ifs with hw
    · rw [hx, kernel_at hw.1 hn]
    · rw [sinc_outside_window hn (by omega), ofReal_zero, mul_zero]
  · intro j hj
    simp [stuffed, hj]

/-! The centred transforms (R147, R148). -/

/-- The root of unity of an integer depends on it modulo `N` only. -/
theorem exp_congr_of_modEq {n : ℕ} (hn : 0 < n) {u v : ℤ} (h : u ≡ v [ZMOD n]) :
    exp (2 * Real.pi * I * u / n) = exp (2 * Real.pi * I * v / n) := by
  obtain ⟨k, hk⟩ := h.symm.dvd
  have hn' : (n : ℂ) ≠ 0 := by exact_mod_cast hn.ne'
  have hu : (u : ℂ) = v + n * k := by exact_mod_cast (by linarith : u = v + n * k)
  rw [Complex.exp_eq_exp_iff_exists_int]
  refine ⟨k, ?_⟩
  rw [hu]
  field_simp

theorem sum_range_unshiftIndex {n : ℕ} (hn : 0 < n) (g : ℕ → ℂ) :
    ∑ i ∈ Finset.range n, g i = ∑ j ∈ Finset.range n, g (unshiftIndex n j) := by
  symm
  refine Finset.sum_nbij' (unshiftIndex n) (shiftIndex n) ?_ ?_ ?_ ?_ ?_
  · exact fun j _ => Finset.mem_range.2 (unshiftIndex_lt hn j)
  · exact fun i _ => Finset.mem_range.2 (shiftIndex_lt hn i)
  · exact fun j hj => shift_unshift (Finset.mem_range.1 hj)
  · exact fun i hi => unshift_shift (Finset.mem_range.1 hi)
  · exact fun _ _ => rfl

/-- The index that the shift sends to `j` is `j` counted from the centre, modulo `N`. -/
theorem unshiftIndex_modEq (n j : ℕ) : (unshiftIndex n j : ℤ) ≡ j - (n / 2 : ℕ) [ZMOD n] := by
  rw [unshiftIndex, Int.natCast_mod]
  refine (Int.mod_modEq _ _).trans ?_
  rw [Int.modEq_iff_dvd]
  refine ⟨-1, ?_⟩
  have : n / 2 ≤ n := Nat.div_le_self n 2
  push_cast [Nat.cast_sub this]
  ring

theorem centred_eq_centredValue (s : ℤ) {n m : ℕ} (f : ℕ → ℂ) (hn : 0 < n) :
    centred s n f m = centredValue s n f m := by
  rw [centred, dft, sum_range_unshiftIndex hn, centredValue, one_div, inv_mul_eq_div]
  congr 1
  refine Finset.sum_congr rfl fun j hj => ?_
  have hj' : (unshiftIndex n j + n / 2) % n = j := shift_unshift (Finset.mem_range.1 hj)
  have hmod : s * (unshiftIndex n m * unshiftIndex n j) ≡ s * ((m - (n / 2 : ℕ)) * (j - (n / 2 : ℕ))) [ZMOD n] :=
    ((unshiftIndex_modEq n m).mul (unshiftIndex_modEq n j)).mul_left s
  have hexp := exp_congr_of_modEq hn hmod
  simp only [Int.cast_mul, Int.cast_sub, Int.cast_natCast] at hexp
  rw [hj', ← unshiftIndex]
  congr 1
  convert hexp using 2 <;> ring

/-! The engine (R221). -/

/-- The padded signal restricts a sum to the `2N - 1` indices of the upsampled one. -/
theorem sum_padded {n : ℕ} (hn : 1 ≤ n) (u g : ℕ → ℂ) :
    ∑ j ∈ Finset.range (4 * n - 3), padded n u j * g j =
      ∑ l ∈ Finset.range (2 * n - 1), u l * g (n - 1 + l) := by
  have hout {j : ℕ} (h : j < n - 1 ∨ 3 * n - 2 ≤ j) : padded n u j * g j = 0 := by
    rw [padded, if_neg (by omega), zero_mul]
  rw [show 4 * n - 3 = n - 1 + (2 * n - 1) + (n - 1) by omega, Finset.sum_range_add, Finset.sum_range_add,
    Finset.sum_eq_zero fun j hj => hout (.inl (Finset.mem_range.1 hj)),
    Finset.sum_eq_zero fun j _ => hout (j := n - 1 + (2 * n - 1) + j) (.inr (by omega)), zero_add, add_zero]
  refine Finset.sum_congr rfl fun l hl => ?_
  have := Finset.mem_range.1 hl
  rw [padded, if_pos (by omega), Nat.add_sub_cancel_left]

theorem conv_eq_sum {lp lq t : ℕ} (p q : ℕ → ℂ) (h1 : lp ≤ t + 1) (h2 : t < lq) :
    conv lp lq p q t = ∑ j ∈ Finset.range lp, p j * q (t - j) := by
  refine Finset.sum_congr rfl fun j hj => if_pos ?_
  have := Finset.mem_range.1 hj
  omega

/-- Chirp 1 at the padded index of the upsampled sample `l`. -/
theorem chirp1_at {n : ℕ} (a : ℝ) (l : ℕ) (hn : 1 ≤ n) :
    chirp1 n a (n - 1 + l) = exp (-I * (beta n a : ℂ) * ((l : ℂ) - ((n : ℂ) - 1)) ^ 2) := by
  rw [chirp1]
  push_cast [Nat.cast_sub hn]
  ring_nf

/-- Chirp 2 between the padded indices of output `2i` and of the upsampled sample `l`. -/
theorem chirp2_at {n i l : ℕ} (a : ℝ) (hn : 1 ≤ n) (h : l ≤ 4 * n - 4 + 2 * i) :
    chirp2 n a (4 * n - 4 + (n - 1 + 2 * i) - (n - 1 + l)) =
      exp (I * (rate n a : ℂ) * ((2 * (i : ℂ) - ((n : ℂ) - 1)) - ((l : ℂ) - ((n : ℂ) - 1))) ^ 2) := by
  have hidx : 4 * n - 4 + (n - 1 + 2 * i) - (n - 1 + l) + l + 4 = 4 * n + 2 * i := by omega
  have hidx' : ((4 * n - 4 + (n - 1 + 2 * i) - (n - 1 + l) : ℕ) : ℂ) + l + 4 = 4 * n + 2 * i := by exact_mod_cast hidx
  rw [chirp2, eq_sub_of_add_eq (eq_sub_of_add_eq hidx')]
  ring_nf

/-- R216, R221: the chirp convolution at output `2i`, over the upsampled samples. -/
theorem chirp_conv_eq {n i : ℕ} (f : ℕ → ℂ) (a : ℝ) (hn : 2 ≤ n) (hi : i < n) :
    conv (4 * n - 3) (8 * n - 7) (fun j => chirp1 n a j * padded n (interp n f) j) (chirp2 n a)
        (4 * n - 4 + (n - 1 + 2 * i)) =
      ∑ l ∈ Finset.range (2 * n - 1),
        interpValue n f l * exp (-I * (beta n a : ℂ) * ((l : ℂ) - ((n : ℂ) - 1)) ^ 2) *
          exp (I * (rate n a : ℂ) * ((2 * (i : ℂ) - ((n : ℂ) - 1)) - ((l : ℂ) - ((n : ℂ) - 1))) ^ 2) := by
  rw [conv_eq_sum _ _ (by omega) (by omega)]
  simp only [mul_comm (chirp1 n a _) (padded n _ _), mul_assoc (padded n _ _)]
  rw [sum_padded (by omega) (interp n f) fun j => chirp1 n a j * chirp2 n a (4 * n - 4 + (n - 1 + 2 * i) - j)]
  refine Finset.sum_congr rfl fun l hl => ?_
  have hl' := Finset.mem_range.1 hl
  rw [interp_eq_interpValue f hn hl', chirp1_at a l (by omega), chirp2_at a (by omega) (by omega)]
  exact (mul_assoc _ _ _).symm

theorem engine_eq_engineValue {n i : ℕ} (f : ℕ → ℂ) (a : ℝ) (hn : 2 ≤ n) (hi : i < n) :
    engine n f a i = engineValue n f a i := by
  rw [engine, engineValue, chirp_conv_eq f a hn hi, chirp1_at a (2 * i) (by omega)]
  push_cast
  ring

/-! FRFT and IFRFT (R241, R244). -/

theorem reduceSignal_eq_reduceSignalValue {n : ℕ} (r : Reduced) (f : ℕ → ℂ) (hn : 0 < n) :
    reduceSignal n r f = reduceSignalValue n r f := by
  have hc (s : ℤ) (g : ℕ → ℂ) : centred s n g = centredValue s n g :=
    funext fun m => centred_eq_centredValue s g hn
  simp only [reduceSignal, reduceSignalValue, hc]

theorem transformAt_eq_transformValue {n m : ℕ} (cls : OrderClass) (r : Reduced) (f : ℕ → ℂ) (hn : 2 ≤ n) (hm : m < n) :
    transformAt n cls r f m = transformValue n cls r f m := by
  have hpos : 0 < n := by omega
  cases cls with
  | identity => rfl
  | parity => rfl
  | cdft => exact centred_eq_centredValue _ _ hpos
  | cidft => exact centred_eq_centredValue _ _ hpos
  | general => rw [transformAt, transformValue, engine_eq_engineValue _ _ hn hm, reduceSignal_eq_reduceSignalValue _ _ hpos]

/-! The order path over the reals (R141, R175, R177). -/

theorem floormod4_nonneg (a : ℝ) : 0 ≤ floormod4 a := by
  have := Int.floor_le (a / 4)
  rw [floormod4]; linarith

theorem floormod4_lt_four (a : ℝ) : floormod4 a < 4 := by
  have := Int.lt_floor_add_one (a / 4)
  rw [floormod4]; linarith

theorem eq_floormod4_add (a : ℝ) : ∃ k : ℤ, a = floormod4 a + 4 * k := ⟨⌊a / 4⌋, by rw [floormod4]; ring⟩

theorem reduceParity_fst (x : ℝ) : (reduceParity x).1 = x - if (reduceParity x).2 then 2 else 0 := by
  rw [reduceParity]
  split <;> simp

theorem reduceForward_fst (x : ℝ) : (reduceForward x).1 = x - if (reduceForward x).2 then 1 else 0 := by
  rw [reduceForward]
  split <;> simp

theorem reduceInverse_fst (x : ℝ) : (reduceInverse x).1 = x + if (reduceInverse x).2 then 1 else 0 := by
  rw [reduceInverse]
  split <;> simp

/-- R177: what the three steps subtract and add. -/
theorem reduceOrder_ae (ar : ℝ) : (reduceOrder ar).ae =
    ar - (if (reduceOrder ar).p then 2 else 0) - (if (reduceOrder ar).f then 1 else 0) +
      (if (reduceOrder ar).i then 1 else 0) :=
  (reduceInverse_fst _).trans <| congrArg (· + _) <| (reduceForward_fst _).trans <| congrArg (· - _) (reduceParity_fst ar)

/-- R176: step 2 leaves more than one half, so that step 3 does not fire after it. -/
theorem not_forward_and_inverse (ar : ℝ) : ¬ ((reduceOrder ar).f = true ∧ (reduceOrder ar).i = true) := by
  simp only [reduceOrder]
  generalize (reduceParity ar).1 = x
  by_cases h : 3 / 2 < x
  · have hge : ¬ x - 1 < 1 / 2 := by linarith
    simp only [reduceForward, reduceInverse, if_pos h, if_neg hge, Bool.false_eq_true, and_false, not_false_eq_true]
  · simp [reduceForward, h]

theorem reduceParity_range {x : ℝ} (h0 : 0 ≤ x) (h4 : x < 4) : 0 ≤ (reduceParity x).1 ∧ (reduceParity x).1 ≤ 2 := by
  unfold reduceParity
  split_ifs with h
  · exact ⟨sub_nonneg.2 h.le, sub_le_iff_le_add.2 (by linarith)⟩
  · exact ⟨h0, not_lt.1 h⟩

theorem reduceForward_range {x : ℝ} (h0 : 0 ≤ x) (h2 : x ≤ 2) : 0 ≤ (reduceForward x).1 ∧ (reduceForward x).1 ≤ 3 / 2 := by
  unfold reduceForward
  split_ifs with h
  · exact ⟨sub_nonneg.2 (by linarith), sub_le_iff_le_add.2 (by linarith)⟩
  · exact ⟨h0, not_lt.1 h⟩

theorem reduceInverse_range {x : ℝ} (h0 : 0 ≤ x) (h1 : x ≤ 3 / 2) :
    1 / 2 ≤ (reduceInverse x).1 ∧ (reduceInverse x).1 ≤ 3 / 2 := by
  unfold reduceInverse
  split_ifs with h
  · exact ⟨by linarith, by linarith⟩
  · exact ⟨not_lt.1 h, h1⟩

/-- R175: each step narrows the interval of the order. -/
theorem reduceOrder_range {ar : ℝ} (h0 : 0 ≤ ar) (h4 : ar < 4) :
    1 / 2 ≤ (reduceOrder ar).ae ∧ (reduceOrder ar).ae ≤ 3 / 2 := by
  obtain ⟨hp0, hp2⟩ := reduceParity_range h0 h4
  obtain ⟨hf0, hf1⟩ := reduceForward_range hp0 hp2
  exact reduceInverse_range hf0 hf1

end Sys2Proof.Machine.Reference

namespace Sys2Proof.Machine

open Reference in
/-- Settles O60: the convolutions' windows cover every term that is not zero, and the centred transforms' shifts are counted modulo N. -/
theorem referenceEngineClosedForm : Obligations.ReferenceEngineClosedForm := by
  unfold Obligations.ReferenceEngineClosedForm
  refine ⟨fun n f a i hn hi => engine_eq_engineValue f a hn hi,
    fun n f a m hn hm => ⟨transformAt_eq_transformValue _ _ f hn hm, rfl⟩,
    fun n f a m hn hm => ⟨transformAt_eq_transformValue _ _ f hn hm, rfl⟩, fun a => ?_⟩
  have h0 := floormod4_nonneg a
  have h4 := floormod4_lt_four a
  exact ⟨h0, h4, eq_floormod4_add a, reduceOrder_ae _, not_forward_and_inverse _, fun _ => Reference.reduceOrder_range h0 h4⟩

end Sys2Proof.Machine
end

section
/-! PROOFS. The register window and the buffers as the host reads and writes them (R20 to R34, R42, R66 to R69, R265): one rule per
kind of access, on the host's turn. -/

namespace Sys2Proof.Machine

/-! Registers by name (R20). -/

theorem regOffset_lt (r : Reg) : (regOffset r).toNat < 0x1000 := by cases r <;> decide

theorem regOffset_aligned (r : Reg) : (regOffset r).toNat % 8 = 0 := by cases r <;> decide

/-- The register window's map finds each register at its offset. -/
@[simp] theorem regAt_regOffset (r : Reg) : regAt (regOffset r).toNat = some r := by cases r <;> rfl

theorem readRegAt_regOffset (r : Reg) (s : State) : readRegAt (regOffset r).toNat s = readReg r s := by
  rw [readRegAt, regAt_regOffset]

theorem writeRegAt_regOffset (r : Reg) (v : BitVec 64) (s : State) : writeRegAt (regOffset r).toNat v s = writeReg r v s := by
  rw [writeRegAt, regAt_regOffset]

/-- The state in which the port serves the host's access: the access and the choice of agent are used up. -/
def served (s : State) (rest : List HostAccess) : State := { advance s with hostQueue := rest }

theorem respondHost_served (s : State) (rest : List HostAccess) (r : PortResponse) :
    respondHost r (served s rest) = answered s rest r := rfl

theorem readReg_served (r : Reg) (s : State) (rest : List HostAccess) : readReg r (served s rest) = readReg r s := by
  cases r <;> rfl

/-- A buffer write is dropped while busy (R66). -/
theorem writeXbuf_busy {off : Nat} {s : State} (v : BitVec 64) (hb : s.busy = true) : writeXbuf off v s = dropWrite s :=
  if_pos hb

section HostTurn

variable {s : State} {rest : List HostAccess} {r : Reg} {off : BitVec 32} {v : BitVec 64}

theorem HostTurn.step_read_named (h : HostTurn s (.read (regOffset r) 8) rest) :
    step s = .next (answered s rest (.data (readReg r s))) := by
  rw [h.step_read_reg (regOffset_lt r) (regOffset_aligned r), readRegAt_regOffset, ← readReg_served r s rest]; rfl

theorem HostTurn.step_write_named (h : HostTurn s (.write (regOffset r) 8 v) rest) :
    step s = .next (respondHost .written (writeReg r v (served s rest))) := by
  rw [h.step_write_reg (regOffset_lt r) (regOffset_aligned r), writeRegAt_regOffset]; rfl

/-- A write of a register that ignores writes has no effect but its answer (R20). -/
theorem HostTurn.step_write_ignored (h : HostTurn s (.write (regOffset r) 8 v) rest) (hr : ∀ t, writeReg r v t = t) :
    step s = .next (answered s rest .written) := by
  rw [h.step_write_named, hr, respondHost_served]

theorem HostTurn.step_read_reserved (h : HostTurn s (.read off 8) rest) (hlo : 0x058 ≤ off.toNat) (hhi : off.toNat ≤ 0xFF8)
    (h8 : off.toNat % 8 = 0) : step s = .next (answered s rest (.data 0)) := by
  rw [h.step_read_reg (by omega) h8, readRegAt, regAt_reserved hlo]

theorem HostTurn.step_write_reserved (h : HostTurn s (.write off 8 v) rest) (hlo : 0x058 ≤ off.toNat)
    (hhi : off.toNat ≤ 0xFF8) (h8 : off.toNat % 8 = 0) : step s = .next (answered s rest .written) := by
  rw [h.step_write_reg (by omega) h8, writeRegAt, regAt_reserved hlo]; rfl

/-- A write of a register that is locked while busy is dropped: it sets OVR and changes nothing else (R265). -/
theorem HostTurn.step_write_locked (h : HostTurn s (.write (regOffset r) 8 v) rest) (hb : s.busy = true)
    (hr : ∀ t, t.busy = true → writeReg r v t = dropWrite t) :
    step s = .next { answered s rest .written with ovr := true } := by
  rw [h.step_write_named, hr (served s rest) hb]; rfl

theorem HostTurn.step_write_xbuf_locked (h : HostTurn s (.write off 8 v) rest) (hb : s.busy = true)
    (hx : inXbuf off.toNat = true) (h8 : off.toNat % 8 = 0) :
    step s = .next { answered s rest .written with ovr := true } := by
  have hs : step s = .next (respondHost .written (writeXbuf off.toNat v (served s rest))) := h.step_write_xbuf hx h8
  rw [hs, writeXbuf_busy (s := served s rest) v hb]; rfl

end HostTurn

/-- Settles O7: CMD, LEN, ORDER and XBUF all end in the one dropped write. -/
theorem busyOperandWritesAreDropped : Obligations.BusyOperandWritesAreDropped := by
  unfold Obligations.BusyOperandWritesAreDropped
  rintro s rest off v h hb (rfl | rfl | rfl | ⟨h8, hx⟩)
  · exact h.step_write_locked (r := .cmd) hb fun _ h => if_pos h
  · exact h.step_write_locked (r := .len) hb fun _ h => if_pos h
  · exact h.step_write_locked (r := .order) hb fun _ h => if_pos h
  · exact h.step_write_xbuf_locked hb hx h8

theorem writeReg_len_idle {s : State} (v : BitVec 64) (hb : s.busy = false) :
    writeReg .len v s = { s with len := v.extractLsb' 0 32 } := by
  rw [writeReg, hb, BitVec.setWidth_eq_extractLsb' (by omega)]; rfl

theorem writeReg_order_idle {s : State} (v : BitVec 64) (hb : s.busy = false) :
    writeReg .order v s = { s with order := v } := by
  rw [writeReg, hb]; rfl

/-- Settles O8: the unlocked branches of the two operand registers. -/
theorem idleLenAndOrderWritesStore : Obligations.IdleLenAndOrderWritesStore := by
  unfold Obligations.IdleLenAndOrderWritesStore
  intro s rest v hb
  refine ⟨fun h => ⟨_, ?_, rfl, ?_⟩, fun h => ⟨_, ?_, rfl, rfl⟩⟩
  · rw [h.step_write_named (r := .len), writeReg_len_idle (s := served s rest) v hb]; rfl
  · simp only [readReg, BitVec.toNat_setWidth, BitVec.extractLsb'_toNat, Nat.shiftRight_zero]
    omega
  · rw [h.step_write_named (r := .order), writeReg_order_idle (s := served s rest) v hb]; rfl

theorem ctrlWord_eq_ite (s : State) : ctrlWord s = if s.ie then 1 else 0 := by
  unfold ctrlWord
  cases s.ie <;> rfl

/-- The lowest bit is the value modulo 2. -/
theorem toNat_ite_getLsbD_zero (v : BitVec 64) : (if v.getLsbD 0 then 1 else 0 : BitVec 64).toNat = v.toNat % 2 := by
  rw [BitVec.getLsbD, Nat.testBit_zero]
  rcases Nat.mod_two_eq_zero_or_one v.toNat with h | h <;> simp [h]

/-- A write-one-to-clear bit (R24). -/
theorem and_not_eq_ite (d b : Bool) : (d && !b) = if b then false else d := by cases b <;> simp

theorem clearStatus_eq (v : BitVec 64) (s : State) :
    clearStatus v s = { s with
      done := if v.getLsbD 1 then false else s.done
      ovr := if v.getLsbD 2 then false else s.ovr } := by
  rw [clearStatus, and_not_eq_ite, and_not_eq_ite]

/-- Settles O9: neither register's write looks at BUSY. -/
theorem ctrlAndStatusWritesAtAnyTime : Obligations.CtrlAndStatusWritesAtAnyTime := by
  unfold Obligations.CtrlAndStatusWritesAtAnyTime
  intro s rest v
  refine ⟨fun h => ⟨_, h.step_write_named (r := .ctrl), rfl, ?_⟩, fun h => ?_⟩
  · rw [readReg, ctrlWord_eq_ite]
    exact toNat_ite_getLsbD_zero v
  · rw [h.step_write_named (r := .status), writeReg, clearStatus_eq]; rfl

/-- Settles O10: the write of a read-only register is the identity, and at a reserved offset there is no register. -/
theorem readOnlyAndReservedWritesAreIgnored : Obligations.ReadOnlyAndReservedWritesAreIgnored := by
  unfold Obligations.ReadOnlyAndReservedWritesAreIgnored
  rintro s rest off v h (rfl | rfl | rfl | rfl | rfl | rfl | ⟨hlo, hhi, h8⟩)
  · exact h.step_write_ignored (r := .id) fun _ => rfl
  · exact h.step_write_ignored (r := .cap) fun _ => rfl
  · exact h.step_write_ignored (r := .orderRed) fun _ => rfl
  · exact h.step_write_ignored (r := .orderEng) fun _ => rfl
  · exact h.step_write_ignored (r := .path) fun _ => rfl
  · exact h.step_write_ignored (r := .outlen) fun _ => rfl
  · exact h.step_write_reserved hlo hhi h8

/-- Settles O11: the register at each offset, and none at the reserved ones. -/
theorem registerReadsReturnTheRegisters : Obligations.RegisterReadsReturnTheRegisters := by
  unfold Obligations.RegisterReadsReturnTheRegisters
  intro s rest off h
  refine ⟨?_, ?_, ?_, ?_, ?_, ?_, ?_, ?_, ?_, ?_, ?_, h.step_read_reserved⟩ <;> rintro rfl
  · exact h.step_read_named (r := .id)
  · rw [← capWord_eq]; exact h.step_read_named (r := .cap)
  · rw [← ctrlWord_eq_ite]; exact h.step_read_named (r := .ctrl)
  · exact h.step_read_named (r := .status)
  · exact h.step_read_named (r := .cmd)
  · rw [BitVec.ofNat_toNat]; exact h.step_read_named (r := .len)
  · exact h.step_read_named (r := .order)
  · exact h.step_read_named (r := .orderRed)
  · exact h.step_read_named (r := .orderEng)
  · exact h.step_read_named (r := .path)
  · rw [BitVec.ofNat_toNat]; exact h.step_read_named (r := .outlen)

theorem inYbuf_of_inXbuf {a : Nat} (h : inXbuf a = true) : inYbuf a = false := by
  have := nmax_le
  rw [inXbuf_iff] at h
  rw [Bool.eq_false_iff, ne_eq, inYbuf_iff]; omega

/-- A YBUF word read while busy is a free draw (R67). -/
theorem readBuffer_busy {off : Nat} {s : State} (hb : s.busy = true) (hy : inYbuf off = true) :
    readBuffer off s = Config.freeWord s.draws := by
  rw [readBuffer, hb, hy]; rfl

/-- Any other buffer word reads as stored, or as a free draw (R42, R68). -/
theorem readBuffer_stored {off : Nat} {s : State} (h : s.busy = false ∨ inXbuf off = true) :
    readBuffer off s = (s.mem.readWord off).getD (Config.freeWord s.draws) := by
  have hc : (s.busy && inYbuf off) = false := by
    rcases h with h | h
    · rw [h, Bool.false_and]
    · rw [inYbuf_of_inXbuf h, Bool.and_false]
  rw [readBuffer, hc]; rfl

/-- Settles O17: XBUF and YBUF are disjoint, so a busy YBUF read is the only one that does not look at the stored word. -/
theorem bufferReadsReturnStoredOrFreeWord : Obligations.BufferReadsReturnStoredOrFreeWord := by
  unfold Obligations.BufferReadsReturnStoredOrFreeWord
  intro s rest off h h8 hm
  refine ⟨_, h.step_read_buffer hm h8, readBuffer_busy, fun hs => ⟨fun hn => ?_, fun w hw => ?_⟩⟩
  · rw [readBuffer_stored hs, hn, Option.getD_none]
  · rw [readBuffer_stored hs, hw, Option.getD_some]

/-! The fields of STATUS and PATH (R24, R32). -/

/-- Concatenation is positional. -/
theorem toNat_append_eq_add {m n : Nat} (x : BitVec m) (y : BitVec n) : (x ++ y).toNat = x.toNat * 2 ^ n + y.toNat := by
  rw [BitVec.toNat_append, ← Nat.shiftLeft_add_eq_or_of_lt y.isLt, Nat.shiftLeft_eq]

theorem toNat_ofBool_eq_ite (b : Bool) : (BitVec.ofBool b).toNat = if b then 1 else 0 := by cases b <;> rfl

/-- ERR is set exactly when ERRCODE is not 0 (R24). -/
theorem errFlag_eq (s : State) : errFlag s = decide (s.errcode ≠ .none) := by
  unfold errFlag
  cases s.errcode <;> rfl

/-- Settles O12: each word is a positional numeral of its fields. -/
theorem statusAndPathBits : Obligations.StatusAndPathBits := by
  unfold Obligations.StatusAndPathBits
  refine ⟨fun s => ?_, ⟨rfl, rfl, rfl, rfl, rfl⟩, rfl, rfl, fun c p f i => ?_, rfl, rfl, rfl, rfl, rfl⟩
  · simp only [statusWord, toNat_append_eq_add, toNat_ofBool_eq_ite, errFlag_eq, decide_eq_true_eq, ite_not,
      BitVec.ofNat_eq_ofNat, BitVec.toNat_ofNat]
    split_ifs <;> omega
  · simp only [pathWord, toNat_append_eq_add, toNat_ofBool_eq_ite, BitVec.ofNat_eq_ofNat, BitVec.toNat_ofNat]
    split_ifs <;> omega

end Sys2Proof.Machine
end

section
/-! PROOFS. The invariant of the machine (R24, R32, R35 to R38, R64, R81, R84, R87, R128). Every move of the sequencer starts from a state
that is READY: coherent but for its stage, with nothing outstanding. Each way on (a stage, a request, a completion) leads from ready
states to coherent ones, and each stage is a path along such ways. -/

namespace Sys2Proof.Machine

/-! Which commands reach a stage, and the lengths of their results (R33, R123). -/

theorem isTransform_iff {o : Op} : isTransform o = true ↔ o = .legal .frft ∨ o = .legal .ifrft := by
  rcases o with (_ | _ | _ | _ | _ | _) | _ <;> decide

theorem isData_of_isTransform {o : Op} (h : isTransform o = true) : isData o = true := by
  rcases o with (_ | _ | _ | _ | _ | _) | _ <;> trivial

theorem outLength_of_isTransform {o : Op} (h : isTransform o = true) (n : Nat) : outLength o n = n := by
  rcases o with (_ | _ | _ | _ | _ | _) | _ <;> trivial

/-- INTERP is the only data command whose result is not as long as its signal. -/
theorem outLength_of_ne_interp {o : Op} (h : isData o = true) (hi : o ≠ .legal .interp) (n : Nat) : outLength o n = n := by
  rcases o with (_ | _ | _ | _ | _ | _) | _ <;> trivial

/-- The result of the degenerate path has its one sample (R129). -/
theorem outLength_one {o : Op} (h : isData o = true) : outLength o 1 = 1 := by
  rcases o with (_ | _ | _ | _ | _ | _) | _ <;> trivial

theorem outLength_le (o : Op) (n : Nat) : outLength o n ≤ 2 * n := by
  rcases o with (_ | _ | _ | _ | _ | _) | _ <;> simp only [outLength] <;> omega

theorem length_engineRun {num : Numerics} {f z : List Sample} {a : Binary64} (h : engineRun num f a = .ok z) :
    z.length = f.length := by
  unfold engineRun at h
  split at h
  · injection h with h
    rw [← h, length_engineBody]
  · cases h

/-- The results of the data commands fit YBUF (R5, R41). -/
theorem le_ycap {m n : Nat} (hm : m ≤ 2 * n) (hn : n ≤ Config.nmax) : m ≤ Config.ycap := by
  unfold Config.ycap
  omega

/-! The reducer's record (R32, R176). -/

/-- A record of which no step has fired is settled (R152). -/
theorem recordSettled_noFlags (ar ae : Binary64) (c : OrderClass) : recordSettled ⟨ar, ae, c, false, false, false⟩ :=
  ⟨⟨fun _ => ⟨rfl, rfl, rfl⟩, rfl⟩, fun h => Bool.noConfusion h⟩

/-- Steps 1 and 2 leave a GENERAL record settled: step 3 has not fired, and where step 2 fires it will not (R172, R173, R176). -/
theorem recordSettled_forward {o : OrderRecord} (hc : o.cls = .general) (hi : o.i = false) (a : Binary64) (p : Bool) :
    recordSettled { o with ae := (reduceForward a).1, p := p, f := (reduceForward a).2 } := by
  refine ⟨⟨fun h => absurd hc h, by rw [hi, Bool.and_false]⟩, ?_⟩
  unfold reduceForward
  split
  · exact fun _ => not_inverse_after_forward ‹_›
  · exact fun h => Bool.noConfusion h

/-- Step 3 keeps a GENERAL record settled: where step 2 has fired it does not (R174, R176). -/
theorem recordSettled_inverse {o : OrderRecord} (h : recordSettled o) (hc : o.cls = .general) :
    recordSettled { o with ae := (reduceInverse o.ae).1, i := (reduceInverse o.ae).2 } := by
  obtain ⟨-, hf⟩ := h
  have hkeep : o.f = true → reduceInverse o.ae = (o.ae, false) := fun h => by rw [reduceInverse, hf h]; rfl
  refine ⟨⟨fun h => absurd hc h, ?_⟩, fun h => ?_⟩
  · cases h : o.f
    · rfl
    · rw [hkeep h]; rfl
  · rw [hkeep h]; exact hf h

/-! Ready states. -/

/-- A command runs and the sequencer is free to move: what a coherent state holds apart from its stage, with nothing outstanding. -/
structure Ready (s : State) : Prop where
  memSorted : s.mem.wf = true
  memMapped : ∀ c ∈ s.mem, inXbuf c.1 = true ∨ inYbuf c.1 = true
  busy : s.busy = true
  doneClear : s.done = false
  noError : s.errcode = .none
  lastopOfCmd : s.lastop = opField s.cmd
  snapHeld : s.snap = ⟨opOfWord s.cmd, s.len, s.order⟩
  record : recordSettled s.work.order
  path : pathLegal s.path
  outlen : s.outlen.toNat ≤ Config.ycap
  pend : s.pend = none
  coreResp : s.coreResp = none

theorem Coherent.busy_of_run {s : State} (h : Coherent s) {st : Stage} (hs : s.seq = .run st) : s.busy = true := by
  rw [← Bool.not_eq_false, ← h.idleIffNotBusy, hs]
  exact Seq.noConfusion

/-- A response stands only where a request is outstanding. -/
theorem Coherent.coreResp_of_pend {s : State} (h : Coherent s) (hp : s.pend = none) : s.coreResp = none := by
  cases hg : s.coreResp with
  | none => rfl
  | some g =>
    obtain ⟨r, hr, -⟩ := h.response g hg
    rw [hp] at hr
    cases hr

/-- A coherent state in which a command runs is ready once the response, if any, is taken. -/
theorem Coherent.ready_takeResponse {s : State} (h : Coherent s) {st : Stage} (hs : s.seq = .run st) :
    Ready (takeResponse s) := by
  have hb := h.busy_of_run hs
  obtain ⟨hdone, herr⟩ := h.busyStatus hb
  exact { h with busy := hb, doneClear := hdone, noError := herr, snapHeld := h.snapHeld hb, pend := rfl, coreResp := rfl }

theorem Coherent.ready {s : State} (h : Coherent s) {st : Stage} (hs : s.seq = .run st) (hp : s.pend = none) : Ready s := by
  have ht : takeResponse s = s := by
    have hg := h.coreResp_of_pend hp
    cases s
    simp_all [takeResponse]
  rw [← ht]
  exact h.ready_takeResponse hs

namespace Ready

variable {s : State}

/-! What a ready state may change. -/

theorem useDraws (h : Ready s) (n : Nat) : Ready (Machine.useDraws n s) := { h with }

theorem setWork (h : Ready s) {w : Work} (hw : recordSettled w.order) : Ready { s with work := w } := { h with record := hw }

theorem setPath (h : Ready s) {a b : Binary64} {p : PathReg} (hp : pathLegal p) :
    Ready { s with orderRed := a, orderEng := b, path := p } := { h with path := hp }

/-- The result registers take a legal PATH from a settled record (R129, R150). -/
theorem orderWrites (h : Ready s) : Ready (Machine.orderWrites s) := by
  have hw : Ready (writeOrder s.work.order s) := h.setPath h.record.1
  have hp : Ready { s with path := .short } := h.setPath trivial
  unfold Machine.orderWrites
  split
  · split <;> assumption
  · split <;> assumption
  · exact hw
  all_goals exact h

/-! The ways on from a ready state. -/

/-- On to a stage, with or without a request. -/
theorem enter (h : Ready s) {st : Stage} {p : Option CoreRequest} (hs : stageCoherent { s with seq := .run st, pend := p }) :
    Coherent { s with seq := .run st, pend := p } :=
  { h with
    idleIffNotBusy := by simp [h.busy]
    busyStatus := fun _ => ⟨h.doneClear, h.noError⟩
    snapHeld := fun _ => h.snapHeld
    stage := hs
    response := fun g hg => by simp [h.coreResp] at hg }

theorem goStage (h : Ready s) {st : Stage} (hs : stageCoherent (Machine.goStage st s)) : Coherent (Machine.goStage st s) :=
  h.enter (p := s.pend) hs

theorem issue (h : Ready s) {r : CoreRequest} {st : Stage} (hs : stageCoherent (Machine.issue r st s)) :
    Coherent (Machine.issue r st s) :=
  h.enter (p := some r) hs

/-- A data command's result is there, of the length R33 gives. -/
theorem goFinish (h : Ready s) {r : List Sample} (hd : isData s.snap.op = true) (h1 : 1 ≤ lengthOperand s)
    (hn : lengthOperand s ≤ Config.nmax) (hr : r.length = outLength s.snap.op (lengthOperand s)) :
    Coherent (Machine.goFinish r s) :=
  (h.setWork (w := { s.work with result := r }) h.record).goStage ⟨h.pend, .inr ⟨hd, h1, hn, hr⟩⟩

/-- The REDUCE command has no YBUF entry to write (R155). -/
theorem goFinish_reduce (h : Ready s) (hop : s.snap.op = .legal .reduce) : Coherent (Machine.goFinish [] s) :=
  (h.setWork (w := { s.work with result := [] }) h.record).goStage ⟨h.pend, .inl ⟨hop, rfl⟩⟩

/-- A transform's result is as long as its signal. -/
theorem goFinish_transform (h : Ready s) {r : List Sample} (ht : isTransform s.snap.op = true) (hl : signalLoaded s)
    (hr : r.length = s.work.f.length) : Coherent (Machine.goFinish r s) := by
  obtain ⟨h2, hn, hf⟩ := hl
  exact h.goFinish (isData_of_isTransform ht) (by omega) hn (by rw [outLength_of_isTransform ht, hr, hf])

/-- An FFT request of the signal's length (R81). -/
theorem issueFft (h : Ready s) {dir : Dir} {x : List Sample} (ht : isTransform s.snap.op = true) (hl : signalLoaded s)
    (hx : x.length = s.work.f.length) : Coherent (Machine.issue (.fft dir x) .fftWait s) := by
  obtain ⟨h2, hn, hf⟩ := hl
  exact h.issue ⟨⟨dir, x, rfl, hx.trans hf⟩, ht, h2, hn, hf⟩

/-- The interpolation request (R84). -/
theorem issueInterp (h : Ready s) (hd : isData s.snap.op = true) (hl : signalLoaded s) : Coherent (Machine.issueInterp s) := by
  obtain ⟨h2, hn, hf⟩ := hl
  refine h.issue ⟨⟨_, _, rfl, ?_, ?_⟩, hd, h2, hn, hf⟩
  · rw [length_zeroStuff, hf]; rfl
  · rw [length_sincKernel, hf]; rfl

/-- The chirp convolution request (R84, R216). -/
theorem issueChirp (h : Ready s) (hd : isData s.snap.op = true) (hop : s.snap.op ≠ .legal .interp) (hl : signalLoaded s)
    (h1 : s.work.chirp1.length = 4 * lengthOperand s - 3) (hp : s.work.p.length = 4 * lengthOperand s - 3)
    (h2 : s.work.chirp2.length = 8 * lengthOperand s - 7) :
    Coherent (Machine.issue (.conv (premultiply s.work.chirp1 s.work.p) s.work.chirp2) .chirpWait s) := by
  refine h.issue ⟨⟨_, _, rfl, ?_, h2⟩, hd, hop, hl, h1⟩
  rw [length_premultiply, h1, hp, Nat.min_self]; rfl

theorem raiseErr (h : Ready s) (c : ErrCode) : Coherent (Machine.raiseErr c s) :=
  coherent_raiseErr c h.memSorted h.memMapped h.lastopOfCmd h.path

theorem finish (h : Ready s) {r : List Sample} (hr : r.length ≤ Config.ycap) : Coherent (Machine.finish r s) :=
  coherent_finish hr h.memSorted h.memMapped h.lastopOfCmd h.path

theorem complete (h : Ready s) {r : Except ErrCode (List Sample)} (hr : ∀ z, r = .ok z → z.length ≤ Config.ycap) :
    Coherent (Machine.complete r s) := by
  cases r with
  | ok z => exact h.finish (hr z rfl)
  | error c => exact h.raiseErr c

/-! The whole command in one step (R132). -/

theorem finishShort (h : Ready s) : Coherent (Machine.finishShort s) :=
  (h.useDraws 1).finish (le_ycap (n := 1) one_le_two (by have := nmax_ge; omega))

theorem dataCommand (h : Ready s) {short : State → State} {body : List Sample → State → State} (hshort : Coherent (short s))
    (hbody : ∀ f t, Ready t → 2 ≤ f.length → f.length ≤ Config.nmax → Coherent (body f t)) :
    Coherent (Machine.dataCommand short body s) := by
  rcases dataCommand_cases short body s with ⟨-, e⟩ | ⟨-, e⟩ | ⟨-, e⟩ | ⟨h2, hn, e⟩ <;> rw [e]
  · exact h.raiseErr _
  · exact h.raiseErr _
  · exact hshort
  · have hlen : (inputSignal s).length = lengthOperand s := length_xSamples _ _ _
    exact hbody _ _ (h.useDraws _) (by omega) (by omega)

theorem transformAt (h : Ready s) (a : Binary64) : Coherent (Machine.transformAt a s) := by
  refine h.dataCommand (h.setPath (p := .short) trivial).finishShort fun f t ht _ hn => ?_
  refine (ht.setPath (p := .dispatched _ _ _ _) (dispatchOrder_flags a)).complete fun z hz => ?_
  rw [length_transformResult hz]
  exact le_ycap (Nat.le_mul_of_pos_left _ Nat.two_pos) hn

theorem reduceFinish (h : Ready s) (a : Binary64) : Coherent (Machine.reduceFinish (dispatchOrder a) s) := by
  have hw : Ready (writeOrder (dispatchOrder a) s) := h.setPath (p := .dispatched _ _ _ _) (dispatchOrder_flags a)
  unfold Machine.reduceFinish
  split
  · exact hw.raiseErr _
  · exact hw.finish (Nat.zero_le _)

/-- Every command leads from a ready state to a coherent one. -/
theorem exec (h : Ready s) {i : Instr} {t : State} (ht : Machine.exec i s = .next t) : Coherent t := by
  cases i <;> injection ht with ht <;> subst ht
  case nop => exact h.finish (Nat.zero_le _)
  case frft => exact h.transformAt _
  case ifrft => exact h.transformAt _
  case reduce => exact h.reduceFinish _
  case interp =>
    refine h.dataCommand h.finishShort fun f t ht h2 hn => ht.finish ?_
    rw [length_sincinterp h2]
    exact le_ycap (Nat.sub_le _ _) hn
  case engine =>
    refine h.dataCommand h.finishShort fun f t ht h2 hn => ht.complete fun z hz => ?_
    rw [length_engineRun hz]
    exact le_ycap (Nat.le_mul_of_pos_left _ Nat.two_pos) hn

/-! The stages (R125). -/

theorem startEngine (h : Ready s) (hd : isData s.snap.op = true) (hl : signalLoaded s) : Coherent (Machine.startEngine s) := by
  unfold Machine.startEngine
  split
  · exact h.issueInterp hd hl
  · exact h.orderWrites.raiseErr _

theorem stageLength (h : Ready s) {next : State → State} (hd : isData s.snap.op = true)
    (hnext : ∀ t, Ready t → t.snap = s.snap → signalLoaded t → Coherent (next t)) : Coherent (Machine.stageLength next s) := by
  unfold Machine.stageLength
  rcases lengthCase_cases (lengthOperand s) with ⟨-, e⟩ | ⟨-, e⟩ | ⟨h1, e⟩ | ⟨h2, hn, e⟩ <;> rw [e]
  · exact h.raiseErr _
  · exact h.raiseErr _
  · have hop : lengthOperand (Machine.useDraws 1 s) = 1 := h1
    refine (h.useDraws 1).goFinish hd (by omega) (by have := nmax_ge; omega) ?_
    rw [hop]
    exact (outLength_one hd).symm
  · exact hnext _ ((h.setWork (w := { s.work with f := inputSignal s }) h.record).useDraws _) rfl
      ⟨h2, hn, length_xSamples _ _ _⟩

theorem stageCheck (h : Ready s) : Coherent (Machine.stageCheck s) := by
  unfold Machine.stageCheck
  split <;> rename_i hop
  · exact h.raiseErr _
  · exact h.finish (Nat.zero_le _)
  · exact h.goStage ⟨h.pend, .inl hop⟩
  · exact h.stageLength (by rw [hop]; rfl) fun t ht hs hl => ht.goStage ⟨ht.pend, by rw [goStage_snap, hs, hop]; rfl, hl⟩
  · exact h.stageLength (by rw [hop]; rfl) fun t ht hs hl => ht.goStage ⟨ht.pend, by rw [goStage_snap, hs, hop]; rfl, hl⟩
  · exact h.stageLength (by rw [hop]; rfl) fun t ht hs hl => ht.issueInterp (by rw [hs, hop]; rfl) hl
  · exact h.stageLength (by rw [hop]; rfl) fun t ht hs hl => ht.startEngine (by rw [hs, hop]; rfl) hl

theorem stageDispatch (h : Ready s) (ht : isTransform s.snap.op = true) (hl : signalLoaded s) :
    Coherent (Machine.stageDispatch s) := by
  have hs : Ready (setOrder ⟨floormod4 (orderOperand s), floormod4 (orderOperand s), classify (floormod4 (orderOperand s)), false,
      false, false⟩ s) := h.setWork (recordSettled_noFlags _ _ _)
  unfold Machine.stageDispatch
  dsimp only
  split <;> rename_i hc
  · exact hs.goFinish_transform ht hl rfl
  · exact hs.goFinish_transform ht hl List.length_reverse
  · exact hs.issueFft ht hl (length_gather _)
  · exact hs.issueFft ht hl (length_gather _)
  · exact hs.goStage ⟨h.pend, .inr ⟨ht, hl, hc, rfl⟩⟩

theorem reduceStep3 (h : Ready s) (ht : isTransform s.snap.op = true) (hl : signalLoaded s) (hc : s.work.order.cls = .general) :
    Coherent (Machine.reduceStep3 s) := by
  have hs := h.setWork (w := { s.work with order := _ }) (recordSettled_inverse h.record hc)
  unfold Machine.reduceStep3
  dsimp only
  split
  · exact hs.issueFft ht hl (length_gather _)
  · exact hs.startEngine (isData_of_isTransform ht) hl

theorem reduceStep12 (h : Ready s) (ht : isTransform s.snap.op = true) (hl : signalLoaded s) (hc : s.work.order.cls = .general)
    (hi : s.work.order.i = false) : Coherent (Machine.reduceStep12 s) := by
  obtain ⟨h2, hn, hf⟩ := hl
  unfold Machine.reduceStep12
  dsimp only
  generalize hf1 : (if (reduceParity s.work.order.ae).2 then s.work.f.reverse else s.work.f) = f1
  have hlen : f1.length = lengthOperand s := by
    rw [← hf1, ← hf]
    split
    · exact List.length_reverse
    · rfl
  have hs := h.setWork (w := { s.work with f := f1, order := _ })
    (recordSettled_forward hc hi (reduceParity s.work.order.ae).1 (reduceParity s.work.order.ae).2)
  split
  · exact hs.issueFft ht ⟨h2, hn, hlen⟩ (length_gather _)
  · exact hs.reduceStep3 ht ⟨h2, hn, hlen⟩ hc

/-- The range reducer of FRFT and IFRFT, from its start or resumed at step 3. -/
theorem reducer (h : Ready s) (ht : isTransform s.snap.op = true) (hl : signalLoaded s) (hc : s.work.order.cls = .general)
    (hi : s.work.order.i = false) : Coherent (if s.work.order.f then Machine.reduceStep3 s else Machine.reduceStep12 s) := by
  split
  · exact h.reduceStep3 ht hl hc
  · exact h.reduceStep12 ht hl hc hi

/-- The REDUCE command's pipeline (R155). -/
theorem stageReduce_command (h : Ready s) (hop : s.snap.op = .legal .reduce) : Coherent (Machine.stageReduce s) := by
  have hs : Ready (setOrder (dispatchOrder s.snap.a0) s) := h.setWork (recordSettled_dispatch _)
  unfold Machine.stageReduce
  rw [hop]
  dsimp only
  split
  · exact hs.orderWrites.raiseErr _
  · exact hs.goFinish_reduce hop

theorem stageReduce_transform (h : Ready s) (ht : isTransform s.snap.op = true) (hl : signalLoaded s)
    (hc : s.work.order.cls = .general) (hi : s.work.order.i = false) : Coherent (Machine.stageReduce s) := by
  unfold Machine.stageReduce
  rcases isTransform_iff.1 ht with hop | hop <;> rw [hop] <;> exact h.reducer ht hl hc hi

end Ready

/-! From a stage that waits: the response has the contracted length. -/

theorem fftArrived_coherent {s : State} {g : List Sample} (h : Ready (takeResponse s)) (ht : isTransform s.snap.op = true)
    (hl : signalLoaded s) (hg : g.length = lengthOperand s) : Coherent (fftArrived g s) := by
  obtain ⟨h2, hn, -⟩ := hl
  have hlen : (centredFinish Config.num g).length = lengthOperand s := (length_centredFinish _ _).trans hg
  have hs : Ready { takeResponse s with work := { s.work with f := centredFinish Config.num g } } := h.setWork h.record
  unfold fftArrived
  cases hc : s.work.order.cls
  case general =>
    dsimp only
    split <;> rename_i hi
    · exact hs.startEngine (isData_of_isTransform ht) ⟨h2, hn, hlen⟩
    · exact hs.goStage ⟨rfl, .inr ⟨ht, ⟨h2, hn, hlen⟩, hc, Bool.eq_false_iff.2 hi⟩⟩
  all_goals exact hs.goFinish_transform ht ⟨h2, hn, hlen⟩ rfl

theorem interpArrived_coherent {s : State} {w : List Sample} (h : Ready (takeResponse s)) (hd : isData s.snap.op = true)
    (hl : signalLoaded s) (hw : w.length = 6 * lengthOperand s - 7) : Coherent (interpArrived w s) := by
  obtain ⟨h2, hn, hf⟩ := hl
  have hu : (interpTruncate (lengthOperand s) w).length = 2 * lengthOperand s - 1 := length_interpTruncate h2 hw
  unfold interpArrived
  dsimp only
  rw [hf]
  generalize interpTruncate (lengthOperand s) w = u at hu
  have hchirp (hop : s.snap.op ≠ .legal .interp) :=
    (h.setWork (w := { s.work with
        u := u
        p := padSymmetric (lengthOperand s) u
        chirp1 := makeChirp1 Config.num (lengthOperand s) (tana2Of Config.num (engineOrder s))
        chirp2 := makeChirp2 Config.num (lengthOperand s) (sinaOf Config.num (engineOrder s)) }) h.record).issueChirp
      hd hop ⟨h2, hn, hf⟩ (length_makeChirp1 _ _ _) (length_padSymmetric h2 hu) (length_makeChirp2 _ _ _)
  split <;> rename_i hop
  case h_1 =>
    refine (h.setWork (w := { s.work with u := u }) h.record).goFinish hd (Nat.le_of_succ_le h2) hn ?_
    rw [hu]
    exact (congrArg (outLength · (lengthOperand s)) hop).symm
  all_goals exact hchirp (by rw [hop]; decide)

theorem chirpArrived_coherent {s : State} (w : List Sample) (h : Ready (takeResponse s)) (hd : isData s.snap.op = true)
    (hop : s.snap.op ≠ .legal .interp) (hl : signalLoaded s) : Coherent (chirpArrived w s) := by
  obtain ⟨h2, hn, hf⟩ := hl
  refine (h.setWork (w := { s.work with w := w }) h.record).goFinish hd (Nat.le_of_succ_le h2) hn ?_
  rw [length_chirpFinish, hf]
  exact (outLength_of_ne_interp hd hop _).symm

/-! The host's writes of XBUF, and the state after reset. -/

/-- A mapped aligned word of XBUF lies in XBUF with all its bytes. -/
theorem inXbuf_of_word {a b : Nat} (h : inXbuf a = true) (h8 : a % 8 = 0) (hb : a ≤ b ∧ b < a + 8) : inXbuf b = true := by
  rw [inXbuf_iff] at *
  omega

/-- Outside the register window the port takes writes of XBUF words only (R62, R64, R65). -/
theorem xbuf_of_accepted {off : BitVec 32} {bytes : Nat} (h : accessFault true off bytes = none)
    (hr : inRegs off.toNat = false) : inXbuf off.toNat = true ∧ off.toNat % 8 = 0 := by
  have hacc := (accessFault_isSome true off bytes).not
  simp only [h, hr, Option.isSome_none, Bool.false_eq_true, not_false_eq_true, true_iff, not_or, not_not, true_and,
    Bool.false_or, Bool.not_eq_false, Bool.or_eq_true, inYbufWindow_iff, inYbuf_iff] at hacc
  obtain ⟨-, h8, hy, hm⟩ := hacc
  have := nmax_le
  exact ⟨hm.resolve_right (by omega), h8⟩

theorem coherent_reset : Coherent State.reset where
  memSorted := rfl
  memMapped _ hc := absurd hc List.not_mem_nil
  idleIffNotBusy := ⟨fun _ => rfl, fun _ => rfl⟩
  busyStatus hb := nomatch hb
  lastopOfCmd := by decide
  snapHeld hb := nomatch hb
  stage := ⟨rfl, rfl⟩
  response _ hg := nomatch hg
  record := recordSettled_empty
  path := trivial
  outlen := Nat.zero_le _

namespace Coherent

variable {s t : State}

/-! The engine and the cores. -/

/-- A stage that waits takes nothing but the NUM value of its request. -/
theorem onResponse (h : Coherent s) {r : CoreRequest} {k : List Sample → State → State} (hp : s.pend = some r)
    (hk : Coherent (k (respond Config.num r) s)) : Coherent (Machine.onResponse k s) := by
  unfold Machine.onResponse
  split
  · exact h
  · next g hg =>
    obtain ⟨r', hr, rfl⟩ := h.response g hg
    rw [hp] at hr
    cases hr
    exact hk

theorem stageStep (h : Coherent s) : Coherent (Machine.stageStep s) := by
  have hst := h.stage
  unfold stageCoherent at hst
  unfold Machine.stageStep
  split <;> rename_i hs <;> rw [hs] at hst
  · exact h
  · obtain ⟨hp, -⟩ := hst
    exact (h.ready hs hp).stageCheck
  · obtain ⟨hp, ht, hl⟩ := hst
    exact (h.ready hs hp).stageDispatch ht hl
  · obtain ⟨hp, hop | ⟨ht, hl, hc, hi⟩⟩ := hst
    · exact (h.ready hs hp).stageReduce_command hop
    · exact (h.ready hs hp).stageReduce_transform ht hl hc hi
  · obtain ⟨⟨dir, x, hp, hx⟩, ht, hl⟩ := hst
    refine h.onResponse hp (fftArrived_coherent (h.ready_takeResponse hs) ht hl ?_)
    rw [respond, length_fftResponse, hx]
  · obtain ⟨⟨p, q, hp, hplen, hqlen⟩, hd, h2, hl⟩ := hst
    refine h.onResponse hp (interpArrived_coherent (h.ready_takeResponse hs) hd ⟨h2, hl⟩ ?_)
    rw [respond, length_convResponse, hplen, hqlen]
    omega
  · obtain ⟨⟨p, q, hp, -⟩, hd, hop, hl, -⟩ := hst
    exact h.onResponse hp (chirpArrived_coherent _ (h.ready_takeResponse hs) hd hop hl)
  · obtain ⟨hp, hr⟩ := hst
    refine (h.ready hs hp).orderWrites.finish ?_
    rcases hr with ⟨-, hr⟩ | ⟨-, -, hn, hr⟩
    · rw [hr]; exact Nat.zero_le _
    · rw [hr]
      exact le_ycap (outLength_le _ _) hn

theorem commandStep (h : Coherent s) (ht : Machine.commandStep s = .next t) : Coherent t := by
  unfold Machine.commandStep at ht
  split at ht
  case h_2 hs =>
    have hst := h.stage
    rw [stageCoherent, hs] at hst
    obtain ⟨hp, -⟩ := hst
    have hr := h.ready hs hp
    split at ht
    · exact hr.exec ht
    · injection ht with ht
      exact ht ▸ hr.raiseErr _
  all_goals
    injection ht with ht
    exact ht ▸ h

theorem answer (h : Coherent s) {r : CoreRequest} (hp : s.pend = some r) : Coherent (Machine.answer r s) := by
  unfold Machine.answer
  split
  · exact { h with response := fun g hg => ⟨r, hp, (Option.some.inj hg).symm⟩ }
  · exact h

theorem fftCoreStep (h : Coherent s) : Coherent (Machine.fftCoreStep s) := by
  unfold Machine.fftCoreStep
  split
  · exact h.answer ‹_›
  · exact h
  · exact h

theorem convCoreStep (h : Coherent s) : Coherent (Machine.convCoreStep s) := by
  unfold Machine.convCoreStep
  split
  · exact h.answer ‹_›
  · exact h
  · exact h

/-! The host. -/

theorem idle_of_not_busy (h : Coherent s) (hb : s.busy = false) : s.pend = none ∧ s.coreResp = none := by
  have hst := h.stage
  rw [stageCoherent, h.idleIffNotBusy.2 hb] at hst
  obtain ⟨hp, -⟩ := hst
  exact ⟨hp, h.coreResp_of_pend hp⟩

theorem respondHost (h : Coherent s) (r : PortResponse) : Coherent (Machine.respondHost r s) := { h with }

theorem busError (h : Coherent s) (f : Fault) : Coherent (Machine.busError f s) := { h with }

theorem setQueue (h : Coherent s) (q : List HostAccess) : Coherent { s with hostQueue := q } := { h with }

theorem setDraws (h : Coherent s) (n : Nat) : Coherent { s with draws := n } := { h with }

theorem advance (h : Coherent s) : Coherent (Machine.advance s) := { h with }

theorem dropWrite (h : Coherent s) : Coherent (Machine.dropWrite s) := { h with }

/-- Acceptance starts a command in CHECK (R121). -/
theorem accept (h : Coherent s) (hb : s.busy = false) (w : BitVec 64) : Coherent (Machine.accept w s) := by
  obtain ⟨hp, hg⟩ := h.idle_of_not_busy hb
  exact { h with
    idleIffNotBusy := by simp
    busyStatus := fun _ => ⟨rfl, rfl⟩
    lastopOfCmd := rfl
    snapHeld := fun _ => rfl
    stage := ⟨hp, rfl⟩
    response := fun g h => by simp [hg] at h
    record := recordSettled_empty }

/-- The operand registers are free while no command runs. -/
theorem setOperands (h : Coherent s) (hb : s.busy = false) (n : BitVec 32) (a : Binary64) :
    Coherent { s with len := n, order := a } :=
  { h with snapHeld := fun hb' => absurd (hb.symm.trans hb') Bool.false_ne_true }

theorem writeReg (h : Coherent s) (r : Reg) (v : BitVec 64) : Coherent (Machine.writeReg r v s) := by
  cases r <;> simp only [Machine.writeReg]
  case ctrl => exact { h with }
  case status => exact { h with busyStatus := fun hb => by simp [clearStatus, h.busyStatus hb] }
  case cmd =>
    split
    · exact h.dropWrite
    · exact h.accept (Bool.eq_false_iff.2 ‹_›) v
  case len =>
    split
    · exact h.dropWrite
    · exact h.setOperands (Bool.eq_false_iff.2 ‹_›) _ _
  case order =>
    split
    · exact h.dropWrite
    · exact h.setOperands (Bool.eq_false_iff.2 ‹_›) _ _
  all_goals exact h

theorem writeRegAt (h : Coherent s) (off : Nat) (v : BitVec 64) : Coherent (Machine.writeRegAt off v s) := by
  unfold Machine.writeRegAt
  split
  · exact h.writeReg _ v
  · exact h

theorem writeXbuf (h : Coherent s) {off : Nat} (hx : inXbuf off = true) (h8 : off % 8 = 0) (v : BitVec 64) :
    Coherent (Machine.writeXbuf off v s) := by
  unfold Machine.writeXbuf
  split
  · exact h.dropWrite
  · refine { h with memSorted := Memory.wf_writeWord _ _ _ h.memSorted, memMapped := fun c hc => ?_ }
    rcases Memory.mem_writeWord _ _ _ _ hc with hc | hc
    · exact h.memMapped c hc
    · exact .inl (inXbuf_of_word hx h8 hc)

theorem hostRead (h : Coherent s) (off : BitVec 32) (bytes : Nat) : Coherent (Machine.hostRead off bytes s) := by
  unfold Machine.hostRead
  split
  · exact h.busError _
  · split
    · exact h.respondHost _
    · exact (h.setDraws _).respondHost _

theorem hostWrite (h : Coherent s) (off : BitVec 32) (bytes : Nat) (v : BitVec 64) :
    Coherent (Machine.hostWrite off bytes v s) := by
  unfold Machine.hostWrite
  split
  · exact h.busError _
  · next hacc =>
    split <;> rename_i hr
    · exact (h.writeRegAt _ v).respondHost _
    · obtain ⟨hx, h8⟩ := xbuf_of_accepted hacc (Bool.eq_false_iff.2 hr)
      exact (h.writeXbuf hx h8 v).respondHost _

theorem hostStep (h : Coherent s) : Coherent (Machine.hostStep s) := by
  unfold Machine.hostStep
  split
  · exact h
  · exact (h.setQueue _).hostRead _ _
  · exact (h.setQueue _).hostWrite _ _ _
  · split
    · exact (h.setQueue _).respondHost _
    · exact h.respondHost _

/-! All agents. -/

theorem resetStep (s : State) : Coherent (Machine.resetStep s) := { coherent_reset with }

theorem agentStep (h : Coherent s) {a : Agent} (ht : Machine.agentStep a s = .next t) : Coherent t := by
  cases a with
  | command => exact h.commandStep ht
  | host => injection ht with ht; exact ht ▸ h.hostStep
  | stage => injection ht with ht; exact ht ▸ h.stageStep
  | fftCore => injection ht with ht; exact ht ▸ h.fftCoreStep
  | convCore => injection ht with ht; exact ht ▸ h.convCoreStep
  | reset => injection ht with ht; exact ht ▸ resetStep s

end Coherent

/-- Settles O54: each agent's step keeps every clause of the invariant. -/
theorem everyStepKeepsCoherence : Obligations.EveryStepKeepsCoherence := by
  unfold Obligations.EveryStepKeepsCoherence
  intro s t h ht
  unfold step at ht
  split at ht
  · cases ht
  · exact h.advance.agentStep ht

end Sys2Proof.Machine
end

section
/-! PROOFS. The encoding of commands as words and as bytes in memory (R60, R100 to R104, R107): the decoder inverts the encoder, and the
bytes of a word determine it. -/

namespace Sys2Proof

@[simp] theorem decode_encode (i : Instr) : decode (encode i) = .ok i := by cases i <;> rfl

/-- A word is its two fields (R100). -/
theorem rsvField_append_opField (w : BitVec 64) : rsvField w ++ opField w = w := by
  apply BitVec.eq_of_toNat_eq
  rw [Machine.toNat_append_eq_add, rsvField, opField, BitVec.extractLsb'_toNat, BitVec.extractLsb'_toNat, Nat.shiftRight_zero,
    Nat.shiftRight_eq_div_pow]
  omega

/-- The opcode map is injective on the commands (R102). -/
theorem eq_opField_encode_of_decodeOp {op : BitVec 4} {i : Instr} (h : decodeOp op = .ok i) : op = opField (encode i) := by
  unfold decodeOp at h
  split at h
  case h_7 => cases h
  all_goals
    injection h with h
    subst h
    rfl

theorem rsvField_encode (i : Instr) : rsvField (encode i) = 0 := by cases i <;> rfl

/-- Decoding gives a command exactly on its own word (R103). -/
theorem decode_eq_ok_iff {w : BitVec 64} {i : Instr} : decode w = .ok i ↔ w = encode i := by
  refine ⟨fun h => ?_, fun h => h ▸ decode_encode i⟩
  unfold decode at h
  split at h
  · cases h
  · next hr =>
    rw [← rsvField_append_opField w, not_not.1 hr, eq_opField_encode_of_decodeOp h, ← rsvField_encode i,
      rsvField_append_opField]

/-- The bytes of a word put together from bytes are those bytes (R60). -/
theorem wordBytes_wordOfBytes (b0 b1 b2 b3 b4 b5 b6 b7 : BitVec 8) :
    wordBytes (wordOfBytes b0 b1 b2 b3 b4 b5 b6 b7) = [b0, b1, b2, b3, b4, b5, b6, b7] := by
  simp only [wordBytes, List.cons.injEq, and_true]
  refine ⟨?_, ?_, ?_, ?_, ?_, ?_, ?_, ?_⟩ <;>
  · apply BitVec.eq_of_toNat_eq
    simp only [byteOf, wordOfBytes, BitVec.extractLsb'_toNat, Machine.toNat_append_eq_add, Nat.shiftRight_eq_div_pow]
    omega

@[simp] theorem decodeBytes_wordBytes (w : BitVec 64) : decodeBytes (wordBytes w) = decode w :=
  congrArg decode (Machine.wordOfBytes_byteOf w)

/-- What the decoder reads from bytes, it reads from a word whose bytes they are. -/
theorem exists_word_of_decodeBytes {bs : List (BitVec 8)} {i : Instr} (h : decodeBytes bs = .ok i) :
    ∃ w, bs = wordBytes w ∧ decode w = .ok i := by
  unfold decodeBytes at h
  split at h
  · exact ⟨_, (wordBytes_wordOfBytes ..).symm, h⟩
  · cases h

/-- Settles O3: the bytes are those of a word, and the word is the command's. -/
theorem bytesDecodeExactlyFromEncodedWord : Obligations.BytesDecodeExactlyFromEncodedWord := by
  unfold Obligations.BytesDecodeExactlyFromEncodedWord
  intro bs i
  constructor
  · intro h
    obtain ⟨w, rfl, hw⟩ := exists_word_of_decodeBytes h
    rw [decode_eq_ok_iff.1 hw]
  · rintro rfl
    rw [decodeBytes_wordBytes, decode_encode]

end Sys2Proof
end

section
/-! PROOFS. Which accesses of the host the port rejects and which it takes, and what an access changes (R60 to R69, R264). -/

namespace Sys2Proof.Machine

/-! The address map in numbers (R64). -/

/-- An offset in the register window, XBUF or YBUF. -/
theorem mapped_iff (a : Nat) :
    (inRegs a || inXbuf a || inYbuf a) = true ↔
      a < 0x1000 ∨ (0x01000000 ≤ a ∧ a < 0x01000000 + 16 * Config.nmax) ∨
        (0x02000000 ≤ a ∧ a < 0x02000000 + 16 * (2 * Config.nmax)) := by
  rw [Bool.or_eq_true, Bool.or_eq_true, inXbuf_iff, inYbuf_iff, inRegs, decide_eq_true_eq, or_assoc]

/-- The causes that reject a read and a write alike (R62, R64). -/
theorem exists_accessFault (write : Bool) {off : BitVec 32} {bytes : Nat}
    (h : bytes ≠ 8 ∨ off.toNat % 8 ≠ 0 ∨ (inRegs off.toNat || inXbuf off.toNat || inYbuf off.toNat) = false) :
    ∃ f, accessFault write off bytes = some f := by
  rw [← Option.isSome_iff_exists, accessFault_isSome]
  rcases h with hw | ha | hm
  · exact .inl hw
  · exact .inr (.inl ha)
  · exact .inr (.inr (.inr hm))

/-- A write in the YBUF window is rejected, mapped or not (R65). -/
theorem exists_accessFault_ybufWrite {off : BitVec 32} (bytes : Nat) (h : inYbufWindow off.toNat = true) :
    ∃ f, accessFault true off bytes = some f := by
  rw [← Option.isSome_iff_exists, accessFault_isSome]
  exact .inr (.inr (.inl ⟨rfl, h⟩))

/-! What an access leaves alone. -/

@[simp] theorem writeReg_responses (r : Reg) (v : BitVec 64) (s : State) : (writeReg r v s).responses = s.responses := by
  cases r <;> simp only [writeReg] <;> (try split) <;> rfl

@[simp] theorem writeReg_hostFaults (r : Reg) (v : BitVec 64) (s : State) : (writeReg r v s).hostFaults = s.hostFaults := by
  cases r <;> simp only [writeReg] <;> (try split) <;> rfl

@[simp] theorem writeRegAt_responses (off : Nat) (v : BitVec 64) (s : State) :
    (writeRegAt off v s).responses = s.responses := by
  unfold writeRegAt
  split
  · exact writeReg_responses _ v s
  · rfl

@[simp] theorem writeRegAt_hostFaults (off : Nat) (v : BitVec 64) (s : State) :
    (writeRegAt off v s).hostFaults = s.hostFaults := by
  unfold writeRegAt
  split
  · exact writeReg_hostFaults _ v s
  · rfl

/-- A buffer write is stored while idle (R66). -/
theorem writeXbuf_idle {off : Nat} {s : State} (v : BitVec 64) (hb : s.busy = false) :
    writeXbuf off v s = { s with mem := s.mem.writeWord off v } := by
  rw [writeXbuf, hb]; rfl

@[simp] theorem writeXbuf_responses (off : Nat) (v : BitVec 64) (s : State) : (writeXbuf off v s).responses = s.responses := by
  unfold writeXbuf
  split <;> rfl

@[simp] theorem writeXbuf_hostFaults (off : Nat) (v : BitVec 64) (s : State) :
    (writeXbuf off v s).hostFaults = s.hostFaults := by
  unfold writeXbuf
  split <;> rfl

/-- A read moves nothing but the draws and the host's two records, whether it is accepted or not (R62, R69). -/
theorem hostRead_eq (off : BitVec 32) (bytes : Nat) (s : State) :
    ∃ d rs fs, hostRead off bytes s = { s with draws := d, responses := rs, hostFaults := fs } := by
  unfold hostRead
  split
  · exact ⟨_, _, _, rfl⟩
  · split <;> exact ⟨_, _, _, rfl⟩

section HostTurn

variable {s : State} {rest : List HostAccess} {off : BitVec 32} {bytes : Nat} {v : BitVec 64} {f : Fault}

theorem HostTurn.step_read_rejected (h : HostTurn s (.read off bytes) rest) (hf : accessFault false off bytes = some f) :
    step s = .next { answered s rest .busError with hostFaults := f :: s.hostFaults } := by
  rw [h.step_read, hostRead, hf]; rfl

theorem HostTurn.step_write_rejected (h : HostTurn s (.write off bytes v) rest) (hf : accessFault true off bytes = some f) :
    step s = .next { answered s rest .busError with hostFaults := f :: s.hostFaults } := by
  rw [h.step_write, hostWrite, hf]; rfl

theorem HostTurn.step_write_xbuf_idle (h : HostTurn s (.write off 8 v) rest) (hb : s.busy = false)
    (hx : inXbuf off.toNat = true) (h8 : off.toNat % 8 = 0) :
    step s = .next { answered s rest .written with mem := s.mem.writeWord off.toNat v } := by
  have hs : step s = .next (respondHost .written (writeXbuf off.toNat v (served s rest))) := h.step_write_xbuf hx h8
  rw [hs, writeXbuf_idle (s := served s rest) v hb]; rfl

end HostTurn

/-- Settles O13: the four causes of R264 are the ones the port tests, and a rejected access is only recorded. -/
theorem rejectedAccessChangesNothing : Obligations.RejectedAccessChangesNothing := by
  unfold Obligations.RejectedAccessChangesNothing
  intro s rest off bytes v
  dsimp only
  rw [← mapped_iff, Bool.not_eq_true, ← inYbufWindow_iff]
  refine ⟨fun h hbad => ?_, fun h hbad => ?_⟩
  · obtain ⟨f, hf⟩ := exists_accessFault false hbad
    exact ⟨f, h.step_read_rejected hf⟩
  · obtain ⟨f, hf⟩ := hbad.elim (exists_accessFault true) (exists_accessFault_ybufWrite bytes)
    exact ⟨f, h.step_write_rejected hf⟩

/-- Settles O14: a mapped word is a register's or a buffer's, and neither records a bus error. -/
theorem acceptedAccessIsAnswered : Obligations.AcceptedAccessIsAnswered := by
  unfold Obligations.AcceptedAccessIsAnswered
  intro s rest off v h8
  dsimp only
  rw [← inXbuf_iff, ← inYbuf_iff]
  refine ⟨fun h hm => ?_, fun h hm => ?_⟩
  · rcases hm with hr | hx
    · exact ⟨_, h.step_write_reg hr h8, congrArg _ (writeRegAt_responses ..), writeRegAt_hostFaults ..⟩
    · exact ⟨_, h.step_write_xbuf hx h8, congrArg _ (writeXbuf_responses ..), writeXbuf_hostFaults ..⟩
  · rcases hm with (hr | hx) | hy
    · exact ⟨_, _, h.step_read_reg hr h8, rfl, rfl⟩
    · exact ⟨_, _, h.step_read_buffer (.inl hx) h8, rfl, rfl⟩
    · exact ⟨_, _, h.step_read_buffer (.inr hy) h8, rfl, rfl⟩

/-- Settles O15: what a read moves is the model's own. -/
theorem readsHaveNoSideEffect : Obligations.ReadsHaveNoSideEffect := by
  unfold Obligations.ReadsHaveNoSideEffect
  intro s rest off bytes h
  obtain ⟨d, rs, fs, hr⟩ := hostRead_eq off bytes { advance s with hostQueue := rest }
  rw [h.step_read, hr]
  exact ⟨_, rfl, rfl, rfl, rfl, rfl, rfl, rfl, rfl, rfl, rfl, rfl, rfl⟩

/-- Settles O16: read after write on the buffers, and a read of XBUF gives the stored word whatever BUSY is (R68). -/
theorem xbufWriteReadsBack : Obligations.XbufWriteReadsBack := by
  unfold Obligations.XbufWriteReadsBack
  intro s rest off v h hb h8 hx
  have hsame := Memory.readWord_writeWord_same s.mem off.toNat v
  refine ⟨_, h.step_write_xbuf_idle hb hx h8, rfl, hsame, fun a ha => ?_, fun rest' u hu hmem => ?_⟩
  · exact (Memory.read_writeWord ..).trans (if_neg (by omega))
  · refine ⟨_, hu.step_read_buffer (.inl hx) h8, ?_⟩
    have hv : readBuffer off.toNat u = v := by rw [readBuffer_stored (.inr hx), hmem, hsame, Option.getD_some]
    rw [← hv]; rfl

end Sys2Proof.Machine
end

section
/-! PROOFS. The working copy of XBUF, the requests to the cores and their answers (R70, R80 to R87, R123). -/

namespace Sys2Proof.Machine

/-- Settles O27: entry by entry, a written sample is read as stored whatever the draws. -/
theorem workingCopyIsXbuf : Obligations.WorkingCopyIsXbuf := by
  unfold Obligations.WorkingCopyIsXbuf
  intro s f hf hx
  refine ext_elem ((length_xSamples ..).trans hf.symm) fun e he => ?_
  have hn : e < lengthOperand s := he.trans_eq (length_xSamples ..)
  rw [inputSignal, elem_xSamples _ _ hn]
  exact xSample_of_readSample (hx e (hn.trans_eq hf.symm))

/-- The shapes of a request at length `n` (R81, R84). -/
def CoreRequest.HasShape (n : Nat) : CoreRequest → Prop
  | .fft _ x => x.length = n
  | .conv p q => (p.length = 2 * n - 1 ∧ q.length = 4 * n - 5) ∨ (p.length = 4 * n - 3 ∧ q.length = 8 * n - 7)

/-- Only a stage that waits has a request outstanding, and the stage fixes its shape. -/
theorem Coherent.request {s : State} {r : CoreRequest} (h : Coherent s) (hp : s.pend = some r) :
    2 ≤ lengthOperand s ∧ lengthOperand s ≤ Config.nmax ∧ r.HasShape (lengthOperand s) := by
  have hst := h.stage
  unfold stageCoherent at hst
  rw [hp] at hst
  split at hst
  case h_5 =>
    obtain ⟨⟨dir, x, hr, hx⟩, -, h2, hn, -⟩ := hst
    cases hr
    exact ⟨h2, hn, hx⟩
  case h_6 =>
    obtain ⟨⟨p, q, hr, hpq⟩, -, h2, hn, -⟩ := hst
    cases hr
    exact ⟨h2, hn, .inl hpq⟩
  case h_7 =>
    obtain ⟨⟨p, q, hr, hpq⟩, -, -, ⟨h2, hn, -⟩, -⟩ := hst
    cases hr
    exact ⟨h2, hn, .inr hpq⟩
  all_goals exact absurd hst.1 (Option.some_ne_none r)

/-- Settles O53: the clause of the invariant for each waiting stage. -/
theorem requestsHaveTheirShapes : Obligations.RequestsHaveTheirShapes := by
  unfold Obligations.RequestsHaveTheirShapes
  intro s h
  refine ⟨fun hp => ?_, fun dir x hp => ?_, fun p q hp => ?_⟩
  · obtain ⟨r, hr⟩ := Option.ne_none_iff_exists'.1 hp
    obtain ⟨h2, hn, -⟩ := h.request hr
    exact ⟨h2, hn⟩
  · obtain ⟨-, -, hs⟩ := h.request hp
    exact hs
  · obtain ⟨-, -, hs⟩ := h.request hp
    exact hs

/-! The cores' steps. -/

theorem answer_of_none {s : State} (r : CoreRequest) (h : s.coreResp = none) :
    answer r s = { s with coreResp := some (respond Config.num r) } := by
  rw [answer, h]

/-- A request is answered once (R86). -/
theorem answer_of_some {s : State} (r : CoreRequest) (h : s.coreResp ≠ none) : answer r s = s := by
  unfold answer
  split
  · exact absurd ‹_› h
  · rfl

theorem fftCoreStep_of_fft {s : State} {dir : Dir} {x : List Sample} (h : s.pend = some (.fft dir x)) :
    fftCoreStep s = answer (.fft dir x) s := by
  rw [fftCoreStep, h]

theorem fftCoreStep_of_conv {s : State} {p q : List Sample} (h : s.pend = some (.conv p q)) : fftCoreStep s = s := by
  rw [fftCoreStep, h]

theorem convCoreStep_of_conv {s : State} {p q : List Sample} (h : s.pend = some (.conv p q)) :
    convCoreStep s = answer (.conv p q) s := by
  rw [convCoreStep, h]

theorem convCoreStep_of_fft {s : State} {dir : Dir} {x : List Sample} (h : s.pend = some (.fft dir x)) :
    convCoreStep s = s := by
  rw [convCoreStep, h]

theorem coreSteps_of_none {s : State} (h : s.pend = none) : fftCoreStep s = s ∧ convCoreStep s = s := by
  rw [fftCoreStep, convCoreStep, h]
  exact ⟨rfl, rfl⟩

/-- Once the response is there, no core has a step (R86). -/
theorem coreSteps_of_answered {s : State} (h : s.coreResp ≠ none) : fftCoreStep s = s ∧ convCoreStep s = s := by
  cases hp : s.pend with
  | none => exact coreSteps_of_none hp
  | some r =>
    cases r with
    | fft dir x => exact ⟨(fftCoreStep_of_fft hp).trans (answer_of_some _ h), convCoreStep_of_fft hp⟩
    | conv p q => exact ⟨fftCoreStep_of_conv hp, (convCoreStep_of_conv hp).trans (answer_of_some _ h)⟩

/-- Settles O52: the core of the request's kind answers it, the other has no step. -/
theorem coresAnswerTheOutstandingRequest : Obligations.CoresAnswerTheOutstandingRequest := by
  unfold Obligations.CoresAnswerTheOutstandingRequest
  intro s
  refine ⟨fun dir x hp hc => ?_, fun p q hp hc => ?_, fun h => h.elim coreSteps_of_none coreSteps_of_answered⟩
  · exact ⟨(fftCoreStep_of_fft hp).trans (answer_of_none _ hc), convCoreStep_of_fft hp⟩
  · exact ⟨(convCoreStep_of_conv hp).trans (answer_of_none _ hc), fftCoreStep_of_conv hp⟩

end Sys2Proof.Machine
end

section
/-! PROOFS. Which words are legal commands, what an ILLEGAL word does, and the host script's `wait` (R102 to R107). -/

namespace Sys2Proof

/-- The words of the commands are the words below 6 (R103). -/
theorem exists_eq_encode_iff (w : BitVec 64) : (∃ i, w = encode i) ↔ w.toNat < 6 := by
  constructor
  · rintro ⟨i, rfl⟩
    cases i <;> decide
  · intro h
    rw [← BitVec.setWidth_eq w, ← BitVec.ofNat_toNat]
    generalize w.toNat = n at h
    interval_cases n
    exacts [⟨.nop, rfl⟩, ⟨.frft, rfl⟩, ⟨.ifrft, rfl⟩, ⟨.reduce, rfl⟩, ⟨.interp, rfl⟩, ⟨.engine, rfl⟩]

/-- Acceptance captures ILLEGAL exactly where the decoder gives no command (R103, R121). -/
theorem opOfWord_eq_illegal_iff (w : BitVec 64) : opOfWord w = .illegal ↔ ¬ ∃ i, decode w = .ok i := by
  cases h : decode w <;> simp [opOfWord, h]

theorem opOfWord_of_rejected {w : BitVec 64} {why : DecodeReject} (h : decode w = .rejected why) : opOfWord w = .illegal := by
  rw [opOfWord, h]

theorem opOfWord_eq_illegal_iff_six_le (w : BitVec 64) : opOfWord w = .illegal ↔ 6 ≤ w.toNat := by
  simp only [opOfWord_eq_illegal_iff, decode_eq_ok_iff, exists_eq_encode_iff, not_lt]

/-- Settles O2: the decoder inverts the encoder, and the six words are the ones below 6. -/
theorem exactlySixWordsAreLegal : Obligations.ExactlySixWordsAreLegal := by
  unfold Obligations.ExactlySixWordsAreLegal
  refine ⟨fun w i => decode_eq_ok_iff, ⟨rfl, rfl, rfl, rfl, rfl, rfl⟩, fun w => ?_⟩
  rw [opOfWord_eq_illegal_iff_six_le]
  omega

/-- Settles O1: the six words are encodings, the four others are evaluated. -/
theorem opcodeMapWordsDecode : Obligations.OpcodeMapWordsDecode := by
  unfold Obligations.OpcodeMapWordsDecode
  exact ⟨decode_encode .nop, decode_encode .frft, decode_encode .ifrft, decode_encode .reduce, decode_encode .interp,
    decode_encode .engine, by decide⟩

end Sys2Proof

namespace Sys2Proof.Machine

/-- The step after acceptance is the engine's whole-command step (R132). -/
theorem step_acceptedNext (w : BitVec 64) (s : State) : step (acceptedNext w s) = commandStep (advance (acceptedNext w s)) := rfl

/-- An ILLEGAL command completes from CHECK with its error (R104, R122). -/
theorem commandStep_illegal {s : State} (hs : s.seq = .run .check) (ho : s.snap.op = .illegal) :
    commandStep s = .next (raiseErr .illegalCommand s) := by
  rw [commandStep, hs]
  simp only [ho]

/-- Settles O5: the step is the error completion, which keeps what acceptance wrote and left alone. -/
theorem illegalWordCompletesWithCodeThree : Obligations.IllegalWordCompletesWithCodeThree := by
  unfold Obligations.IllegalWordCompletesWithCodeThree
  intro s w why h
  have hstep := (step_acceptedNext (tableWord 64 w) s).trans (commandStep_illegal rfl (opOfWord_of_rejected h))
  exact ⟨_, hstep, rfl, rfl, rfl, rfl, rfl, rfl, rfl, rfl, rfl, rfl, rfl, rfl, rfl, rfl, rfl⟩

theorem hostStep_wait {s : State} {rest : List HostAccess} (h : s.hostQueue = .wait :: rest) :
    hostStep s = respondHost (.data (statusWord s)) (if s.done then { s with hostQueue := rest } else s) := by
  rw [hostStep, h]

section HostTurn

variable {s : State} {rest : List HostAccess}

/-- A STATUS read that shows DONE ends the `wait` (R106). -/
theorem HostTurn.step_wait_done (h : HostTurn s .wait rest) (hd : s.done = true) :
    step s = .next (answered s rest (.data (statusWord s))) := by
  rw [h.step_eq, hostStep_wait (s := advance s) h.queue, if_pos (show (advance s).done = true from hd)]
  rfl

/-- Any other STATUS read leaves the `wait` first in the host's list (R106). -/
theorem HostTurn.step_wait_not_done (h : HostTurn s .wait rest) (hd : s.done = false) :
    step s = .next (answered s (.wait :: rest) (.data (statusWord s))) := by
  rw [h.step_eq, hostStep_wait (s := advance s) h.queue, if_neg (Bool.eq_false_iff.1 hd : (advance s).done ≠ true), ← h.queue]
  rfl

end HostTurn

/-- Settles O18: the two outcomes of the one STATUS read. -/
theorem waitPollsUntilDone : Obligations.WaitPollsUntilDone := by
  unfold Obligations.WaitPollsUntilDone
  intro s rest h
  exact ⟨h.step_wait_done, h.step_wait_not_done⟩

end Sys2Proof.Machine
end

section
/-! PROOFS. The whole-command step (R121 to R130): every command is one completion, and what it leaves alone follows from that. -/

namespace Sys2Proof.Machine

/-! The step that runs a command (R121, R132). -/

/-- An accepted command runs from CHECK (R132). -/
theorem commandStep_legal {s : State} {i : Instr} (hs : s.seq = .run .check) (ho : s.snap.op = .legal i) :
    commandStep s = exec i s := by
  rw [commandStep, hs]
  simp only [ho]

theorem opOfWord_of_ok {w : BitVec 64} {i : Instr} (h : decode w = .ok i) : opOfWord w = .legal i := by
  rw [opOfWord, h]

theorem step_of_command {s : State} (hlive : staleResponse s = false) (ha : nextAgent s = .command) :
    step s = commandStep (advance s) := by
  rw [step, hlive, ha]
  rfl

/-- Settles O4: both placings put the command in CHECK with the engine's whole-command step next. -/
theorem stepRunsDecodedCommand : Obligations.StepRunsDecodedCommand := by
  unfold Obligations.StepRunsDecodedCommand
  refine ⟨fun s nbits w i h => ?_, fun s i hlive ha hs ho => ?_⟩
  · exact (step_acceptedNext (tableWord nbits w) s).trans (commandStep_legal rfl (opOfWord_of_ok h))
  · exact (step_of_command hlive ha).trans (commandStep_legal (s := advance s) hs ho)

/-- A CMD write while idle is an acceptance (R25, R121). -/
theorem writeReg_cmd_idle {s : State} (w : BitVec 64) (hb : s.busy = false) : writeReg .cmd w s = accept w s := by
  rw [writeReg, hb]; rfl

/-- Settles O6: the port hands the word to acceptance. -/
theorem cmdWriteWhileIdleAccepts : Obligations.CmdWriteWhileIdleAccepts := by
  unfold Obligations.CmdWriteWhileIdleAccepts
  intro s rest w h hb
  rw [h.step_write_named (r := .cmd), writeReg_cmd_idle (s := served s rest) w hb]; rfl

/-- Settles O24: the completion of an empty result writes no YBUF entry. -/
theorem nopCompletes : Obligations.NopCompletes := by
  unfold Obligations.NopCompletes
  intro s
  exact ⟨_, rfl, idle_finish [] s, sameHostSide_finish [] s, rfl, rfl, rfl, rfl, rfl, rfl, rfl⟩

/-! Every command is one completion (R126, R127). -/

/-- `t` completes a command that runs in `s`: with a result that fits YBUF or with an error, from a state in which nothing has moved but
the result registers and the draws. -/
def CompletesFrom (s t : State) : Prop :=
  ∃ r u, t = complete r u ∧ SameHostSide s u ∧ u.mem = s.mem ∧ ∀ z, r = .ok z → z.length ≤ Config.ycap

section CompletesFrom

variable {s t u : State}

theorem completesFrom_complete {r : Except ErrCode (List Sample)} (hu : SameHostSide s u) (hm : u.mem = s.mem)
    (hr : ∀ z, r = .ok z → z.length ≤ Config.ycap) : CompletesFrom s (complete r u) :=
  ⟨r, u, rfl, hu, hm, hr⟩

theorem completesFrom_finish {z : List Sample} (hu : SameHostSide s u) (hm : u.mem = s.mem) (hz : z.length ≤ Config.ycap) :
    CompletesFrom s (finish z u) :=
  completesFrom_complete (r := .ok z) hu hm fun _ h => Except.ok.inj h ▸ hz

theorem completesFrom_raiseErr (c : ErrCode) (hu : SameHostSide s u) (hm : u.mem = s.mem) : CompletesFrom s (raiseErr c u) :=
  completesFrom_complete (r := .error c) hu hm fun _ h => nomatch h

theorem completesFrom_finishShort (hu : SameHostSide s u) (hm : u.mem = s.mem) : CompletesFrom s (finishShort u) :=
  completesFrom_finish (hu.trans (sameHostSide_useDraws 1 u)) hm (le_ycap (n := 1) one_le_two (by have := nmax_ge; omega))

/-- A data command completes if its two continuations do (R123). -/
theorem completesFrom_dataCommand {short : State → State} {body : List Sample → State → State}
    (hshort : CompletesFrom s (short s))
    (hbody : ∀ (f : List Sample) (u : State), SameHostSide s u → u.mem = s.mem → 2 ≤ f.length → f.length ≤ Config.nmax →
      CompletesFrom s (body f u)) :
    CompletesFrom s (dataCommand short body s) := by
  rcases dataCommand_cases short body s with ⟨-, e⟩ | ⟨-, e⟩ | ⟨-, e⟩ | ⟨h2, hn, e⟩ <;> rw [e]
  · exact completesFrom_raiseErr _ (sameHostSide_refl s) rfl
  · exact completesFrom_raiseErr _ (sameHostSide_refl s) rfl
  · exact hshort
  · have hlen : (inputSignal s).length = lengthOperand s := length_xSamples _ _ _
    exact hbody _ _ (sameHostSide_useDraws _ s) rfl (by omega) (by omega)

theorem completesFrom_transformAt (a : Binary64) (s : State) : CompletesFrom s (transformAt a s) := by
  refine completesFrom_dataCommand (completesFrom_finishShort (sameHostSide_path .short s) rfl) fun f u hu hm _ hn => ?_
  refine completesFrom_complete (hu.trans (sameHostSide_writeOrder _ u)) hm fun z hz => ?_
  rw [length_transformResult hz]
  exact le_ycap (Nat.le_mul_of_pos_left _ Nat.two_pos) hn

theorem completesFrom_reduceFinish (o : OrderRecord) (s : State) : CompletesFrom s (reduceFinish o s) := by
  unfold reduceFinish
  split
  · exact completesFrom_raiseErr _ (sameHostSide_writeOrder o s) rfl
  · exact completesFrom_finish (sameHostSide_writeOrder o s) rfl (Nat.zero_le _)

/-- Every command, in every state, is one completion. -/
theorem completesFrom_of_exec {i : Instr} (h : exec i s = .next t) : CompletesFrom s t := by
  have hshort := completesFrom_finishShort (sameHostSide_refl s) rfl
  cases i <;> injection h with h <;> subst h
  case nop => exact completesFrom_finish (sameHostSide_refl s) rfl (Nat.zero_le _)
  case frft => exact completesFrom_transformAt _ s
  case ifrft => exact completesFrom_transformAt _ s
  case reduce => exact completesFrom_reduceFinish _ s
  case interp =>
    refine completesFrom_dataCommand hshort fun f u hu hm h2 hn => completesFrom_finish hu hm ?_
    rw [length_sincinterp h2]
    exact le_ycap (Nat.sub_le _ _) hn
  case engine =>
    refine completesFrom_dataCommand hshort fun f u hu hm h2 hn => completesFrom_complete hu hm fun z hz => ?_
    rw [length_engineRun hz]
    exact le_ycap (Nat.le_mul_of_pos_left _ Nat.two_pos) hn

theorem CompletesFrom.idle (h : CompletesFrom s t) : Idle t := by
  obtain ⟨r, u, rfl, -⟩ := h
  exact idle_complete r u

theorem CompletesFrom.sameHostSide (h : CompletesFrom s t) : SameHostSide s t := by
  obtain ⟨r, u, rfl, hu, -⟩ := h
  exact hu.trans (sameHostSide_complete r u)

/-- A completion writes YBUF entries below the new OUTLEN only (R41). -/
theorem CompletesFrom.read_outside (h : CompletesFrom s t) {a : Nat} (ha : a < yAddr 0 ∨ yAddr t.outlen.toNat ≤ a) :
    t.mem.read a = s.mem.read a := by
  obtain ⟨r, u, rfl, -, hm, hr⟩ := h
  rw [← hm]
  cases r with
  | ok z =>
    refine read_finish_outside z u a ?_
    rw [← outlen_finish u (hr z rfl)]
    exact ha
  | error c => rfl

/-- An error completion writes no buffer byte and sets OUTLEN to 0 (R127). -/
theorem CompletesFrom.of_error (h : CompletesFrom s t) (he : t.errcode ≠ .none) : t.mem = s.mem ∧ t.outlen = 0 := by
  obtain ⟨r, u, rfl, -, hm, -⟩ := h
  cases r with
  | ok z => exact absurd (finish_errcode z u) he
  | error c => exact ⟨hm, rfl⟩

end CompletesFrom

/-- Settles O21: the frame of a completion. -/
theorem everyCommandCompletesWithinItsFrame : Obligations.EveryCommandCompletesWithinItsFrame := by
  unfold Obligations.EveryCommandCompletesWithinItsFrame
  intro i s
  obtain ⟨t, ht⟩ := exec_next i s
  have h := completesFrom_of_exec ht
  exact ⟨t, ht, h.idle, h.sameHostSide, fun a ha => h.read_outside ha⟩

/-- Settles O23: an error code marks an error completion. -/
theorem errorsWriteNoResult : Obligations.ErrorsWriteNoResult := by
  unfold Obligations.ErrorsWriteNoResult
  intro i s t ht
  exact (completesFrom_of_exec ht).of_error

/-! The data commands' length check (R123, R129). -/

/-- PATH as a data command with N = 1 leaves it: FRFT and IFRFT record the short path (R129, R243). -/
def shortPath (i : Instr) (p : PathReg) : PathReg := if i = .frft ∨ i = .ifrft then .short else p

/-- The four data commands share the length check and the degenerate path. -/
theorem exec_eq_dataCommand {i : Instr} (hi : i = .frft ∨ i = .ifrft ∨ i = .interp ∨ i = .engine) (s : State) :
    ∃ body, exec i s = .next (dataCommand (fun s => finishShort { s with path := shortPath i s.path }) body s) := by
  rcases hi with rfl | rfl | rfl | rfl <;> exact ⟨_, rfl⟩

section LengthCheck

variable {i : Instr} {s : State} (hi : i = .frft ∨ i = .ifrft ∨ i = .interp ∨ i = .engine)
include hi

theorem exec_empty (h : lengthOperand s = 0) : exec i s = .next (raiseErr .emptySignal s) := by
  obtain ⟨body, e⟩ := exec_eq_dataCommand hi s
  rw [e, dataCommand, h, lengthCase_zero]

theorem exec_tooLong (h : Config.nmax < lengthOperand s) : exec i s = .next (raiseErr .lengthRange s) := by
  obtain ⟨body, e⟩ := exec_eq_dataCommand hi s
  rw [e, dataCommand, lengthCase_tooLong h]

theorem exec_one (h : lengthOperand s = 1) : exec i s = .next (finishShort { s with path := shortPath i s.path }) := by
  obtain ⟨body, e⟩ := exec_eq_dataCommand hi s
  rw [e, dataCommand, h, lengthCase_one]

end LengthCheck

/-- Settles O25: both length errors are raised before anything else. -/
theorem lengthErrors : Obligations.LengthErrors := by
  unfold Obligations.LengthErrors
  intro i s hi
  refine ⟨fun h0 => exec_empty hi ?_, exec_tooLong hi⟩
  rw [lengthOperand, h0]; rfl

/-- Settles O26: the degenerate path stores the one sample it reads. -/
theorem oneSampleIsCopied : Obligations.OneSampleIsCopied := by
  unfold Obligations.OneSampleIsCopied
  intro i s z hi hn hz
  have h1 : lengthOperand s = 1 := by rw [lengthOperand, hn]; rfl
  refine ⟨_, exec_one hi h1, ?_, rfl, rfl, idle_finish _ _, rfl, rfl, ?_⟩
  · rw [finishShort, xSample_of_readSample hz]
    exact yHolds_finish [z] _ 0 Nat.zero_lt_one
  · exact apply_ite pathWord _ _ _

/-! The commands that dispatch no order (R130, R150, R197, R222). -/

/-- The result registers of an order's dispatch are the same in both states (R150). -/
def SameOrderRegs (s t : State) : Prop := t.orderRed = s.orderRed ∧ t.orderEng = s.orderEng ∧ t.path = s.path

theorem sameOrderRegs_complete (r : Except ErrCode (List Sample)) (s : State) : SameOrderRegs s (complete r s) := by
  cases r <;> exact ⟨rfl, rfl, rfl⟩

/-- A data command that dispatches no order writes no such register. -/
theorem sameOrderRegs_dataCommand {body : List Sample → State → State} (hbody : ∀ f s, SameOrderRegs s (body f s))
    (s : State) : SameOrderRegs s (dataCommand finishShort body s) := by
  rcases dataCommand_cases finishShort body s with ⟨-, e⟩ | ⟨-, e⟩ | ⟨-, e⟩ | ⟨-, -, e⟩ <;> rw [e]
  · exact ⟨rfl, rfl, rfl⟩
  · exact ⟨rfl, rfl, rfl⟩
  · exact ⟨rfl, rfl, rfl⟩
  · exact hbody (inputSignal s) (useDraws (lengthOperand s) s)

/-- Settles O22: no path of these commands writes the result of a dispatch. -/
theorem undispatchedCommandsKeepOrderRegisters : Obligations.UndispatchedCommandsKeepOrderRegisters := by
  unfold Obligations.UndispatchedCommandsKeepOrderRegisters
  rintro i s t ht (rfl | rfl | rfl | ⟨hi, hn⟩)
  · injection ht with ht
    exact ht ▸ sameOrderRegs_complete (.ok []) s
  · injection ht with ht
    exact ht ▸ sameOrderRegs_dataCommand (fun f u => sameOrderRegs_complete (.ok (sincinterp Config.num f)) u) s
  · injection ht with ht
    exact ht ▸ sameOrderRegs_dataCommand (fun f u => sameOrderRegs_complete (engineRun Config.num f s.snap.a0) u) s
  · have hd : i = .frft ∨ i = .ifrft ∨ i = .interp ∨ i = .engine := hi.imp_right .inl
    rcases hn with h0 | hlong
    · rw [exec_empty hd h0] at ht
      injection ht with ht
      exact ht ▸ sameOrderRegs_complete (.error .emptySignal) s
    · rw [exec_tooLong hd hlong] at ht
      injection ht with ht
      exact ht ▸ sameOrderRegs_complete (.error .lengthRange) s

end Sys2Proof.Machine
end

section
/-! PROOFS. The sequencer stage by stage (R125, R128): a stage either ends the command or moves nothing the host can see. -/

namespace Sys2Proof.Machine

/-- Nothing has moved but the pipeline's own state (SEQ, PEND, the response, the working sequences) and the model's draws. -/
def InternalMove (s t : State) : Prop :=
  t = { s with seq := t.seq, pend := t.pend, coreResp := t.coreResp, work := t.work, draws := t.draws }

/-- What a stage can do: end the command, or move the pipeline's own state only. -/
def EndsOrInternal (s t : State) : Prop := t.busy = false ∨ InternalMove s t

theorem endsOrInternal_of_move {s t : State} (h : InternalMove s t) : EndsOrInternal s t := .inr h

theorem endsOrInternal_raiseErr (c : ErrCode) (s u : State) : EndsOrInternal s (raiseErr c u) := .inl rfl

theorem endsOrInternal_finish (r : List Sample) (s u : State) : EndsOrInternal s (finish r u) := .inl rfl

/-- An internal move first. -/
theorem EndsOrInternal.of {s u t : State} (h : EndsOrInternal u t) (hu : InternalMove s u) : EndsOrInternal s t := by
  refine h.imp_right fun ht => ht.trans ?_
  exact congrArg (fun v : State =>
    { v with seq := t.seq, pend := t.pend, coreResp := t.coreResp, work := t.work, draws := t.draws }) hu

theorem endsOrInternal_startEngine (s : State) : EndsOrInternal s (startEngine s) := by
  unfold startEngine
  split
  · exact endsOrInternal_of_move rfl
  · exact endsOrInternal_raiseErr _ s _

theorem endsOrInternal_stageLength {next : State → State} (hn : ∀ s, EndsOrInternal s (next s)) (s : State) :
    EndsOrInternal s (stageLength next s) := by
  unfold stageLength
  split
  · exact endsOrInternal_raiseErr _ s s
  · exact endsOrInternal_raiseErr _ s s
  · exact endsOrInternal_of_move rfl
  · exact (hn _).of rfl

theorem endsOrInternal_stageCheck (s : State) : EndsOrInternal s (stageCheck s) := by
  have hdispatch : ∀ s, EndsOrInternal s (goStage .dispatch s) := fun s => endsOrInternal_of_move rfl
  have hinterp : ∀ s, EndsOrInternal s (issueInterp s) := fun s => endsOrInternal_of_move rfl
  unfold stageCheck
  split
  · exact endsOrInternal_raiseErr _ s s
  · exact endsOrInternal_finish _ s s
  · exact endsOrInternal_of_move rfl
  · exact endsOrInternal_stageLength hdispatch s
  · exact endsOrInternal_stageLength hdispatch s
  · exact endsOrInternal_stageLength hinterp s
  · exact endsOrInternal_stageLength endsOrInternal_startEngine s

theorem endsOrInternal_stageDispatch (s : State) : EndsOrInternal s (stageDispatch s) := by
  unfold stageDispatch
  dsimp only
  split <;> exact endsOrInternal_of_move rfl

theorem endsOrInternal_reduceStep3 (s : State) : EndsOrInternal s (reduceStep3 s) := by
  unfold reduceStep3
  dsimp only
  split
  · exact endsOrInternal_of_move rfl
  · exact (endsOrInternal_startEngine _).of rfl

theorem endsOrInternal_reduceStep12 (s : State) : EndsOrInternal s (reduceStep12 s) := by
  unfold reduceStep12
  dsimp only
  split
  · exact endsOrInternal_of_move rfl
  · exact (endsOrInternal_reduceStep3 _).of rfl

/-- The range reducer, from its start or resumed at step 3. -/
theorem endsOrInternal_reducer (s : State) :
    EndsOrInternal s (if s.work.order.f then reduceStep3 s else reduceStep12 s) := by
  split
  · exact endsOrInternal_reduceStep3 s
  · exact endsOrInternal_reduceStep12 s

theorem endsOrInternal_stageReduce (s : State) : EndsOrInternal s (stageReduce s) := by
  unfold stageReduce
  split
  · dsimp only
    split
    · exact endsOrInternal_raiseErr _ s _
    · exact endsOrInternal_of_move rfl
  · exact endsOrInternal_reducer s
  · exact endsOrInternal_reducer s
  all_goals exact endsOrInternal_of_move rfl

theorem endsOrInternal_fftArrived (g : List Sample) (s : State) : EndsOrInternal s (fftArrived g s) := by
  unfold fftArrived
  dsimp only
  split
  case h_5 =>
    split
    · exact (endsOrInternal_startEngine _).of rfl
    · exact endsOrInternal_of_move rfl
  all_goals exact endsOrInternal_of_move rfl

theorem endsOrInternal_interpArrived (w : List Sample) (s : State) : EndsOrInternal s (interpArrived w s) := by
  unfold interpArrived
  dsimp only
  split <;> exact endsOrInternal_of_move rfl

theorem endsOrInternal_chirpArrived (w : List Sample) (s : State) : EndsOrInternal s (chirpArrived w s) :=
  endsOrInternal_of_move rfl

theorem endsOrInternal_onResponse {k : List Sample → State → State} (hk : ∀ g s, EndsOrInternal s (k g s)) (s : State) :
    EndsOrInternal s (onResponse k s) := by
  unfold onResponse
  split
  · exact endsOrInternal_of_move rfl
  · exact hk _ s

theorem endsOrInternal_stageStep (s : State) : EndsOrInternal s (stageStep s) := by
  unfold stageStep
  split
  · exact endsOrInternal_of_move rfl
  · exact endsOrInternal_stageCheck s
  · exact endsOrInternal_stageDispatch s
  · exact endsOrInternal_stageReduce s
  · exact endsOrInternal_onResponse endsOrInternal_fftArrived s
  · exact endsOrInternal_onResponse endsOrInternal_interpArrived s
  · exact endsOrInternal_onResponse endsOrInternal_chirpArrived s
  · exact endsOrInternal_finish _ s _

/-- No register shows the pipeline's own state. -/
theorem InternalMove.invisible {s t : State} (h : InternalMove s t) :
    t.busy = s.busy ∧ visibleRegs t = visibleRegs s ∧ t.mem = s.mem ∧ irq t = irq s := by
  rw [h]
  exact ⟨rfl, rfl, rfl, rfl⟩

/-- Settles O51: a stage after which BUSY is 1 did not end the command. -/
theorem unfinishedStagesAreInvisible : Obligations.UnfinishedStagesAreInvisible := by
  unfold Obligations.UnfinishedStagesAreInvisible
  intro s hb
  rcases endsOrInternal_stageStep s with hend | hmove
  · exact absurd (hend.symm.trans hb) Bool.false_ne_true
  · obtain ⟨hbusy, hrest⟩ := hmove.invisible
    exact ⟨hbusy.symm.trans hb, hrest⟩

end Sys2Proof.Machine
end

section
/-! PROOFS. The pipeline stage by stage against the whole-command step (R125, R131, R132). From every stage on, counted back from FINISH, the
pipeline reaches the completion that the whole-command meaning gives, within a number of moves. -/

namespace Sys2Proof.Machine

/-- At most `n` moves of the pipeline lead from `s` to `t`. -/
def ReachesWithin (n : Nat) (s t : State) : Prop := ∃ k, k ≤ n ∧ pipelineSteps k s = t

section ReachesWithin

variable {n : Nat} {s t : State}

theorem reachesWithin_refl (n : Nat) (s : State) : ReachesWithin n s s := ⟨0, Nat.zero_le n, rfl⟩

theorem ReachesWithin.mono {m : Nat} (h : ReachesWithin m s t) (hmn : m ≤ n) : ReachesWithin n s t := by
  obtain ⟨k, hk, e⟩ := h
  exact ⟨k, hk.trans hmn, e⟩

theorem ReachesWithin.of_pipelineStep (h : ReachesWithin n (pipelineStep s) t) : ReachesWithin (n + 1) s t := by
  obtain ⟨k, hk, e⟩ := h
  exact ⟨k + 1, Nat.succ_le_succ hk, e⟩

/-- With nothing outstanding the next move is a stage. -/
theorem ReachesWithin.of_stageStep (hp : s.pend = none) (h : ReachesWithin n (stageStep s) t) : ReachesWithin (n + 1) s t := by
  rw [← pipelineStep_of_none hp] at h
  exact h.of_pipelineStep

/-- The state in which a request has been issued and answered (R86). -/
def responded (r : CoreRequest) (st : Stage) (s : State) : State := { issue r st s with coreResp := some (respond Config.num r) }

/-- The request's core answers it. -/
theorem pipelineStep_issue (r : CoreRequest) (st : Stage) (hc : s.coreResp = none) :
    pipelineStep (issue r st s) = responded r st s := by
  cases r with
  | fft dir x => exact pipelineStep_of_fft (s := issue (.fft dir x) st s) rfl hc
  | conv p q => exact pipelineStep_of_conv (s := issue (.conv p q) st s) rfl hc

/-- A request takes two moves: the core's answer, and the stage that takes it. -/
theorem ReachesWithin.of_issue {r : CoreRequest} {st : Stage} (hc : s.coreResp = none)
    (h : ReachesWithin n (stageStep (responded r st s)) t) : ReachesWithin (n + 2) (issue r st s) t := by
  rw [← pipelineStep_of_response (s := responded r st s) rfl, ← pipelineStep_issue r st hc] at h
  exact h.of_pipelineStep.of_pipelineStep

end ReachesWithin

/-! Completions (R126, R127, R150). -/

/-- The completion of the running command, with the result-register writes that go with it. -/
def completion (r : Except ErrCode (List Sample)) (s : State) : State := complete r (orderWrites s)

section Completion

variable {s t : State} {r : Except ErrCode (List Sample)}

/-- An internal move before a completion shows in the draws alone. -/
theorem complete_of_internalMove (hm : InternalMove s t) (hd : t.draws = s.draws) : complete r t = complete r s := by
  rw [hm, hd]
  cases r <;> rfl

/-- Of the pipeline's own state a completion shows the order record alone. -/
theorem completion_congr (hm : InternalMove s t) (hd : t.draws = s.draws) (ho : t.work.order = s.work.order) :
    completion r t = completion r s := by
  rw [hm, hd]
  unfold completion orderWrites lengthOperand
  dsimp only
  rw [ho]
  split
  case h_1 | h_2 => split <;> cases r <;> rfl
  all_goals cases r <;> rfl

theorem orderWrites_transform (ht : isTransform s.snap.op = true) (h2 : 2 ≤ lengthOperand s) :
    orderWrites s = writeOrder s.work.order s := by
  have h1 : lengthOperand s ≠ 1 := by omega
  unfold orderWrites
  rcases isTransform_iff.1 ht with hop | hop <;> rw [hop] <;> exact if_neg h1

theorem orderWrites_short (ht : isTransform s.snap.op = true) (h1 : lengthOperand s = 1) :
    orderWrites s = { s with path := .short } := by
  unfold orderWrites
  rcases isTransform_iff.1 ht with hop | hop <;> rw [hop] <;> exact if_pos h1

/-- INTERP and ENGINE write no result register of a dispatch (R197, R222). -/
theorem orderWrites_undispatched (h : s.snap.op = .legal .interp ∨ s.snap.op = .legal .engine) : orderWrites s = s := by
  unfold orderWrites
  rcases h with hop | hop <;> rw [hop]

theorem orderWrites_reduce (h : s.snap.op = .legal .reduce) : orderWrites s = writeOrder s.work.order s := by
  unfold orderWrites
  rw [h]

/-- A dispatched command completes with its record in the result registers (R150). -/
theorem completion_dispatched {o : OrderRecord}
    (h : s.snap.op = .legal .reduce ∨ (isTransform s.snap.op = true ∧ 2 ≤ lengthOperand s)) :
    completion r (setOrder o s) = complete r (writeOrder o s) := by
  have hw : orderWrites (setOrder o s) = writeOrder o (setOrder o s) := by
    rcases h with hop | ⟨ht, h2⟩
    · exact orderWrites_reduce (s := setOrder o s) hop
    · exact orderWrites_transform (s := setOrder o s) ht h2
  rw [completion, hw]
  cases r <;> rfl

theorem completion_undispatched (h : s.snap.op = .legal .interp ∨ s.snap.op = .legal .engine) :
    completion r s = complete r s := by
  rw [completion, orderWrites_undispatched h]

end Completion

theorem engineOrder_of_isTransform {s : State} (ht : isTransform s.snap.op = true) : engineOrder s = s.work.order.ae := by
  unfold engineOrder
  rcases isTransform_iff.1 ht with hop | hop <;> rw [hop]

theorem engineOrder_of_engine {s : State} (h : s.snap.op = .legal .engine) : engineOrder s = s.snap.a0 := by
  unfold engineOrder
  rw [h]

theorem ne_interp_of_isTransform {o : Op} (h : isTransform o = true) : o ≠ .legal .interp := by
  rintro rfl
  cases h

/-! From FINISH back to the chirp engine's guard. Each state has nothing outstanding but the request it is written with. -/

section Stages

variable {s t : State}

theorem reaches_goFinish {z : List Sample} (hp : s.pend = none) (h : completion (.ok z) s = t) :
    ReachesWithin 1 (goFinish z s) t := by
  refine .of_stageStep hp ?_
  rw [← h, ← completion_congr (s := s) (t := goFinish z s) rfl rfl rfl]
  exact reachesWithin_refl 0 _

/-- The chirp convolution, and the result it gives (R217 to R220). -/
theorem reaches_chirp {p q : List Sample} (hc : s.coreResp = none)
    (h : completion (.ok (chirpFinish Config.num s.work.f.length (engineOrder s) s.work.chirp1
      (convResponse Config.num p q))) s = t) :
    ReachesWithin 3 (issue (.conv p q) .chirpWait s) t := by
  refine .of_issue hc ?_
  exact reaches_goFinish rfl (.trans (completion_congr (s := s) rfl rfl rfl) h)

theorem interpArrived_interp (w : List Sample) (h : s.snap.op = .legal .interp) :
    interpArrived w s = goFinish (interpTruncate s.work.f.length w)
      { takeResponse s with work := { s.work with u := interpTruncate s.work.f.length w } } := by
  unfold interpArrived
  dsimp only
  rw [h]

/-- The working sequences of the chirp convolution: padded signal and chirps (R212, R213, R215). -/
def chirpWork (w : List Sample) (s : State) : Work :=
  { s.work with
    u := interpTruncate s.work.f.length w
    p := padSymmetric s.work.f.length (interpTruncate s.work.f.length w)
    chirp1 := makeChirp1 Config.num s.work.f.length (tana2Of Config.num (engineOrder s))
    chirp2 := makeChirp2 Config.num s.work.f.length (sinaOf Config.num (engineOrder s)) }

/-- Every command but INTERP goes on to the chirp convolution (R214, R216). -/
theorem interpArrived_chirp (w : List Sample) (h : s.snap.op ≠ .legal .interp) :
    interpArrived w s =
      issue (.conv (premultiply (chirpWork w s).chirp1 (chirpWork w s).p) (chirpWork w s).chirp2) .chirpWait
        { takeResponse s with work := chirpWork w s } := by
  unfold interpArrived
  dsimp only
  split
  · exact absurd ‹_› h
  all_goals rfl

/-- INTERP from its request on (R197). -/
theorem reaches_issueInterp (hop : s.snap.op = .legal .interp) (hc : s.coreResp = none)
    (h : completion (.ok (sincinterp Config.num s.work.f)) s = t) : ReachesWithin 3 (issueInterp s) t := by
  refine .of_issue hc ?_
  change ReachesWithin 1 (interpArrived _ (responded _ _ s)) t
  rw [interpArrived_interp _ (s := responded _ _ s) hop]
  exact reaches_goFinish rfl (.trans (completion_congr (s := s) rfl rfl rfl) h)

/-- The chirp engine from its guard on (R210, R211). -/
theorem reaches_startEngine {a : Binary64} (hop : s.snap.op ≠ .legal .interp) (ha : engineOrder s = a) (hc : s.coreResp = none)
    (h : completion (engineRun Config.num s.work.f a) s = t) : ReachesWithin 5 (startEngine s) t := by
  subst ha
  unfold startEngine
  unfold engineRun at h
  split <;> rename_i hg
  · rw [if_pos hg] at h
    refine .of_issue hc ?_
    change ReachesWithin 3 (interpArrived _ (responded _ _ s)) t
    rw [interpArrived_chirp _ (s := responded _ _ s) hop]
    exact reaches_chirp rfl (.trans (completion_congr (s := s) rfl rfl rfl) h)
  · rw [if_neg hg] at h
    rw [← h]
    exact reachesWithin_refl 5 _

/-! The range reducer and the dispatch of FRFT and IFRFT (R141 to R143, R171 to R176). -/

/-- The state after an FFT response is taken: the centred transform is the working copy (R147, R148). -/
def transformed (dir : Dir) (s : State) : State :=
  { s with
    pend := none
    coreResp := none
    work := { s.work with f := centredFinish Config.num (fftResponse Config.num dir (gather s.work.f)) } }

theorem fftArrived_special (g : List Sample) (h : s.work.order.cls ≠ .general) :
    fftArrived g s =
      goFinish (centredFinish Config.num g) { takeResponse s with work := { s.work with f := centredFinish Config.num g } } := by
  unfold fftArrived
  dsimp only
  split
  case h_5 hg => exact absurd hg h
  all_goals rfl

/-- After step 2's transform the reducer goes on (R173). -/
theorem fftArrived_forward (g : List Sample) (h : s.work.order.cls = .general) (hi : s.work.order.i = false) :
    fftArrived g s =
      goStage .reduce { takeResponse s with work := { s.work with f := centredFinish Config.num g } } := by
  unfold fftArrived
  dsimp only
  rw [h]
  exact if_neg (Bool.eq_false_iff.1 hi)

/-- After step 3's transform the chirp engine starts (R174). -/
theorem fftArrived_inverse (g : List Sample) (h : s.work.order.cls = .general) (hi : s.work.order.i = true) :
    fftArrived g s = startEngine { takeResponse s with work := { s.work with f := centredFinish Config.num g } } := by
  unfold fftArrived
  dsimp only
  rw [h]
  exact if_pos hi

/-- The range reducer of FRFT and IFRFT, from its start. -/
theorem stageReduce_start (ht : isTransform s.snap.op = true) (hf : s.work.order.f = false) :
    stageReduce s = reduceStep12 s := by
  unfold stageReduce
  rcases isTransform_iff.1 ht with hop | hop <;> rw [hop] <;> exact if_neg (Bool.eq_false_iff.1 hf)

/-- The range reducer of FRFT and IFRFT, resumed after step 2's transform. -/
theorem stageReduce_resumed (ht : isTransform s.snap.op = true) (hf : s.work.order.f = true) :
    stageReduce s = reduceStep3 s := by
  unfold stageReduce
  rcases isTransform_iff.1 ht with hop | hop <;> rw [hop] <;> exact if_pos hf

theorem stageStep_reduce (h : s.seq = .run .reduce) : stageStep s = stageReduce s := by
  rw [stageStep, h]

theorem reaches_of_reduce_start {n : Nat} (hs : s.seq = .run .reduce) (hp : s.pend = none)
    (ht : isTransform s.snap.op = true) (hf : s.work.order.f = false) (h : ReachesWithin n (reduceStep12 s) t) :
    ReachesWithin (n + 1) s t := by
  rw [← stageReduce_start ht hf, ← stageStep_reduce hs] at h
  exact h.of_stageStep hp

theorem reaches_of_reduce_resumed {n : Nat} (hs : s.seq = .run .reduce) (hp : s.pend = none)
    (ht : isTransform s.snap.op = true) (hf : s.work.order.f = true) (h : ReachesWithin n (reduceStep3 s) t) :
    ReachesWithin (n + 1) s t := by
  rw [← stageReduce_resumed ht hf, ← stageStep_reduce hs] at h
  exact h.of_stageStep hp

/-- A special class's FFT request and what follows its answer (R152). -/
theorem reaches_fft_special {dir : Dir} (hcls : s.work.order.cls ≠ .general) (hc : s.coreResp = none)
    (h : completion (.ok (transformed dir s).work.f) s = t) :
    ReachesWithin 3 (issue (.fft dir (gather s.work.f)) .fftWait s) t := by
  refine .of_issue hc ?_
  change ReachesWithin 1 (fftArrived _ (responded _ _ s)) t
  rw [fftArrived_special _ (s := responded _ _ s) hcls]
  exact reaches_goFinish rfl (.trans (completion_congr (s := s) rfl rfl rfl) h)

/-- Step 2's FFT request and what follows its answer: the reducer again (R173). -/
theorem reaches_fft_forward {n : Nat} (hcls : s.work.order.cls = .general) (hi : s.work.order.i = false)
    (hc : s.coreResp = none) (h : ReachesWithin n (goStage .reduce (transformed .fwd s)) t) :
    ReachesWithin (n + 2) (issue (.fft .fwd (gather s.work.f)) .fftWait s) t := by
  refine .of_issue hc ?_
  change ReachesWithin n (fftArrived _ (responded _ _ s)) t
  rw [fftArrived_forward _ (s := responded _ _ s) hcls hi]
  exact h

/-- Step 3's FFT request and what follows its answer: the chirp engine (R174). -/
theorem reaches_fft_inverse {n : Nat} (hcls : s.work.order.cls = .general) (hi : s.work.order.i = true)
    (hc : s.coreResp = none) (h : ReachesWithin n (startEngine (goStage .fftWait (transformed .inv s))) t) :
    ReachesWithin (n + 2) (issue (.fft .inv (gather s.work.f)) .fftWait s) t := by
  refine .of_issue hc ?_
  change ReachesWithin n (fftArrived _ (responded _ _ s)) t
  rw [fftArrived_inverse _ (s := responded _ _ s) hcls hi]
  exact h

/-- Reducer step 3 where it does not fire. -/
theorem reaches_reduceStep3_engine {a : Binary64} (ht : isTransform s.snap.op = true) (hc : s.coreResp = none)
    (hr : reduceInverse s.work.order.ae = (a, false))
    (h : completion (engineRun Config.num s.work.f a) (setOrder { s.work.order with ae := a, i := false } s) = t) :
    ReachesWithin 5 (reduceStep3 s) t := by
  unfold reduceStep3
  dsimp only
  rw [hr]
  exact reaches_startEngine (ne_interp_of_isTransform ht) (engineOrder_of_isTransform ht) hc h

/-- Reducer step 3 where it fires. -/
theorem reaches_reduceStep3_fft {a : Binary64} (ht : isTransform s.snap.op = true) (hcls : s.work.order.cls = .general)
    (hc : s.coreResp = none) (hr : reduceInverse s.work.order.ae = (a, true))
    (h : completion (engineRun Config.num (cidft Config.num s.work.f) a)
      (setOrder { s.work.order with ae := a, i := true } s) = t) :
    ReachesWithin 7 (reduceStep3 s) t := by
  unfold reduceStep3
  dsimp only
  rw [hr]
  refine reaches_fft_inverse (s := setOrder _ s) hcls rfl hc (reaches_startEngine (ne_interp_of_isTransform ht)
    (engineOrder_of_isTransform ht) rfl ?_)
  exact .trans (completion_congr (s := setOrder _ s) rfl rfl rfl) h

theorem reduceOrder_eq {ar a1 a2 a3 : Binary64} {p f i : Bool} (h1 : reduceParity ar = (a1, p))
    (h2 : reduceForward a1 = (a2, f)) (h3 : reduceInverse a2 = (a3, i)) : reduceOrder ar = ⟨ar, a3, .general, p, f, i⟩ := by
  simp only [reduceOrder, h1, h2, h3]

/-- Where step 2 has fired, step 3 does not (R176). -/
theorem reduceInverse_of_forward {a1 a2 : Binary64} (h : reduceForward a1 = (a2, true)) :
    reduceInverse a2 = (a2, false) := by
  unfold reduceForward at h
  split at h <;> rename_i hlt
  · obtain ⟨rfl, -⟩ := Prod.mk.inj h
    rw [reduceInverse, not_inverse_after_forward hlt]
    rfl
  · exact absurd (Prod.mk.inj h).2 Bool.false_ne_true

/-- The range reducer from its start, on a GENERAL reduced order (R171). -/
theorem reaches_reduceStep12 {ar : Binary64} (ht : isTransform s.snap.op = true) (hc : s.coreResp = none)
    (ho : s.work.order = ⟨ar, ar, .general, false, false, false⟩)
    (h : completion (transformResult Config.num (reduceOrder ar) s.work.f) (setOrder (reduceOrder ar) s) = t) :
    ReachesWithin 8 (reduceStep12 s) t := by
  rcases h1 : reduceParity ar with ⟨a1, p⟩
  rcases h2 : reduceForward a1 with ⟨a2, f⟩
  rcases h3 : reduceInverse a2 with ⟨a3, i⟩
  rw [reduceOrder_eq h1 h2 h3] at h
  unfold reduceStep12
  rw [ho]
  simp only [h1, h2]
  cases f with
  | true =>
    obtain ⟨rfl, rfl⟩ := Prod.mk.inj ((reduceInverse_of_forward h2).symm.trans h3)
    refine reaches_fft_forward rfl rfl hc (reaches_of_reduce_resumed rfl rfl ht rfl (reaches_reduceStep3_engine ht rfl h3 ?_))
    exact .trans (completion_congr (s := setOrder _ s) rfl rfl rfl) h
  | false =>
    cases i with
    | true =>
      refine .mono (m := 7) (reaches_reduceStep3_fft ht rfl hc h3 ?_) (by decide)
      exact .trans (completion_congr (s := setOrder _ s) rfl rfl rfl) h
    | false =>
      refine .mono (m := 5) (reaches_reduceStep3_engine ht hc h3 ?_) (by decide)
      exact .trans (completion_congr (s := setOrder _ s) rfl rfl rfl) h

/-- A special class needs the signal at most one FFT request (R152). -/
theorem reaches_stageDispatch (ht : isTransform s.snap.op = true) (hp : s.pend = none) (hc : s.coreResp = none)
    (h : completion (transformResult Config.num (dispatchOrder (orderOperand s)) s.work.f)
      (setOrder (dispatchOrder (orderOperand s)) s) = t) :
    ReachesWithin 9 (stageDispatch s) t := by
  unfold stageDispatch
  dsimp only
  cases hcls : classify (floormod4 (orderOperand s))
  case general =>
    rw [dispatchOrder_general hcls] at h
    refine reaches_of_reduce_start rfl hp ht rfl (reaches_reduceStep12 ht hc rfl ?_)
    exact .trans (completion_congr (s := setOrder _ s) rfl rfl rfl) h
  all_goals rw [dispatchOrder_special (by rw [hcls]; decide), hcls] at h
  case identity => exact .mono (m := 1) (reaches_goFinish hp h) (by decide)
  case parity => exact .mono (m := 1) (reaches_goFinish hp h) (by decide)
  case cdft => exact .mono (m := 3) (reaches_fft_special OrderClass.noConfusion hc h) (by decide)
  case cidft => exact .mono (m := 3) (reaches_fft_special OrderClass.noConfusion hc h) (by decide)

/-! From CHECK (R122, R123, R129). -/

theorem stageStep_check (h : s.seq = .run .check) : stageStep s = stageCheck s := by
  rw [stageStep, h]

/-- The state of a data command past its length check: the signal is read into the working copy (R70, R123). -/
def loaded (s : State) : State :=
  useDraws (lengthOperand s) { s with work := { s.work with f := inputSignal s } }

/-- The length check of the stages is the one of the whole command (R123). -/
theorem reaches_stageLength {n : Nat} {next short : State → State} {body : List Sample → State → State} (hp : s.pend = none)
    (hshort : lengthOperand s = 1 → completion (.ok [xSample s.mem s.draws 0]) (useDraws 1 s) = short s)
    (hbody : 2 ≤ lengthOperand s → ReachesWithin (n + 1) (next (loaded s)) (body (inputSignal s) (useDraws (lengthOperand s) s))) :
    ReachesWithin (n + 1) (stageLength next s) (dataCommand short body s) := by
  unfold stageLength dataCommand
  rcases lengthCase_cases (lengthOperand s) with ⟨-, e⟩ | ⟨-, e⟩ | ⟨h1, e⟩ | ⟨h2, -, e⟩ <;> rw [e]
  · exact reachesWithin_refl _ _
  · exact reachesWithin_refl _ _
  · exact .mono (m := 1) (reaches_goFinish hp (hshort h1)) (Nat.le_add_left 1 n)
  · exact hbody h2

end Stages

section Commands

variable {s t : State}

theorem exec_transform {i : Instr} (hop : s.snap.op = .legal i) (ht : isTransform (.legal i) = true) :
    exec i s = .next (transformAt (orderOperand s) s) := by
  unfold orderOperand
  rcases isTransform_iff.1 ht with e | e <;> injection e with e <;> subst e <;> rw [hop] <;> rfl

theorem stageCheck_transform (ht : isTransform s.snap.op = true) : stageCheck s = stageLength (goStage .dispatch) s := by
  unfold stageCheck
  rcases isTransform_iff.1 ht with hop | hop <;> rw [hop]

/-- NOP completes in CHECK (R130). -/
theorem reaches_nop (hp : s.pend = none) (hs : s.seq = .run .check) (hop : s.snap.op = .legal .nop) :
    ReachesWithin 1 s (finish [] s) := by
  refine .of_stageStep hp ?_
  rw [stageStep_check hs, stageCheck, hop]
  exact reachesWithin_refl _ _

/-- REDUCE's one stage (R155). -/
theorem reaches_stageReduce_command (hp : s.pend = none) (hop : s.snap.op = .legal .reduce) :
    ReachesWithin 1 (stageReduce s) (reduceFinish (dispatchOrder s.snap.a0) s) := by
  unfold stageReduce reduceFinish
  rw [hop]
  dsimp only
  split
  · have herr : raiseErr .degenerateOrder (orderWrites (setOrder (dispatchOrder s.snap.a0) s)) =
        raiseErr .degenerateOrder (writeOrder (dispatchOrder s.snap.a0) s) :=
      completion_dispatched (r := .error .degenerateOrder) (.inl hop)
    rw [herr]
    exact reachesWithin_refl _ _
  · exact reaches_goFinish hp (completion_dispatched (r := .ok []) (.inl hop))

theorem reaches_reduce (hp : s.pend = none) (hs : s.seq = .run .check) (hop : s.snap.op = .legal .reduce) :
    ReachesWithin 3 s (reduceFinish (dispatchOrder s.snap.a0) s) := by
  refine .of_stageStep hp ?_
  rw [stageStep_check hs, stageCheck, hop]
  exact .of_stageStep (s := goStage .reduce s) hp (reaches_stageReduce_command (s := goStage .reduce s) hp hop)

/-- FRFT and IFRFT (R241, R244). -/
theorem reaches_transform (hp : s.pend = none) (hc : s.coreResp = none) (hs : s.seq = .run .check)
    (ht : isTransform s.snap.op = true) : ReachesWithin 11 s (transformAt (orderOperand s) s) := by
  refine .of_stageStep hp ?_
  rw [stageStep_check hs, stageCheck_transform ht]
  refine reaches_stageLength hp (fun h1 => ?_) fun h2 => ?_
  · rw [completion, orderWrites_short (s := useDraws 1 s) ht h1]
    rfl
  · refine .of_stageStep (s := goStage .dispatch (loaded s)) hp (reaches_stageDispatch ht hp hc ?_)
    rw [completion_dispatched (s := goStage .dispatch (loaded s)) (.inr ⟨ht, h2⟩)]
    exact complete_of_internalMove rfl rfl

/-- INTERP (R197). -/
theorem reaches_interp (hp : s.pend = none) (hc : s.coreResp = none) (hs : s.seq = .run .check)
    (hop : s.snap.op = .legal .interp) :
    ReachesWithin 4 s (dataCommand finishShort (fun f s => finish (sincinterp Config.num f) s) s) := by
  refine .of_stageStep hp ?_
  rw [stageStep_check hs, stageCheck, hop]
  refine reaches_stageLength hp (fun _ => completion_undispatched (s := useDraws 1 s) (.inl hop)) fun _ => ?_
  refine reaches_issueInterp (s := loaded s) hop hc ?_
  exact completion_undispatched (s := loaded s) (.inl hop)

/-- ENGINE (R222). -/
theorem reaches_engine (hp : s.pend = none) (hc : s.coreResp = none) (hs : s.seq = .run .check)
    (hop : s.snap.op = .legal .engine) :
    ReachesWithin 6 s (dataCommand finishShort (fun f s' => complete (engineRun Config.num f s.snap.a0) s') s) := by
  refine .of_stageStep hp ?_
  rw [stageStep_check hs, stageCheck, hop]
  refine reaches_stageLength hp (fun _ => completion_undispatched (s := useDraws 1 s) (.inr hop)) fun _ => ?_
  refine reaches_startEngine (s := loaded s) (by rw [loaded, useDraws_snap, hop]; decide) (engineOrder_of_engine hop) hc ?_
  exact (completion_undispatched (s := loaded s) (.inr hop)).trans (complete_of_internalMove rfl rfl)

/-- Every command's stages reach what its whole-command step answers. -/
theorem reaches_exec {i : Instr} (hp : s.pend = none) (hc : s.coreResp = none) (hs : s.seq = .run .check)
    (hop : s.snap.op = .legal i) : ∃ t, exec i s = .next t ∧ ReachesWithin 12 s t := by
  have htransform (ht : isTransform (.legal i) = true) : ∃ t, exec i s = .next t ∧ ReachesWithin 12 s t :=
    ⟨_, exec_transform hop ht, (reaches_transform hp hc hs (by rw [hop, ht])).mono (by decide)⟩
  cases i with
  | nop => exact ⟨_, rfl, (reaches_nop hp hs hop).mono (by decide)⟩
  | frft => exact htransform rfl
  | ifrft => exact htransform rfl
  | reduce => exact ⟨_, rfl, (reaches_reduce hp hs hop).mono (by decide)⟩
  | interp => exact ⟨_, rfl, (reaches_interp hp hc hs hop).mono (by decide)⟩
  | engine => exact ⟨_, rfl, (reaches_engine hp hc hs hop).mono (by decide)⟩

end Commands

/-- Settles O50: the stages reach the whole command's state. -/
theorem stagedPipelineAgreesWithCommand : Obligations.StagedPipelineAgreesWithCommand := by
  unfold Obligations.StagedPipelineAgreesWithCommand
  intro i s hs hop hp hc _
  obtain ⟨t, ht, k, hk, rfl⟩ := reaches_exec hp hc hs hop
  exact ⟨k, hk, ht⟩

end Sys2Proof.Machine
end

section
/-! PROOFS. The order arithmetic (R141, R142): the truncated remainder by 4 is exact, and floor-mod reduction corrects it in one way where it
is negative and in another where it is not. -/

namespace Sys2Proof.Machine.F64

theorem isFinite_eq_false_iff {a : Binary64} : isFinite a = false ↔ isNaN a = true ∨ isInf a = true := by
  simp only [isFinite, isNaN, isInf, decide_eq_false_iff_not, decide_eq_true_eq, beq_iff_eq]
  omega

theorem lt_eq_false_iff {a b : Binary64} (ha : isFinite a = true) (hb : isFinite b = true) :
    lt a b = false ↔ toInt b ≤ toInt a := by
  rw [Bool.eq_false_iff, Ne, lt_iff ha hb, not_lt]

theorem eq_eq_false_iff {a b : Binary64} (ha : isFinite a = true) (hb : isFinite b = true) :
    eq a b = false ↔ toInt a ≠ toInt b := by
  rw [Bool.eq_false_iff, Ne, eq_iff ha hb]

/-- Values that compare equal compare alike with every other value. -/
theorem eq_congr_left {a b : Binary64} (h : eq a b = true) (c : Binary64) : eq a c = eq b c := by
  simp only [eq, Bool.and_eq_true, Bool.not_eq_true', decide_eq_true_eq] at h
  obtain ⟨⟨ha, hb⟩, hkey⟩ := h
  simp only [eq, ha, hb, hkey]

/-- `+0.0` is the only zero without a sign. -/
theorem eq_zero_of_sign_false {a : Binary64} (ha : isFinite a = true) (hs : sign a = false) (h : eq a zero = true) : a = zero :=
  eq_of_toInt_eq ha isFinite_zero hs ((eq_iff ha isFinite_zero).1 h)

/-! The truncated remainder (R141). -/

/-- The remainder of a magnitude by a power of two keeps its grid, so it has an encoding. -/
theorem exists_bits_of_mod (a : Binary64) {t : Nat} (ht : t ≤ 2045) :
    ∃ m, m < infBits ∧ unitsOfBits m = units a % 2 ^ t := by
  obtain ⟨k, e, hk, hu, -, -⟩ := units_scaled (magBits a)
  rw [units, hu]
  rcases Nat.le_total t e with hte | het
  · refine ⟨0, by decide, ?_⟩
    rw [unitsOfBits_zero, Nat.mod_eq_zero_of_dvd ((Nat.pow_dvd_pow 2 hte).mul_left k)]
  · obtain ⟨d, rfl⟩ := Nat.exists_eq_add_of_le het
    obtain ⟨m, hm, hmu⟩ := exists_bits (k := k % 2 ^ d) (e := e) ((Nat.mod_le _ _).trans_lt hk) (le_trans het ht)
    exact ⟨m, hm, by rw [hmu, pow_add, Nat.mul_comm (2 ^ e), Nat.mul_mod_mul_right]⟩

theorem fourUnits_eq_two_pow : 4 * unitsPerOne = 2 ^ 1076 := by
  rw [unitsPerOne_eq, show (4 : Nat) = 2 ^ 2 by rfl, ← pow_add]

/-- The truncated remainder needs no rounding. -/
theorem units_fmod4 (a : Binary64) : units (fmod4 a) = units a % (4 * unitsPerOne) := by
  obtain ⟨m, hm, hu⟩ := exists_bits_of_mod a (t := 1076) (by norm_num)
  rw [← fourUnits_eq_two_pow] at hu
  rw [fmod4, ← hu, roundBits_unitsOfBits m hm, units, magBits_pack _ _ (lt_two_pow_63 hm.le)]

theorem sign_fmod4 (a : Binary64) : sign (fmod4 a) = sign a := sign_pack _ _ (roundBits_lt_two_pow_63 _ _)

theorem units_fmod4_lt (a : Binary64) : units (fmod4 a) < 8 * halfUnits := by
  rw [units_fmod4, fourUnits_eq]
  exact Nat.mod_lt _ (Nat.mul_pos (by norm_num) halfUnits_pos)

theorem toInt_fmod4 (a : Binary64) :
    toInt (fmod4 a) = if sign a then -(units (fmod4 a) : Int) else (units (fmod4 a) : Int) := by
  rw [toInt, sign_fmod4]

theorem toInt_fmod4_nonneg {a : Binary64} (h : 0 ≤ toInt a) : 0 ≤ toInt (fmod4 a) := by
  rw [toInt] at h
  rw [toInt_fmod4]
  cases hs : sign a
  · exact Int.natCast_nonneg _
  · rw [hs, if_pos rfl] at h
    rw [units_fmod4, show units a = 0 by omega, Nat.zero_mod]
    decide

end Sys2Proof.Machine.F64

namespace Sys2Proof.Machine

open F64

/-- Settles O42: a remainder on the operand's grid has an encoding. -/
theorem truncatedRemainderIsExact : Obligations.TruncatedRemainderIsExact := by
  unfold Obligations.TruncatedRemainderIsExact
  intro a _
  rw [← unitsPerOne_eq]
  exact ⟨units_fmod4 a, sign_fmod4 a⟩

/-! Floor-mod reduction of a finite order (R141, R142). -/

section Finite

variable {a : Binary64} (ha : F64.isFinite a = true)

include ha

theorem isFinite_fmod4 : F64.isFinite (fmod4 a) = true := (fmod4_bound ha).1

theorem fmod4_ne_four : F64.eq (fmod4 a) four = false := by
  have hlt := units_fmod4_lt a
  rw [eq_eq_false_iff (isFinite_fmod4 ha) isFinite_four, toInt_four, toInt_fmod4]
  split <;> omega

theorem floormod4_of_isFinite :
    floormod4 a =
      let r := if F64.lt (fmod4 a) zero then F64.add (fmod4 a) four else fmod4 a
      let r := if F64.eq r four then zero else r
      if F64.eq r zero then zero else r := by
  rw [floormod4, not_isNaN_of_isFinite ha, not_isInf_of_isFinite ha, Bool.or_self, if_neg Bool.false_ne_true]

/-- A remainder from zero up is the reduced order, but for the sign of a zero. -/
theorem floormod4_of_nonneg (h : 0 ≤ toInt (fmod4 a)) :
    floormod4 a = if F64.eq (fmod4 a) zero then zero else fmod4 a := by
  have hlt : F64.lt (fmod4 a) zero = false := by rwa [lt_eq_false_iff (isFinite_fmod4 ha) isFinite_zero, toInt_zero]
  simp only [floormod4_of_isFinite ha, hlt, fmod4_ne_four ha, Bool.false_eq_true, if_false]

/-- A negative remainder plus 4.0, rounded, is no zero: the exact sum is at least one unit. -/
theorem add_fmod4_four_pos (h : toInt (fmod4 a) < 0) :
    F64.isFinite (F64.add (fmod4 a) four) = true ∧ 0 < toInt (F64.add (fmod4 a) four) := by
  have hlt := units_fmod4_lt a
  have hgt : -(8 * (halfUnits : Int)) < toInt (fmod4 a) := by rw [toInt_fmod4]; split <;> omega
  have hone : toInt 1#64 = 1 := by decide
  obtain ⟨hfin, hlo, -⟩ := add_between (lo := 1#64) (hi := four) (isFinite_fmod4 ha) isFinite_four (by decide) isFinite_four
    (by rw [hone, toInt_four]; omega) (by rw [toInt_four]; omega)
  exact ⟨hfin, by omega⟩

/-- A negative remainder is corrected by one rounded addition of 4.0, or to `+0.0` where that rounds up to 4.0. -/
theorem floormod4_of_neg (h : toInt (fmod4 a) < 0) :
    floormod4 a = if F64.eq (F64.add (fmod4 a) four) four then zero else F64.add (fmod4 a) four := by
  obtain ⟨hfin, hpos⟩ := add_fmod4_four_pos ha h
  have hlt : F64.lt (fmod4 a) zero = true := by rwa [lt_iff (isFinite_fmod4 ha) isFinite_zero, toInt_zero]
  simp only [floormod4_of_isFinite ha, hlt, if_true]
  split
  · exact ite_self zero
  · rw [zero_of_eq_zero hfin hpos.ne', if_neg Bool.false_ne_true]

theorem floormod4_of_sign_false (hs : sign a = false) : floormod4 a = fmod4 a := by
  have hnn : 0 ≤ toInt (fmod4 a) := by simp [toInt_fmod4, hs]
  rw [floormod4_of_nonneg ha hnn, ite_eq_right_iff]
  exact fun h0 => (eq_zero_of_sign_false (isFinite_fmod4 ha) ((sign_fmod4 a).trans hs) h0).symm

/-- `-0.0` counts as zero here too. -/
theorem eq_floormod4_fmod4 (h : F64.le zero a = true) : F64.eq (floormod4 a) (fmod4 a) = true := by
  rw [le_iff isFinite_zero ha, toInt_zero] at h
  rw [eq_iff (floormod4_range ha).1 (isFinite_fmod4 ha), floormod4_of_nonneg ha (toInt_fmod4_nonneg h)]
  split
  case isTrue h0 => exact ((eq_iff (isFinite_fmod4 ha) isFinite_zero).1 h0).symm
  case isFalse => rfl

theorem floormod4_of_sign_true (hs : sign a = true) (h0 : F64.eq (fmod4 a) zero = false) :
    floormod4 a = if F64.eq (F64.add (fmod4 a) four) four then zero else F64.add (fmod4 a) four := by
  rw [eq_eq_false_iff (isFinite_fmod4 ha) isFinite_zero, toInt_zero] at h0
  have hle : toInt (fmod4 a) ≤ 0 := by simp [toInt_fmod4, hs]
  exact floormod4_of_neg ha (lt_of_le_of_ne hle h0)

end Finite

/-- Settles O41: the range, then one correction for each sign of the remainder. -/
theorem reducedOrderProperties : Obligations.ReducedOrderProperties := by
  unfold Obligations.ReducedOrderProperties
  refine ⟨fun a ha => ?_, fun a h => isNaN_floormod4 (isFinite_eq_false_iff.2 h), by decide +kernel, by decide +kernel,
    by decide +kernel⟩
  obtain ⟨hf, hs, hlo, hhi⟩ := floormod4_range ha
  exact ⟨(le_iff isFinite_zero hf).2 (by rwa [toInt_zero]), (lt_iff hf isFinite_four).2 (by rwa [toInt_four]),
    eq_zero_of_sign_false hf hs, floormod4_of_sign_false ha, eq_floormod4_fmod4 ha, floormod4_of_sign_true ha⟩

end Sys2Proof.Machine
end

section
/-! PROOFS. The order dispatcher's commands (R143, R150, R155, R241 to R244): REDUCE reports the dispatch of ORDER, and FRFT and IFRFT act on
it. -/

namespace Sys2Proof.Machine

open F64

/-! The class of a reduced order (R143). -/

/-- The class depends on the value of the reduced order only. -/
theorem classify_congr {a b : Binary64} (h : F64.eq a b = true) : classify a = classify b := by
  simp only [classify, eq_congr_left h]

theorem classify_of_ne {a : Binary64} (h0 : F64.eq a zero = false) (h1 : F64.eq a one = false) (h2 : F64.eq a two = false)
    (h3 : F64.eq a three = false) : classify a = .general := by
  simp [classify, h0, h1, h2, h3]

/-! REDUCE (R155). -/

/-- REDUCE's completion reports the record and writes no result, whatever its code. -/
theorem reduceFinish_reports (o : OrderRecord) (s : State) :
    (reduceFinish o s).mem = s.mem ∧ (reduceFinish o s).draws = s.draws ∧ (reduceFinish o s).outlen = 0 ∧
      (reduceFinish o s).orderRed = o.ar ∧ (reduceFinish o s).orderEng = o.ae ∧
      (reduceFinish o s).path = .dispatched o.cls o.p o.f o.i := by
  unfold reduceFinish
  split <;> exact ⟨rfl, rfl, rfl, rfl, rfl, rfl⟩

theorem reduceFinish_errcode (o : OrderRecord) (s : State) :
    (reduceFinish o s).errcode = if reduceFails o then .degenerateOrder else .none := by
  unfold reduceFinish
  split <;> rfl

/-- R155: the range reducer keeps every finite GENERAL order inside the engine's interval. -/
theorem reduceFails_dispatchOrder (a : Binary64) : reduceFails (dispatchOrder a) = !F64.isFinite a := by
  cases hf : F64.isFinite a
  · rw [reduceFails, inEngineRange_nonfinite hf, dispatchOrder_nonfinite hf]; rfl
  · rw [reduceFails, Bool.not_true, Bool.and_eq_false_imp, beq_iff_eq]
    intro hc
    rw [inEngineRange_dispatch hf hc]; rfl

theorem inEngineRange_iff (a : Binary64) : inEngineRange a = true ↔ F64.le half a = true ∧ F64.le a oneHalf = true := by
  rw [inEngineRange, Bool.and_eq_true]

theorem reduceFails_iff (o : OrderRecord) : reduceFails o = true ↔ o.cls = .general ∧ inEngineRange o.ae = false := by
  rw [reduceFails, Bool.and_eq_true, beq_iff_eq, Bool.not_eq_true']

theorem reduceFinish_degenerate_iff (o : OrderRecord) (s : State) :
    (reduceFinish o s).errcode = .degenerateOrder ↔ o.cls = .general ∧ inEngineRange o.ae = false := by
  rw [reduceFinish_errcode, ← reduceFails_iff]
  cases reduceFails o <;> decide

/-- The engine order is the reducer's for a GENERAL class, the reduced order for a special one (R152). -/
theorem dispatchOrder_ae (a : Binary64) :
    (dispatchOrder a).ae = if classify (floormod4 a) = .general then (reduceOrder (floormod4 a)).ae else floormod4 a := by
  unfold dispatchOrder
  split <;> rfl

/-- PATH after a dispatch, for either kind of class (R150). -/
theorem dispatchOrder_path (a : Binary64) :
    PathReg.dispatched (dispatchOrder a).cls (dispatchOrder a).p (dispatchOrder a).f (dispatchOrder a).i =
      if classify (floormod4 a) = .general then
        .dispatched .general (reduceOrder (floormod4 a)).p (reduceOrder (floormod4 a)).f (reduceOrder (floormod4 a)).i
      else .dispatched (classify (floormod4 a)) false false false := by
  unfold dispatchOrder
  split <;> rfl

/-- Settles O28: the completion's registers, and the interval test on the engine order. -/
theorem reduceReportsTheDispatch : Obligations.ReduceReportsTheDispatch := by
  unfold Obligations.ReduceReportsTheDispatch
  intro s ar cls r1 r2 r3 ae
  have hc : CompletesFrom s (reduceFinish (dispatchOrder s.snap.a0) s) := completesFrom_reduceFinish _ s
  obtain ⟨hmem, hdraws, hout, hred, heng, hpath⟩ := reduceFinish_reports (dispatchOrder s.snap.a0) s
  have hae : (dispatchOrder s.snap.a0).ae = ae := dispatchOrder_ae _
  have hcls : (dispatchOrder s.snap.a0).cls = cls := dispatchOrder_cls _
  refine ⟨_, rfl, hc.idle, hc.sameHostSide, hmem, hdraws, hout, hred.trans (dispatchOrder_ar _), heng.trans hae,
    hpath.trans (dispatchOrder_path _), (reduceFinish_errcode _ s).trans (if_congr ?_ rfl rfl)⟩
  rw [reduceFails_iff, hcls, hae, ← inEngineRange_iff, Bool.not_eq_true]

/-- Settles O29: only an order without a reduced value leaves the engine's interval. -/
theorem reduceFailsExactlyOnNonFiniteOrders : Obligations.ReduceFailsExactlyOnNonFiniteOrders := by
  unfold Obligations.ReduceFailsExactlyOnNonFiniteOrders
  intro s
  refine ⟨_, rfl, ?_⟩
  rw [reduceFinish_errcode, reduceFails_dispatchOrder, ← isFinite_eq_false_iff]
  cases F64.isFinite s.snap.a0 <;> simp

/-! FRFT and IFRFT past the length check (R241, R244). -/

/-- The engine's order guard, test by test (R211). -/
theorem guardPasses_iff (num : Numerics) (a : Binary64) :
    guardPasses num a = true ↔ F64.le half a = true ∧ F64.le a oneHalf = true ∧
      F64.eq (num.sin (F64.div (F64.mul a num.pi) two)) zero = false := by
  rw [guardPasses, Bool.and_eq_true, inEngineRange_iff, Bool.not_eq_true', and_assoc]
  rfl

/-- The transform fails in the engine's guard only, so for a GENERAL class only (R223). -/
theorem transformResult_cases (num : Numerics) (o : OrderRecord) (f : List Sample) :
    ((o.cls = .general ∧ guardPasses num o.ae = false) ∧ transformResult num o f = .error .degenerateOrder) ∨
      (¬ (o.cls = .general ∧ guardPasses num o.ae = false) ∧ ∃ r, transformResult num o f = .ok r) := by
  unfold transformResult
  cases hc : o.cls
  case general =>
    cases hg : guardPasses num o.ae
    · exact .inl ⟨⟨rfl, rfl⟩, by simp [engineRun, hg]⟩
    · exact .inr ⟨fun h => Bool.noConfusion h.2, _, if_pos hg⟩
  all_goals exact .inr ⟨fun h => absurd h.1 (by decide), _, rfl⟩

theorem exec_of_transformOrder {i : Instr} {s : State} {a : Binary64} (h : TransformOrder i s a) :
    exec i s = .next (transformAt a s) := by
  rcases h with ⟨rfl, rfl⟩ | ⟨rfl, rfl⟩ <;> rfl

section Transform

variable {a : Binary64} {s : State} (h2 : 2 ≤ lengthOperand s) (hn : lengthOperand s ≤ Config.nmax)

include h2 hn

/-- The result registers are written on success and on failure alike (R150). -/
theorem transformAt_registers :
    (transformAt a s).orderRed = floormod4 a ∧ (transformAt a s).orderEng = (dispatchOrder a).ae ∧
      (transformAt a s).path =
        .dispatched (dispatchOrder a).cls (dispatchOrder a).p (dispatchOrder a).f (dispatchOrder a).i := by
  rw [transformAt_normal h2 hn, ← dispatchOrder_ar]
  exact sameOrderRegs_complete _ (writeOrder (dispatchOrder a) (useDraws (lengthOperand s) s))

/-- A result stands in YBUF and is as long as the signal (R126, R240). -/
theorem transformAt_of_ok {r : List Sample} (hr : transformResult Config.num (dispatchOrder a) (inputSignal s) = .ok r) :
    yHolds (transformAt a s).mem r ∧ r.length = lengthOperand s ∧ (transformAt a s).outlen.toNat = lengthOperand s ∧
      (transformAt a s).errcode = .none := by
  have hlen : r.length = lengthOperand s := (length_transformResult hr).trans (length_xSamples _ _ _)
  rw [transformAt_normal h2 hn, hr]
  refine ⟨yHolds_finish r _, hlen, ?_, rfl⟩
  rw [← hlen]
  exact outlen_finish _ (le_ycap (n := lengthOperand s) (by omega) hn)

/-- An error writes no result (R127). -/
theorem transformAt_of_error {c : ErrCode}
    (hr : transformResult Config.num (dispatchOrder a) (inputSignal s) = .error c) :
    (transformAt a s).mem = s.mem ∧ (transformAt a s).outlen = 0 ∧ (transformAt a s).errcode = c := by
  rw [transformAt_normal h2 hn, hr]
  exact ⟨rfl, rfl, rfl⟩

/-- DEGENERATE_ORDER is the guard's, at the engine order (R223). -/
theorem transformAt_degenerate_iff :
    (transformAt a s).errcode = .degenerateOrder ↔
      (dispatchOrder a).cls = .general ∧ guardPasses Config.num (dispatchOrder a).ae = false := by
  rcases transformResult_cases Config.num (dispatchOrder a) (inputSignal s) with ⟨hfail, hr⟩ | ⟨hpass, r, hr⟩
  · obtain ⟨-, -, herr⟩ := transformAt_of_error h2 hn hr
    exact iff_of_true herr hfail
  · obtain ⟨-, -, -, herr⟩ := transformAt_of_ok h2 hn hr
    exact iff_of_false (by rw [herr]; decide) hpass

end Transform

/-- Settles O32: the class of each of the four values, and the special case it selects (R152). -/
theorem transformAtIntegerOrder : Obligations.TransformAtIntegerOrder := by
  unfold Obligations.TransformAtIntegerOrder
  intro i s a hi h2 hn f ar c r hcase
  obtain ⟨hcls, hc, hres⟩ : classify ar = c ∧ c ≠ .general ∧
      transformResult Config.num ⟨ar, ar, c, false, false, false⟩ f = .ok r := by
    rcases hcase with ⟨he, rfl, rfl⟩ | ⟨he, rfl, rfl⟩ | ⟨he, rfl, rfl⟩ | ⟨he, rfl, rfl⟩ <;>
      exact ⟨(classify_congr he).trans (by decide), by decide, rfl⟩
  have ho : dispatchOrder a = ⟨ar, ar, c, false, false, false⟩ := hcls ▸ dispatchOrder_special (hcls ▸ hc)
  have hfrom := completesFrom_transformAt a s
  obtain ⟨hred, heng, hpath⟩ := transformAt_registers (a := a) h2 hn
  obtain ⟨hy, hlen, hout, herr⟩ := transformAt_of_ok (a := a) h2 hn (ho ▸ hres)
  rw [ho] at heng hpath
  exact ⟨_, exec_of_transformOrder hi, hy, hlen, hout, herr, hfrom.idle, hfrom.sameHostSide, hred, heng, hpath⟩

/-- Settles O33: the reducer's record decides, and the engine's guard tests its order (R211). -/
theorem transformAtGeneralOrder : Obligations.TransformAtGeneralOrder := by
  unfold Obligations.TransformAtGeneralOrder
  intro i s a hi h2 hn h0 h1 htwo h3 r1 r2 r3 f1 f2 f3
  have ho : dispatchOrder a = reduceOrder (floormod4 a) := dispatchOrder_general (classify_of_ne h0 h1 htwo h3)
  have hres : transformResult Config.num (dispatchOrder a) (inputSignal s) = engineRun Config.num f3 r3.1 := by rw [ho]; rfl
  have hfrom := completesFrom_transformAt a s
  obtain ⟨hred, heng, hpath⟩ := transformAt_registers (a := a) h2 hn
  rw [ho] at heng hpath
  refine ⟨_, exec_of_transformOrder hi, hfrom.idle, hfrom.sameHostSide, hred, heng, hpath, ?_⟩
  split
  case isTrue hguard =>
    have hok := hres.trans (if_pos ((guardPasses_iff _ _).2 hguard))
    obtain ⟨hy, -, hout, herr⟩ := transformAt_of_ok h2 hn hok
    exact ⟨hy, hout, herr⟩
  case isFalse hguard =>
    exact transformAt_of_error h2 hn (hres.trans (if_neg fun h => hguard ((guardPasses_iff _ _).1 h)))

theorem guardPasses_of_sin_ne_zero {num : Numerics} {a : Binary64}
    (h : F64.eq (num.sin (F64.div (F64.mul a num.pi) two)) zero = false) : guardPasses num a = inEngineRange a := by
  rw [Bool.eq_iff_iff, guardPasses_iff, inEngineRange_iff]
  exact ⟨fun ⟨hlo, hhi, _⟩ => ⟨hlo, hhi⟩, fun ⟨hlo, hhi⟩ => ⟨hlo, hhi, h⟩⟩

theorem guardPasses_of_out_of_range {num : Numerics} {a : Binary64} (h : inEngineRange a = false) :
    guardPasses num a = false := by
  rw [guardPasses, h, Bool.false_and]

/-- Settles O35: the two commands report one dispatch, and only the guard's test of NUM.sin can tell their codes apart. -/
theorem reducePredictsTransform : Obligations.ReducePredictsTransform := by
  unfold Obligations.ReducePredictsTransform
  intro s h2 hn
  obtain ⟨-, -, -, hred, heng, hpath⟩ := reduceFinish_reports (dispatchOrder s.snap.a0) s
  obtain ⟨hred', heng', hpath'⟩ := transformAt_registers (a := s.snap.a0) h2 hn
  refine ⟨_, _, rfl, rfl, hred'.trans (hred.trans (dispatchOrder_ar _)).symm, heng'.trans heng.symm,
    hpath'.trans hpath.symm, ?_⟩
  rw [transformAt_degenerate_iff h2 hn, heng, reduceFinish_degenerate_iff]
  exact ⟨fun ⟨hc, hout⟩ => ⟨hc, guardPasses_of_out_of_range hout⟩,
    fun hsin ⟨hc, hguard⟩ => ⟨hc, (guardPasses_of_sin_ne_zero hsin).symm.trans hguard⟩⟩

end Sys2Proof.Machine
end

section
/-! PROOFS. The centering shift and the centred transforms (R145 to R148). -/

namespace Sys2Proof.Machine

theorem shiftIndex_injective {n i j : Nat} (hi : i < n) (hj : j < n) (h : shiftIndex n i = shiftIndex n j) : i = j := by
  rw [← unshift_shift hi, h, unshift_shift hj]

/-- `scatter` writes through the shift (R146). -/
theorem elem_scatter_shiftIndex (g : List Sample) {i : Nat} (h : i < g.length) :
    elem (scatter g) (shiftIndex g.length i) = elem g i := by
  rw [elem_scatter g (shiftIndex_lt (by omega) i), unshift_shift h]

theorem scatter_gather (f : List Sample) : scatter (gather f) = f := by
  refine ext_elem (by simp) fun j hj => ?_
  have hj' : j < f.length := by simpa using hj
  rw [elem_scatter _ (by simpa using hj'), length_gather, elem_gather f (unshiftIndex_lt (by omega) j), shift_unshift hj']

theorem gather_scatter (f : List Sample) : gather (scatter f) = f := by
  refine ext_elem (by simp) fun i hi => ?_
  have hi' : i < f.length := by simpa using hi
  rw [elem_gather _ (by simpa using hi'), length_scatter, elem_scatter_shiftIndex f hi']

/-- Settles O47: the shift and its inverse, element by element. -/
theorem scatterInvertsGather : Obligations.ScatterInvertsGather := by
  unfold Obligations.ScatterInvertsGather
  refine ⟨fun n i hi => ⟨rfl, shiftIndex_lt (by omega) i⟩, fun n i j => shiftIndex_injective, fun n m hm => ?_,
    fun f => ⟨length_gather f, fun i => elem_gather f⟩, fun g => ⟨length_scatter g, fun i => elem_scatter_shiftIndex g⟩,
    scatter_gather, gather_scatter⟩
  exact ⟨unshiftIndex n m, unshiftIndex_lt (by omega) m, shift_unshift hm⟩

/-- What a centred transform makes of a response `g`, element by element (R147, R148). -/
theorem elem_centredFinish_shiftIndex (num : Numerics) (g : List Sample) {i : Nat} (h : i < g.length) :
    elem (centredFinish num g) (shiftIndex g.length i) = rdiv (elem g i) (num.sqrt (F64.ofNat g.length)) := by
  have hmap := elem_scatter_shiftIndex (g.map fun z => rdiv z (num.sqrt (F64.ofNat g.length))) (by simpa using h)
  rw [List.length_map] at hmap
  rw [centredFinish, hmap, elem_map _ _ h]

/-- The request is as long as the signal, and so is its response (R80, R82). -/
theorem elem_centredFinish_fftResponse (num : Numerics) (dir : Dir) (f : List Sample) {i : Nat} (h : i < f.length) :
    elem (centredFinish num (fftResponse num dir (gather f))) (shiftIndex f.length i) =
      rdiv (num.fft dir (gather f) i) (num.sqrt (F64.ofNat f.length)) := by
  have hg : i < (gather f).length := by simpa using h
  have hlen : (fftResponse num dir (gather f)).length = f.length := by simp
  have := elem_centredFinish_shiftIndex num (fftResponse num dir (gather f)) (i := i) (by omega)
  rwa [hlen, elem_fftResponse num dir _ hg] at this

/-- Settles O48: one lemma for both directions. -/
theorem centredTransformsScaleAndScatter : Obligations.CentredTransformsScaleAndScatter := by
  unfold Obligations.CentredTransformsScaleAndScatter
  intro num f i hi
  exact ⟨elem_centredFinish_fftResponse num .fwd f hi, elem_centredFinish_fftResponse num .inv f hi⟩

end Sys2Proof.Machine
end

section
/-! PROOFS. The centred transforms on reference values (R147 to R149): two transforms in a row are a double sum in which the roots of unity
leave one term. -/

namespace Sys2Proof.Machine.Reference

open Complex

/-- The `n`-th root of unity with exponent `w`. -/
noncomputable def root (n : ℕ) (w : ℤ) : ℂ := exp (2 * Real.pi * I * w / n)

theorem root_add (n : ℕ) (u v : ℤ) : root n (u + v) = root n u * root n v := by
  rw [root, root, root, ← Complex.exp_add]
  push_cast
  ring_nf

theorem root_natCast_mul (n j : ℕ) (d : ℤ) : root n (j * d) = root n d ^ j := by
  rw [root, root, ← Complex.exp_nat_mul]
  push_cast
  ring_nf

theorem conj_root (n : ℕ) (w : ℤ) : (starRingEnd ℂ) (root n w) = root n (-w) := by
  rw [root, root, ← Complex.exp_conj]
  simp [neg_div, map_ofNat]

theorem root_eq_one_iff {n : ℕ} (hn : 0 < n) (w : ℤ) : root n w = 1 ↔ (n : ℤ) ∣ w := by
  have hn' : (n : ℂ) ≠ 0 := by exact_mod_cast hn.ne'
  rw [root, Complex.exp_eq_one_iff]
  refine exists_congr fun k => ?_
  have hpi := Complex.two_pi_I_ne_zero
  rw [mul_div_assoc, mul_comm (k : ℂ), mul_right_inj' hpi, div_eq_iff hn', mul_comm (k : ℂ)]
  exact_mod_cast Iff.rfl

/-- The roots of an exponent's multiples, from any start on, cancel unless they are all 1. -/
theorem sum_root_mul {n : ℕ} (hn : 0 < n) (c d : ℤ) :
    ∑ j ∈ Finset.range n, root n ((j - c) * d) = if (n : ℤ) ∣ d then (n : ℂ) else 0 := by
  split_ifs with hd
  · have hone (j : ℕ) : root n ((j - c) * d) = 1 := (root_eq_one_iff hn _).2 (hd.mul_left _)
    simp [hone]
  · have hsplit (j : ℕ) : root n ((j - c) * d) = root n (-(c * d)) * root n d ^ j := by
      rw [← root_natCast_mul, ← root_add]; congr 1; ring
    have hpow : root n d ^ n = 1 := by
      rw [← root_natCast_mul, root_eq_one_iff hn]; exact dvd_mul_right _ _
    simp only [hsplit]
    rw [← Finset.mul_sum, geom_sum_eq (mt (root_eq_one_iff hn d).1 hd), hpow, sub_self, zero_div, mul_zero]

/-- The closed form of a centred transform, by roots of unity (R147, R148). -/
theorem centred_eq_sum_root (s : ℤ) {n : ℕ} (f : ℕ → ℂ) (m : ℕ) (hn : 0 < n) :
    centred s n f m =
      (Real.sqrt n : ℂ)⁻¹ * ∑ j ∈ Finset.range n, f j * root n (s * ((m - (n / 2 : ℕ)) * (j - (n / 2 : ℕ)))) := by
  rw [centred_eq_centredValue s f hn, centredValue, one_div]
  congr 1
  refine Finset.sum_congr rfl fun j _ => ?_
  rw [root]
  simp only [Int.cast_mul, Int.cast_sub, Int.cast_natCast]
  ring_nf

theorem inv_sqrt_mul_inv_sqrt (n : ℕ) : (Real.sqrt n : ℂ)⁻¹ * (Real.sqrt n : ℂ)⁻¹ = (n : ℂ)⁻¹ := by
  rw [← mul_inv, ← ofReal_mul, Real.mul_self_sqrt (Nat.cast_nonneg n), ofReal_natCast]

theorem natCast_dvd_sub_iff {n l p : ℕ} (hl : l < n) (hp : p < n) : (n : ℤ) ∣ l - p ↔ l = p := by
  rw [← Nat.modEq_iff_dvd, Nat.ModEq, Nat.mod_eq_of_lt hl, Nat.mod_eq_of_lt hp, eq_comm]

/-- Two transforms in a row, as one double sum. -/
theorem centred_centred_eq_sum {s t : ℤ} {n : ℕ} (f : ℕ → ℂ) (m : ℕ) (hn : 0 < n) :
    centred t n (centred s n f) m =
      (n : ℂ)⁻¹ * ∑ j ∈ Finset.range n, ∑ l ∈ Finset.range n,
        f l * root n ((j - (n / 2 : ℕ)) * (s * (l - (n / 2 : ℕ)) + t * (m - (n / 2 : ℕ)))) := by
  rw [centred_eq_sum_root _ _ _ hn, ← inv_sqrt_mul_inv_sqrt, mul_assoc]
  congr 1
  rw [Finset.mul_sum]
  refine Finset.sum_congr rfl fun j _ => ?_
  rw [centred_eq_sum_root _ _ _ hn, mul_assoc, Finset.sum_mul]
  congr 1
  refine Finset.sum_congr rfl fun l _ => ?_
  rw [mul_assoc, ← root_add]
  congr 2
  ring

/-- R149: a transform of a transform keeps, at output `m`, the one sample whose exponent is a multiple of `N`. -/
theorem centred_centred {s t : ℤ} {n m p : ℕ} (f : ℕ → ℂ) (hs : s = 1 ∨ s = -1) (hp : p < n)
    (h : (n : ℤ) ∣ s * (p - (n / 2 : ℕ)) + t * (m - (n / 2 : ℕ))) : centred t n (centred s n f) m = f p := by
  have hn : 0 < n := by omega
  have hn' : (n : ℂ) ≠ 0 := by exact_mod_cast hn.ne'
  have hkept {l : ℕ} (hl : l ∈ Finset.range n) : (n : ℤ) ∣ s * (l - (n / 2 : ℕ)) + t * (m - (n / 2 : ℕ)) ↔ l = p := by
    have hsplit : s * ((l : ℤ) - (n / 2 : ℕ)) + t * (m - (n / 2 : ℕ)) =
        s * (l - p) + (s * (p - (n / 2 : ℕ)) + t * (m - (n / 2 : ℕ))) := by ring
    rw [hsplit, dvd_add_left h, (Int.isUnit_iff.2 hs).dvd_mul_left, natCast_dvd_sub_iff (Finset.mem_range.1 hl) hp]
  calc centred t n (centred s n f) m
      = (n : ℂ)⁻¹ * ∑ l ∈ Finset.range n, f l * if l = p then (n : ℂ) else 0 := by
        rw [centred_centred_eq_sum f m hn, Finset.sum_comm]
        congr 1
        refine Finset.sum_congr rfl fun l hl => ?_
        rw [← Finset.mul_sum, sum_root_mul hn]
        simp only [hkept hl]
    _ = f p := by
        simp [hp, mul_comm, hn']

/-- R149: each centred transform undoes the other. -/
theorem centred_neg_centred {s : ℤ} {n m : ℕ} (f : ℕ → ℂ) (hs : s = 1 ∨ s = -1) (hm : m < n) :
    centred (-s) n (centred s n f) m = f m :=
  centred_centred f hs hm (by rw [neg_mul, add_neg_cancel]; exact dvd_zero _)

/-- The transform of the other sign is the adjoint. -/
theorem sum_mul_conj_centred (s : ℤ) {n : ℕ} (f g : ℕ → ℂ) (hn : 0 < n) :
    ∑ m ∈ Finset.range n, g m * (starRingEnd ℂ) (centred s n f m) =
      ∑ j ∈ Finset.range n, centred (-s) n g j * (starRingEnd ℂ) (f j) := by
  simp only [centred_eq_sum_root _ _ _ hn, map_mul, map_sum, conj_root, map_inv₀, conj_ofReal, Finset.mul_sum, Finset.sum_mul]
  rw [Finset.sum_comm]
  refine Finset.sum_congr rfl fun j _ => Finset.sum_congr rfl fun m _ => ?_
  rw [show -(s * (((m : ℤ) - (n / 2 : ℕ)) * ((j : ℤ) - (n / 2 : ℕ)))) =
    -s * (((j : ℤ) - (n / 2 : ℕ)) * ((m : ℤ) - (n / 2 : ℕ))) by ring]
  ring

/-- R149: a centred transform preserves energy. -/
theorem sum_norm_sq_centred {s : ℤ} {n : ℕ} (f : ℕ → ℂ) (hs : s = 1 ∨ s = -1) (hn : 0 < n) :
    ∑ m ∈ Finset.range n, ‖centred s n f m‖ ^ 2 = ∑ m ∈ Finset.range n, ‖f m‖ ^ 2 := by
  have hnorm (g : ℕ → ℂ) : ((∑ m ∈ Finset.range n, ‖g m‖ ^ 2 : ℝ) : ℂ) =
      ∑ m ∈ Finset.range n, g m * (starRingEnd ℂ) (g m) := by
    simp [mul_conj']
  apply ofReal_injective
  rw [hnorm, hnorm, sum_mul_conj_centred s f _ hn]
  exact Finset.sum_congr rfl fun j hj => by rw [centred_neg_centred f hs (Finset.mem_range.1 hj)]

/-- R149: CDFT twice reflects about the centre. -/
theorem centred_twice {n m : ℕ} (f : ℕ → ℂ) (hm : m < n) :
    centred (-1) n (centred (-1) n f) m = f ((2 * (n / 2) + n - m) % n) := by
  refine centred_centred f (.inr rfl) (Nat.mod_lt _ (by omega)) ?_
  have hmod := Nat.mod_modEq (2 * (n / 2) + n - m) n
  obtain ⟨k, hk⟩ := Nat.modEq_iff_dvd.1 hmod
  refine ⟨k - 1, ?_⟩
  push_cast [Nat.cast_sub (show m ≤ 2 * (n / 2) + n by omega)] at hk ⊢
  linarith

end Sys2Proof.Machine.Reference

namespace Sys2Proof.Machine

open Reference

/-- Settles O58: the shifts count both indices from the centre, modulo N. -/
theorem referenceCentredClosedForm : Obligations.ReferenceCentredClosedForm := by
  unfold Obligations.ReferenceCentredClosedForm
  exact fun s n f m _ hn _ => centred_eq_centredValue s f (by omega)

/-- Settles O59: orthogonality of the roots of unity, then the reflected index for each parity of N. -/
theorem referenceCentredTransformLaws : Obligations.ReferenceCentredTransformLaws := by
  unfold Obligations.ReferenceCentredTransformLaws
  intro n f hn
  refine ⟨fun m hm => ⟨centred_neg_centred f (.inr rfl) hm, centred_neg_centred f (.inl rfl) hm⟩,
    fun s hs => sum_norm_sq_centred f hs (by omega), fun m hm => ?_⟩
  rw [centred_twice f hm]
  refine ⟨rfl, fun hodd => congrArg f ?_, fun heven => congrArg f ?_⟩
  · rw [show 2 * (n / 2) + n - m = n - 1 - m + n by omega, Nat.add_mod_right, Nat.mod_eq_of_lt (by omega)]
  · rw [show 2 * (n / 2) + n - m = n - m + n by omega, Nat.add_mod_right]

end Sys2Proof.Machine
end

section
/-! PROOFS. The range reducer (R171 to R177): its subtractions are exact by Sterbenz's lemma, so that each step, seen through the values of
its operands, is the step of the reference reducer. -/

namespace Sys2Proof.Machine.F64

/-! Exact differences (R172, R173). -/

/-- Sterbenz's lemma on magnitudes: the difference stands on the finer grid of the two and is no larger than either. -/
theorem exists_bits_of_sub {m n : Nat} (hm : m < infBits) (hn : n < infBits) (hle : unitsOfBits n ≤ unitsOfBits m)
    (hdouble : unitsOfBits m ≤ 2 * unitsOfBits n) : ∃ c, c < infBits ∧ unitsOfBits c = unitsOfBits m - unitsOfBits n := by
  obtain ⟨k, e, hk, hkm, he, -⟩ := units_scaled m
  obtain ⟨l, g, hl, hln, hg, -⟩ := units_scaled n
  rw [hkm, hln] at hle hdouble ⊢
  unfold infBits at hm hn
  rcases Nat.le_total e g with heg | hge
  · obtain ⟨d, rfl⟩ := Nat.exists_eq_add_of_le heg
    rw [show l * 2 ^ (e + d) = l * 2 ^ d * 2 ^ e by ring, ← Nat.sub_mul]
    exact exists_bits (by omega) (by omega)
  · obtain ⟨d, rfl⟩ := Nat.exists_eq_add_of_le hge
    rw [show k * 2 ^ (g + d) = k * 2 ^ d * 2 ^ g by ring, ← Nat.mul_assoc, Nat.mul_le_mul_right_iff (by positivity)] at hdouble
    rw [show k * 2 ^ (g + d) = k * 2 ^ d * 2 ^ g by ring, ← Nat.sub_mul]
    exact exists_bits (by omega) (by omega)

theorem toInt_of_nonneg {a : Binary64} (h : 0 ≤ toInt a) : toInt a = units a := by
  unfold toInt at h ⊢
  split_ifs at h ⊢ <;> omega

/-- A difference from zero up and no larger than the subtrahend is exact. -/
theorem sub_exact {a b : Binary64} (ha : isFinite a = true) (hb : isFinite b = true) (hle : toInt b ≤ toInt a)
    (hdouble : toInt a ≤ 2 * toInt b) : isFinite (sub a b) = true ∧ toInt (sub a b) = toInt a - toInt b := by
  have hua : toInt a = units a := toInt_of_nonneg (by omega)
  have hub : toInt b = units b := toInt_of_nonneg (by omega)
  obtain ⟨c, hc, hcu⟩ := exists_bits_of_sub (magBits_of_isFinite ha) (magBits_of_isFinite hb)
    (show units b ≤ units a by omega) (show units a ≤ 2 * units b by omega)
  have hval : toInt a - toInt b = toInt (pack false c) := by
    rw [toInt_pack _ _ (lt_two_pow_63 hc.le), hcu, hua, hub]
    exact (Int.ofNat_sub (by omega)).symm
  rw [hval]
  exact add_exact ha (by rwa [isFinite_neg]) (isFinite_pack _ _ hc) ((toInt_sub a b).trans hval)

/-- A value between two finite values is finite. -/
theorem isFinite_of_le_of_lt {lo a hi : Binary64} (hlo : isFinite lo = true) (hhi : isFinite hi = true) (h1 : le lo a = true)
    (h2 : lt a hi = true) : isFinite a = true := by
  simp only [le, lt, Bool.and_eq_true, decide_eq_true_eq] at h1 h2
  have hl := magBits_of_isFinite hlo
  have hh := magBits_of_isFinite hhi
  rw [isFinite, decide_eq_true_iff]
  unfold key at h1 h2
  split_ifs at h1 h2 <;> omega

end Sys2Proof.Machine.F64

namespace Sys2Proof.Machine.Reference

open F64

/-! Values of operands, and floor-mod over the reals (R8, R142). -/

theorem value_le_iff (a b : Binary64) : value a ≤ value b ↔ toInt a ≤ toInt b := by
  rw [← not_lt, value_lt_iff, not_lt]

/-- Sterbenz's lemma on values. -/
theorem value_sub {a b : Binary64} (ha : isFinite a = true) (hb : isFinite b = true)
    (hle : value b ≤ value a) (hdouble : value a ≤ 2 * value b) :
    isFinite (F64.sub a b) = true ∧ value (F64.sub a b) = value a - value b := by
  have hdouble' : toInt a ≤ 2 * toInt b := by
    rw [value, value, ← mul_div_assoc, div_le_div_iff_of_pos_right (by positivity)] at hdouble
    exact_mod_cast hdouble
  obtain ⟨hfin, hval⟩ := sub_exact ha hb ((value_le_iff b a).1 hle) hdouble'
  exact ⟨hfin, by rw [value, hval, Int.cast_sub, sub_div]; rfl⟩

theorem value_of_sign_false {a : Binary64} (hs : sign a = false) : value a = units a / (2 * halfUnits) := by
  rw [value_eq, toInt, hs, if_neg Bool.false_ne_true, Int.cast_natCast]

theorem floormod4_add_four_mul {r : ℝ} (h0 : 0 ≤ r) (h4 : r < 4) (k : ℤ) : floormod4 (r + 4 * k) = r := by
  have hfloor : ⌊r / 4⌋ = 0 := Int.floor_eq_zero_iff.2 ⟨by positivity, by linarith⟩
  rw [floormod4, show (r + 4 * k) / 4 = r / 4 + k by ring, Int.floor_add_intCast, hfloor, zero_add,
    add_sub_cancel_right]

end Sys2Proof.Machine.Reference

namespace Sys2Proof.Machine

open F64

/-! The engine order's interval, and steps 2 and 3 (R175, R176). -/

/-- Settles O43: the reduced order lies in [0, 4), and each step narrows that interval; every test of a NaN fails. -/
theorem engineOrderLiesInItsInterval : Obligations.EngineOrderLiesInItsInterval := by
  unfold Obligations.EngineOrderLiesInItsInterval
  refine fun a => ⟨fun ha _ => ?_, reduceOrder_of_isNaN⟩
  obtain ⟨hf, -, hlo, hhi⟩ := floormod4_range ha
  obtain ⟨hae, hge, hle⟩ := reduceOrder_range hf hlo hhi
  exact ⟨(le_iff isFinite_half hae).2 (by rwa [toInt_half]), (le_iff hae isFinite_oneHalf).2 (by rwa [toInt_oneHalf])⟩

/-- Settles O44: step 2 leaves at least 0.5, or the infinity it was given. -/
theorem forwardAndInverseStepsExclude : Obligations.ForwardAndInverseStepsExclude := by
  unfold Obligations.ForwardAndInverseStepsExclude
  intro a ⟨hf, hi⟩
  have hnot := reduceOrder_not_both a
  rw [hf, hi] at hnot
  exact absurd hnot (by decide)

/-! Each step against the reference reducer's (R172 to R174, R177). -/

theorem reference_reduceParity {a : Binary64} (ha : isFinite a = true) (h4 : Reference.value a < 4) :
    isFinite (reduceParity a).1 = true ∧
      Reference.reduceParity (Reference.value a) = (Reference.value (reduceParity a).1, (reduceParity a).2) := by
  rw [reduceParity, Reference.reduceParity, Reference.lt_eq_decide isFinite_two ha, Reference.value_two]
  by_cases h : 2 < Reference.value a
  · have hsub := Reference.value_sub ha isFinite_two (by rw [Reference.value_two]; exact h.le) (by rw [Reference.value_two]; linarith)
    simp [h, hsub, Reference.value_two]
  · simp [h, ha]

theorem reference_reduceForward {a : Binary64} (ha : isFinite a = true) (h2 : Reference.value a ≤ 2) :
    isFinite (reduceForward a).1 = true ∧
      Reference.reduceForward (Reference.value a) = (Reference.value (reduceForward a).1, (reduceForward a).2) := by
  rw [reduceForward, Reference.reduceForward, Reference.lt_eq_decide isFinite_oneHalf ha, Reference.value_oneHalf]
  by_cases h : 3 / 2 < Reference.value a
  · have hsub := Reference.value_sub ha isFinite_one (by rw [Reference.value_one]; linarith) (by rw [Reference.value_one]; linarith)
    simp [h, hsub, Reference.value_one]
  · simp [h, ha]

theorem reference_reduceInverse_snd {a : Binary64} (ha : isFinite a = true) :
    (Reference.reduceInverse (Reference.value a)).2 = (reduceInverse a).2 := by
  rw [reduceInverse, Reference.reduceInverse, Reference.lt_eq_decide ha isFinite_half, Reference.value_half]
  by_cases h : Reference.value a < 1 / 2
  · rw [if_pos h, if_pos (decide_eq_true h)]
  · rw [if_neg h, if_neg (mt of_decide_eq_true h)]

theorem reduceInverse_fst (a : Binary64) : (reduceInverse a).1 = if (reduceInverse a).2 then F64.add a one else a := by
  rw [reduceInverse]
  split <;> rfl

/-- The order that steps 1 and 2 leave to step 3 (R171). -/
def orderBeforeInverse (ar : Binary64) : Binary64 := (reduceForward (reduceParity ar).1).1

theorem reduceOrder_ae (ar : Binary64) :
    (reduceOrder ar).ae =
      if (reduceOrder ar).i then F64.add (orderBeforeInverse ar) one else orderBeforeInverse ar := reduceInverse_fst _

section InRange

variable {ar : Binary64} (ha : isFinite ar = true) (h0 : 0 ≤ Reference.value ar) (h4 : Reference.value ar < 4)

include ha h0 h4

/-- Steps 1 and 2 are those of the reference reducer. -/
theorem reference_parity_forward :
    isFinite (orderBeforeInverse ar) = true ∧
      Reference.reduceParity (Reference.value ar) = (Reference.value (reduceParity ar).1, (reduceOrder ar).p) ∧
      Reference.reduceForward (Reference.value (reduceParity ar).1) =
        (Reference.value (orderBeforeInverse ar), (reduceOrder ar).f) := by
  obtain ⟨hfin1, hparity⟩ := reference_reduceParity ha h4
  have hle := (Reference.reduceParity_range h0 h4).2
  rw [hparity] at hle
  obtain ⟨hfin2, hforward⟩ := reference_reduceForward hfin1 hle
  exact ⟨hfin2, hparity, hforward⟩

/-- The reference reducer takes the reducer's steps, the last one on the exact value of the same order. -/
theorem reference_reduceOrder :
    Reference.reduceOrder (Reference.value ar) =
      ⟨(Reference.reduceInverse (Reference.value (orderBeforeInverse ar))).1, (reduceOrder ar).p, (reduceOrder ar).f,
        (reduceOrder ar).i⟩ := by
  obtain ⟨hfin, hparity, hforward⟩ := reference_parity_forward ha h0 h4
  simp only [Reference.reduceOrder, hparity, hforward, reference_reduceInverse_snd hfin]
  rfl

/-- R177 before step 3: the two subtractions are exact. -/
theorem value_orderBeforeInverse :
    Reference.value (orderBeforeInverse ar) =
      Reference.value ar - (if (reduceOrder ar).p then 2 else 0) - (if (reduceOrder ar).f then 1 else 0) := by
  obtain ⟨-, hparity, hforward⟩ := reference_parity_forward ha h0 h4
  have hp := Reference.reduceParity_fst (Reference.value ar)
  have hf := Reference.reduceForward_fst (Reference.value (reduceParity ar).1)
  rw [hparity] at hp
  rw [hforward] at hf
  exact hf.trans (congrArg (· - _) hp)

end InRange

/-! The dispatcher's exact parts (R142, R143). -/

theorem classify_eq_reference {ar : Binary64} (ha : isFinite ar = true) :
    classify ar = Reference.classify (Reference.value ar) := by
  simp only [classify, Reference.classify, Reference.eq_eq_decide ha isFinite_zero, Reference.eq_eq_decide ha isFinite_one,
    Reference.eq_eq_decide ha isFinite_two, Reference.eq_eq_decide ha isFinite_three, Reference.value_zero, Reference.value_one,
    Reference.value_two, Reference.value_three, decide_eq_true_eq]

/-- An order without a sign is its truncated remainder and a multiple of 4. -/
theorem exists_value_eq_fmod4_add {a : Binary64} (hs : sign a = false) :
    ∃ k : ℤ, Reference.value a = Reference.value (fmod4 a) + 4 * k := by
  refine ⟨(units a / (8 * halfUnits) : ℕ), ?_⟩
  have hdiv : (units a : ℝ) = (units a % (8 * halfUnits) : ℕ) + 8 * halfUnits * (units a / (8 * halfUnits) : ℕ) := by
    exact_mod_cast (Nat.mod_add_div (units a) (8 * halfUnits)).symm
  have hpos := Reference.twoHalfUnits_pos
  rw [Reference.value_of_sign_false hs, Reference.value_of_sign_false ((sign_fmod4 a).trans hs), units_fmod4, fourUnits_eq,
    Int.cast_natCast, div_add' _ _ _ hpos.ne']
  exact congrArg (· / _) (hdiv.trans (by ring))

theorem value_floormod4 {a : Binary64} (ha : isFinite a = true) (hs : sign a = false) :
    Reference.value (floormod4 a) = Reference.floormod4 (Reference.value a) := by
  obtain ⟨-, -, hlo, hhi⟩ := floormod4_range ha
  rw [floormod4_of_sign_false ha hs, ← toInt_zero, ← Reference.value_le_iff, Reference.value_zero] at hlo
  rw [floormod4_of_sign_false ha hs, ← toInt_four, ← Reference.value_lt_iff, Reference.value_four] at hhi
  obtain ⟨k, hk⟩ := exists_value_eq_fmod4_add hs
  rw [floormod4_of_sign_false ha hs, hk, Reference.floormod4_add_four_mul hlo hhi]

/-- Settles O45: Sterbenz's lemma for both subtractions, then the steps one by one; the remainder by 4 needs no rounding. -/
theorem reducerSubtractionsAreExact : Obligations.ReducerSubtractionsAreExact := by
  unfold Obligations.ReducerSubtractionsAreExact
  refine ⟨fun a ha => ⟨fun hgt hlt => ?_, fun hgt hlt => ?_⟩, fun ar h0 h4 => ?_, fun ar => classify_eq_reference,
    fun a => value_floormod4⟩
  · have hle := (lt_iff isFinite_two ha).1 hgt
    have hdouble := (lt_iff ha isFinite_four).1 hlt
    rw [reduceParity, if_pos hgt]
    exact (sub_exact ha isFinite_two hle.le (by rw [toInt_four] at hdouble; rw [toInt_two]; omega)).2
  · have hle := (lt_iff isFinite_oneHalf ha).1 hgt
    have hdouble := (lt_iff ha isFinite_two).1 hlt
    rw [reduceForward, if_pos hgt]
    rw [toInt_oneHalf] at hle
    rw [toInt_two] at hdouble
    exact (sub_exact ha isFinite_one (by rw [toInt_one]; omega) (by rw [toInt_one]; omega)).2
  · have ha := isFinite_of_le_of_lt isFinite_zero isFinite_four h0 h4
    have hlo : 0 ≤ Reference.value ar := by rwa [← Reference.value_zero, Reference.value_le_iff, ← le_iff isFinite_zero ha]
    have hhi : Reference.value ar < 4 := by rwa [← Reference.value_four, Reference.value_lt_iff, ← lt_iff ha isFinite_four]
    have href := reference_reduceOrder ha hlo hhi
    have hae := Reference.reduceOrder_ae (Reference.value ar)
    have hbefore := value_orderBeforeInverse ha hlo hhi
    refine ⟨by rw [href], by rw [href], by rw [href], by rwa [href] at hae ⊢, fun hi => ?_, fun hi => ?_⟩
    · rw [hae, href, reduceOrder_ae]
      simpa [hi] using hbefore
    · refine ⟨_, (reference_parity_forward ha hlo hhi).1, by rw [reduceOrder_ae, if_pos hi], ?_⟩
      have hf : (reduceOrder ar).f = false := Bool.eq_false_iff.2 fun hf => forwardAndInverseStepsExclude ar ⟨hf, hi⟩
      rw [hbefore, hf, if_neg Bool.false_ne_true, sub_zero]

end Sys2Proof.Machine
end

section
/-! PROOFS. The interpolator (R191 to R197): the window that INTERP keeps of the convolution, where the engine finds the stuffed samples in
the padded array (R212, R219, R224), and the upsampler's closed form at even and at odd indices. -/

namespace Sys2Proof.Machine

/-- The window keeps elements `2N-3` to `4N-5` of the response (R195, R196). -/
theorem elem_sincinterp (num : Numerics) {x : List Sample} {j : Nat} (h2 : 2 ≤ x.length) (hj : j < 2 * x.length - 1) :
    elem (sincinterp num x) j = num.conv (zeroStuff x) (sincKernel num x.length) (2 * x.length - 3 + j) := by
  have hlen : (convResponse num (zeroStuff x) (sincKernel num x.length)).length = 6 * x.length - 7 := by simp; omega
  rw [sincinterp, interpTruncate, elem_slice _ hj (by omega), elem_convResponse]
  rw [length_zeroStuff, length_sincKernel]
  omega

/-- Settles O30: past the length check INTERP is one successful completion, and its result is the window of the response. -/
theorem interpWritesUpsampledSignal : Obligations.InterpWritesUpsampledSignal := by
  unfold Obligations.InterpWritesUpsampledSignal
  refine ⟨fun s h2 hn => ?_, fun num x j h2 hj => elem_sincinterp num h2 hj⟩
  have hexec : exec .interp s = .next (finish (sincinterp Config.num (inputSignal s)) (useDraws (lengthOperand s) s)) :=
    congrArg Host.Outcome.next (dataCommand_normal h2 hn)
  have hfrom := completesFrom_of_exec hexec
  have hsignal : (inputSignal s).length = lengthOperand s := length_xSamples _ _ _
  have hlen : (sincinterp Config.num (inputSignal s)).length = 2 * lengthOperand s - 1 := by
    rw [length_sincinterp (by omega), hsignal]
  have hfits := le_ycap (Nat.sub_le (2 * lengthOperand s) 1) hn
  exact ⟨_, hexec, yHolds_finish _ _, hlen, (outlen_finish _ (hlen ▸ hfits)).trans hlen, rfl, hfrom.idle, hfrom.sameHostSide,
    rfl, rfl, rfl⟩

/-- The padded array holds the stuffed signal from index `N-1` on (R193, R212). -/
theorem elem_padSymmetric_zeroStuff {f : List Sample} (h2 : 2 ≤ f.length) (j : Nat) :
    elem (padSymmetric f.length (zeroStuff f)) j =
      if f.length - 1 ≤ j ∧ j < 3 * f.length - 2 ∧ (j - (f.length - 1)) % 2 = 0 then elem f ((j - (f.length - 1)) / 2)
      else Sample.zero := by
  rw [elem_padSymmetric h2 (length_zeroStuff f)]
  by_cases hwin : f.length - 1 ≤ j ∧ j < 3 * f.length - 2
  · rw [if_pos hwin, elem_zeroStuff f (by omega)]
    simp only [hwin, true_and]
  · rw [if_neg hwin, if_neg fun ⟨hlo, hhi, _⟩ => hwin ⟨hlo, hhi⟩]

/-- Settles O49: an index that holds a sample has the form `N-1+2n`. -/
theorem downsamplingMeetsTheStuffedSamples : Obligations.DownsamplingMeetsTheStuffedSamples := by
  unfold Obligations.DownsamplingMeetsTheStuffedSamples
  refine fun f h2 => ⟨ext_elem (length_strided _ _ _) fun n hn => ?_, fun j _ hout => ?_⟩
  · rw [length_strided] at hn
    rw [elem_strided _ _ hn, elem_padSymmetric_zeroStuff h2, if_pos (by omega), Nat.add_sub_cancel_left,
      Nat.mul_div_cancel_left n Nat.two_pos]
  · have hne := hout ((j - (f.length - 1)) / 2)
    rw [elem_padSymmetric_zeroStuff h2, if_neg (by omega)]

end Sys2Proof.Machine

namespace Sys2Proof.Machine.Reference

/-- Half-way between two integers the sine of sinc is 1 or -1. -/
theorem sinc_intCast_add_half (z : ℤ) : sinc (z + 1 / 2) = 2 / Real.pi * (-1) ^ z / (2 * z + 1) := by
  have hodd : (2 * z + 1 : ℝ) ≠ 0 := by exact_mod_cast (by omega : 2 * z + 1 ≠ 0)
  have hne : (z + 1 / 2 : ℝ) ≠ 0 := fun h => hodd (by linarith)
  have hsin : Real.sin (Real.pi * (z + 1 / 2)) = (-1) ^ z := by
    rw [← Real.cos_int_mul_pi, ← Real.sin_add_pi_div_two]
    ring_nf
  rw [sinc, if_neg hne, hsin]
  field_simp

/-- At an even index one sample is left: sinc vanishes at the nonzero integers (R191). -/
theorem interpValue_even {n m : ℕ} (x : ℕ → ℂ) (hm : m < n) : interpValue n x (2 * m) = x m := by
  have hterm (k : ℕ) : ((2 * m : ℕ) : ℝ) / 2 - k = ((m - k : ℤ) : ℝ) := by push_cast; ring
  rw [interpValue, Finset.sum_eq_single_of_mem m (Finset.mem_range.2 hm) fun k _ hk => ?_]
  · simp [sinc]
  · rw [hterm, sinc_intCast (by omega), Complex.ofReal_zero, mul_zero]

/-- At an odd index every sample lies half-way between two integers (R191). -/
theorem interpValue_odd (n m : ℕ) (x : ℕ → ℂ) :
    interpValue n x (2 * m + 1) = ∑ k ∈ Finset.range n,
      x k * (2 / (Real.pi : ℂ)) * (-1) ^ ((m : ℤ) - (k : ℤ)) / (2 * ((m : ℂ) - (k : ℂ)) + 1) := by
  refine Finset.sum_congr rfl fun k _ => ?_
  have hterm : ((2 * m + 1 : ℕ) : ℝ) / 2 - k = ((m - k : ℤ) : ℝ) + 1 / 2 := by push_cast; ring
  rw [hterm, sinc_intCast_add_half]
  push_cast
  ring

end Sys2Proof.Machine.Reference

namespace Sys2Proof.Machine

open Reference in
/-- Settles O57: the closed form, of which an even index leaves one term. -/
theorem referenceUpsamplerClosedForm : Obligations.ReferenceUpsamplerClosedForm := by
  unfold Obligations.ReferenceUpsamplerClosedForm
  intro n x i hn hi
  have hclosed := interp_eq_interpValue x hn hi
  refine ⟨hclosed, ?_, ?_⟩
  · rintro m rfl
    exact hclosed.trans (interpValue_even x (by omega))
  · rintro m rfl
    exact hclosed.trans (interpValue_odd n m x)

end Sys2Proof.Machine
end

section
/-! PROOFS. The chirp engine (R210 to R222): its sequences element by element, the ENGINE command, and where the engine's guard ends a
transform (R223). -/

namespace Sys2Proof.Machine

open F64

/-! The engine's sequences, element by element. -/

/-- Sample `j` of chirp 1, centred at index `2N-2` (R213). -/
def chirp1At (num : Numerics) (n : Nat) (tana2 : Binary64) (j : Nat) : Sample :=
  num.cis (F64.neg (F64.mul (betaOf num n tana2) (F64.ofInt (((j : Int) - (2 * (n : Int) - 2)) ^ 2))))

/-- Sample `m` of chirp 2, centred at index `4N-4` (R215). -/
def chirp2At (num : Numerics) (n : Nat) (sina : Binary64) (m : Nat) : Sample :=
  num.cis (F64.mul (chirpRate num n sina) (F64.ofInt (((m : Int) - (4 * (n : Int) - 4)) ^ 2)))

/-- The real factor of the convolution's window (R217). -/
def windowGain (num : Numerics) (c : Binary64) : Binary64 := num.sqrt (F64.div c num.pi)

/-- The normaliser's phase factor (R220). -/
def globalPhase (num : Numerics) (a : Binary64) : Sample :=
  num.cis (F64.neg (F64.div (F64.mul (F64.sub one a) num.pi) four))

theorem makeChirp1_eq_map (num : Numerics) (n : Nat) (tana2 : Binary64) :
    makeChirp1 num n tana2 = (List.range (4 * n - 3)).map (chirp1At num n tana2) := by
  simp only [makeChirp1, ← sq]
  rfl

theorem makeChirp2_eq_map (num : Numerics) (n : Nat) (sina : Binary64) :
    makeChirp2 num n sina = (List.range (8 * n - 7)).map (chirp2At num n sina) := by
  simp only [makeChirp2, ← sq]
  rfl

theorem elem_makeChirp1 (num : Numerics) {n j : Nat} (tana2 : Binary64) (hj : j < 4 * n - 3) :
    elem (makeChirp1 num n tana2) j = chirp1At num n tana2 j := by
  rw [makeChirp1_eq_map, elem_map_range _ hj]

theorem elem_windowScale (num : Numerics) {n j : Nat} (c : Binary64) {w : List Sample} (hj : j < 4 * n - 3)
    (hw : 8 * n - 7 ≤ w.length) :
    elem (windowScale num n c w) j = rscale (windowGain num c) (elem w (4 * n - 4 + j)) := by
  rw [windowScale, elem_map _ _ (by rw [length_slice]; omega), elem_slice _ hj (by omega)]
  rfl

theorem elem_normalise (num : Numerics) (a : Binary64) {d : List Sample} {j : Nat} (hj : j < d.length) :
    elem (normalise num a d) j = cmul (globalPhase num a) (elem d j) := elem_map _ _ hj

/-- Sample `i` of the result is taken at index `n-1+2i` of the postmultiplied window (R218, R219). -/
theorem elem_chirpFinish (num : Numerics) {n i : Nat} (a : Binary64) {chirp1 w : List Sample} (hi : i < n)
    (hchirp : chirp1.length = 4 * n - 3) (hw : 8 * n - 7 ≤ w.length) :
    elem (chirpFinish num n a chirp1 w) i =
      cmul (globalPhase num a) (cmul (elem chirp1 (n - 1 + 2 * i))
        (rscale (windowGain num (chirpRate num n (sinaOf num a))) (elem w (4 * n - 4 + (n - 1 + 2 * i))))) := by
  have hwindow : (windowScale num n (chirpRate num n (sinaOf num a)) w).length = 4 * n - 3 := by
    rw [windowScale, List.length_map, length_slice]
    omega
  rw [chirpFinish, elem_normalise num a (by rwa [length_strided]), elem_strided _ _ hi,
    elem_hadamard (by omega) (by omega), elem_windowScale num _ (by omega) hw]

/-- The pointwise product of two sequences of one length (R7). -/
theorem hadamard_eq_map {x y : List Sample} {n : Nat} (hx : x.length = n) (hy : y.length = n) :
    hadamard x y = (List.range n).map fun j => cmul (elem x j) (elem y j) := by
  refine ext_elem (by simp [hx, hy]) fun j hj => ?_
  rw [length_hadamard, hx, hy, Nat.min_self] at hj
  rw [elem_hadamard (by omega) (by omega), elem_map_range _ hj]

/-- The first operand of the chirp convolution: chirp 1 times the padded upsampled signal (R212, R214). -/
theorem premultiply_chirp1_eq_map (num : Numerics) {n : Nat} (tana2 : Binary64) {u : List Sample} (h2 : 2 ≤ n)
    (hu : u.length = 2 * n - 1) :
    premultiply (makeChirp1 num n tana2) (padSymmetric n u) = (List.range (4 * n - 3)).map fun j =>
      cmul (chirp1At num n tana2 j) (if n - 1 ≤ j ∧ j < 3 * n - 2 then elem u (j - (n - 1)) else Sample.zero) := by
  rw [premultiply, hadamard_eq_map (length_makeChirp1 ..) (length_padSymmetric h2 hu)]
  refine List.map_congr_left fun j hj => ?_
  rw [elem_makeChirp1 num _ (List.mem_range.1 hj), elem_padSymmetric h2 hu]

/-- The engine's result, sample by sample, from the response to its chirp convolution (R210, R216). -/
theorem elem_engineBody (num : Numerics) {f : List Sample} (a : Binary64) {i : Nat} (h2 : 2 ≤ f.length) (hi : i < f.length) :
    elem (engineBody num f a) i =
      cmul (globalPhase num a) (cmul (chirp1At num f.length (tana2Of num a) (f.length - 1 + 2 * i))
        (rscale (windowGain num (chirpRate num f.length (sinaOf num a)))
          (num.conv (premultiply (makeChirp1 num f.length (tana2Of num a)) (padSymmetric f.length (sincinterp num f)))
            (makeChirp2 num f.length (sinaOf num a)) (4 * f.length - 4 + (f.length - 1 + 2 * i))))) := by
  have hpad := length_padSymmetric h2 (length_sincinterp (num := num) h2)
  rw [engineBody, elem_chirpFinish num a hi (length_makeChirp1 ..) (by simp [hpad]; omega),
    elem_makeChirp1 num _ (by omega), elem_convResponse _ _ _ (by simp [hpad]; omega)]

/-! ENGINE (R222). -/

/-- Past the length check ENGINE runs the engine at ORDER and writes no result register. -/
theorem exec_engine_normal {s : State} (h2 : 2 ≤ lengthOperand s) (hn : lengthOperand s ≤ Config.nmax) :
    exec .engine s =
      .next (complete (engineRun Config.num (inputSignal s) s.snap.a0) (useDraws (lengthOperand s) s)) :=
  congrArg Host.Outcome.next (dataCommand_normal h2 hn)

/-- Settles O31: the guard decides between the two completions, and the engine's sequences are the statement's. -/
theorem engineRunsAtOrderItself : Obligations.EngineRunsAtOrderItself := by
  unfold Obligations.EngineRunsAtOrderItself
  refine ⟨fun s h2 hn => ?_, fun num f a h2 => ⟨length_engineBody num f a, fun i hi => ?_⟩⟩
  · have hexec := exec_engine_normal h2 hn
    have hfrom := completesFrom_of_exec hexec
    obtain ⟨hred, heng, hpath⟩ := sameOrderRegs_complete (engineRun Config.num (inputSignal s) s.snap.a0)
      (useDraws (lengthOperand s) s)
    refine ⟨_, hexec, hfrom.idle, hfrom.sameHostSide, hred, heng, hpath, ?_⟩
    split
    case isTrue hguard =>
      have hok : engineRun Config.num (inputSignal s) s.snap.a0 = .ok _ := if_pos ((guardPasses_iff _ _).2 hguard)
      have hlen : (engineBody Config.num (inputSignal s) s.snap.a0).length = lengthOperand s :=
        (length_engineBody ..).trans (length_xSamples ..)
      have hfits := le_ycap (Nat.le_mul_of_pos_left (lengthOperand s) Nat.two_pos) hn
      rw [hok]
      exact ⟨yHolds_finish _ _, (outlen_finish _ (hlen ▸ hfits)).trans hlen, rfl⟩
    case isFalse hguard =>
      have herror : engineRun Config.num (inputSignal s) s.snap.a0 = .error _ := if_neg (mt (guardPasses_iff _ _).1 hguard)
      rw [herror]
      exact ⟨rfl, rfl, rfl⟩
  · rw [elem_engineBody num a h2 hi, premultiply_chirp1_eq_map num _ h2 (length_sincinterp h2), makeChirp2_eq_map]
    rfl

/-! Where the engine's guard ends a transform (R223). -/

theorem guardPasses_of_inEngineRange {num : Numerics} {a : Binary64} (h : inEngineRange a = true) :
    guardPasses num a = !F64.eq (num.sin (F64.div (F64.mul a num.pi) two)) zero := by
  rw [guardPasses, h, Bool.true_and]
  rfl

/-- A finite GENERAL order reaches the engine inside its interval, so its guard can fail at a zero of NUM.sin only; an order that is not
finite fails the interval test (R175, R211). -/
theorem dispatchOrder_guard_fails_iff (num : Numerics) (a : Binary64) :
    ((dispatchOrder a).cls = .general ∧ guardPasses num (dispatchOrder a).ae = false) ↔
      (F64.isFinite a = false ∨ (classify (floormod4 a) = .general ∧
        F64.eq (num.sin (F64.div (F64.mul (reduceOrder (floormod4 a)).ae num.pi) two)) zero = true)) := by
  cases hf : F64.isFinite a
  case false =>
    refine iff_of_true ⟨?_, guardPasses_of_out_of_range (inEngineRange_nonfinite hf)⟩ (.inl rfl)
    rw [dispatchOrder_nonfinite hf]
  case true =>
    rw [dispatchOrder_cls, or_iff_right Bool.noConfusion]
    refine and_congr_right fun hc => ?_
    have hrange := inEngineRange_dispatch hf ((dispatchOrder_cls a).trans hc)
    rw [guardPasses_of_inEngineRange hrange, dispatchOrder_general hc, Bool.not_eq_false']

/-- A transform past the length check knows no other error (R241, R267). -/
theorem transformAt_errcode_cases {a : Binary64} {s : State} (h2 : 2 ≤ lengthOperand s) (hn : lengthOperand s ≤ Config.nmax) :
    (transformAt a s).errcode = .degenerateOrder ∨ (transformAt a s).errcode = .none := by
  rcases transformResult_cases Config.num (dispatchOrder a) (inputSignal s) with ⟨-, hr⟩ | ⟨-, r, hr⟩
  · obtain ⟨-, -, herr⟩ := transformAt_of_error h2 hn hr
    exact .inl herr
  · obtain ⟨-, -, -, herr⟩ := transformAt_of_ok h2 hn hr
    exact .inr herr

/-- Settles O34: DEGENERATE_ORDER is the guard's alone, at the engine order that the dispatch leaves. -/
theorem transformFailsExactlyWhenDegenerate : Obligations.TransformFailsExactlyWhenDegenerate := by
  unfold Obligations.TransformFailsExactlyWhenDegenerate
  intro i s a hi h2 hn
  exact ⟨_, exec_of_transformOrder hi, (transformAt_degenerate_iff h2 hn).trans (dispatchOrder_guard_fails_iff Config.num a),
    (transformAt_errcode_cases h2 hn).resolve_left⟩

end Sys2Proof.Machine
end

section
/-! PROOFS. What FRFT and IFRFT depend on (R153, R244, R245): a data command's result is a function of its operands, so two runs compare by
their results, and two dispatches by their records. -/

namespace Sys2Proof.Machine

open F64

/-! Identity and parity (R153, R245). -/

/-- Settles O37: ten closed evaluations. -/
theorem namedOrdersReduceExactly : Obligations.NamedOrdersReduceExactly := by
  unfold Obligations.NamedOrdersReduceExactly
  simp only [List.forall_mem_cons, List.not_mem_nil, false_implies, implies_true, and_true]
  refine ⟨⟨?_, ?_, ?_, ?_, ?_, ?_, ?_⟩, ?_, ?_, ?_⟩ <;> decide +kernel

/-- Settles O36: both classes copy the working copy, which is XBUF. -/
theorem identityAndParityAreExact : Obligations.IdentityAndParityAreExact := by
  unfold Obligations.IdentityAndParityAreExact
  intro s f h2 hn hf hx
  have hsignal : inputSignal s = f := workingCopyIsXbuf s f hf hx
  have hspecial := transformAtIntegerOrder .frft s s.snap.a0 (.inl ⟨rfl, rfl⟩) (hf ▸ h2) (hf ▸ hn)
  refine ⟨fun h0 => ?_, fun htwo => ?_⟩
  · obtain ⟨t, ht, hy, -⟩ := hspecial .identity f (.inl ⟨by rw [h0]; decide, rfl, hsignal.symm⟩)
    exact ⟨t, ht, fun e he => (hy e he).trans (hx e he).symm⟩
  · obtain ⟨t, ht, hy, -⟩ := hspecial .parity f.reverse (.inr (.inl ⟨by rw [htwo]; decide, rfl, by rw [hsignal]⟩))
    refine ⟨t, ht, fun e he => ?_⟩
    rw [hy e (by rwa [List.length_reverse]), elem_reverse f he, hx _ (by omega)]

/-! The result of a data command as a function of its signal (R123, R129). -/

/-- What a data command ends with on the working copy `f`, where `result` is its pipeline past the length check. -/
def dataResult (result : List Sample → Except ErrCode (List Sample)) (f : List Sample) : Except ErrCode (List Sample) :=
  match lengthCase f.length with
  | .empty => .error .emptySignal
  | .tooLong => .error .lengthRange
  | .short => .ok f
  | .normal => result f

/-- `t` completes with `r` a command that runs in `s`, and the buffers were those of `s` until then. -/
def EndsWith (r : Except ErrCode (List Sample)) (s t : State) : Prop := ∃ u, t = complete r u ∧ u.mem = s.mem

theorem endsWith_dataCommand {short : State → State} {body : List Sample → State → State}
    {result : List Sample → Except ErrCode (List Sample)} {s : State}
    (hshort : ∃ p, short s = finishShort { s with path := p }) (hbody : ∀ f u, EndsWith (result f) u (body f u)) :
    EndsWith (dataResult result (inputSignal s)) s (dataCommand short body s) := by
  have hlen : (inputSignal s).length = lengthOperand s := length_xSamples ..
  rw [dataResult, hlen]
  rcases lengthCase_cases (lengthOperand s) with ⟨-, e⟩ | ⟨-, e⟩ | ⟨h1, e⟩ | ⟨-, -, e⟩ <;> rw [dataCommand, e]
  · exact ⟨s, rfl, rfl⟩
  · exact ⟨s, rfl, rfl⟩
  · obtain ⟨p, hp⟩ := hshort
    refine ⟨useDraws 1 { s with path := p }, ?_, rfl⟩
    rw [inputSignal, h1]
    exact hp
  · exact hbody _ _

theorem endsWith_transformAt (a : Binary64) (s : State) :
    EndsWith (dataResult (transformResult Config.num (dispatchOrder a)) (inputSignal s)) s (transformAt a s) :=
  endsWith_dataCommand ⟨.short, rfl⟩ fun _ u => ⟨writeOrder (dispatchOrder a) u, rfl, rfl⟩

/-- R245 item 6: past its length check a data command computes a function of ORDER and the signal. -/
theorem exists_result_of_exec {i : Instr} (hi : i = .frft ∨ i = .ifrft ∨ i = .interp ∨ i = .engine) :
    ∃ result : Binary64 → List Sample → Except ErrCode (List Sample), ∀ s : State,
      ∃ t, exec i s = .next t ∧ EndsWith (dataResult (result s.snap.a0) (inputSignal s)) s t := by
  rcases hi with rfl | rfl | rfl | rfl
  · exact ⟨fun a => transformResult Config.num (dispatchOrder a), fun s => ⟨_, rfl, endsWith_transformAt _ s⟩⟩
  · exact ⟨fun a => transformResult Config.num (dispatchOrder (F64.neg a)), fun s => ⟨_, rfl, endsWith_transformAt _ s⟩⟩
  · exact ⟨fun _ f => .ok (sincinterp Config.num f), fun s =>
      ⟨_, rfl, endsWith_dataCommand ⟨s.path, rfl⟩ fun _ u => ⟨u, rfl, rfl⟩⟩⟩
  · exact ⟨fun a f => engineRun Config.num f a, fun s =>
      ⟨_, rfl, endsWith_dataCommand ⟨s.path, rfl⟩ fun _ u => ⟨u, rfl, rfl⟩⟩⟩

/-- Where the signal is read it is the written one; where N exceeds NMAX it is not read. -/
theorem dataResult_inputSignal (result : List Sample → Except ErrCode (List Sample)) {s : State} {f : List Sample}
    (hf : f.length = lengthOperand s) (hx : lengthOperand s ≤ Config.nmax → xHolds s.mem f) :
    dataResult result (inputSignal s) = dataResult result f := by
  rcases Nat.lt_or_ge Config.nmax (lengthOperand s) with hlong | hn
  · have hlen : (inputSignal s).length = lengthOperand s := length_xSamples ..
    rw [dataResult, dataResult, hlen, hf, lengthCase_tooLong hlong]
  · rw [workingCopyIsXbuf s f hf (hx hn)]

/-! Two runs that end with one result, or with results of one length (R126, R127). -/

section TwoRuns

variable {r r' : Except ErrCode (List Sample)} {s s' t t' : State}

/-- One result in the same buffers leaves the same buffers. -/
theorem EndsWith.mem_eq (h : EndsWith r s t) (h' : EndsWith r s' t') (hm : s.mem = s'.mem) : t.mem = t'.mem := by
  obtain ⟨u, rfl, hu⟩ := h
  obtain ⟨u', rfl, hu'⟩ := h'
  have huu : u.mem = u'.mem := hu.trans (hm.trans hu'.symm)
  cases r with
  | ok z => exact congrArg (Memory.writeSamples · (yAddr 0) z) huu
  | error c => exact huu

/-- OUTLEN and ERRCODE tell only the code or the length of a result. -/
theorem EndsWith.outcome_eq (h : EndsWith r s t) (h' : EndsWith r' s' t') (hr : r.map List.length = r'.map List.length) :
    t.outlen = t'.outlen ∧ t.errcode = t'.errcode := by
  obtain ⟨u, rfl, -⟩ := h
  obtain ⟨u', rfl, -⟩ := h'
  cases r <;> cases r' <;> simp only [Except.map, Except.error.injEq, Except.ok.injEq, reduceCtorEq] at hr
  case error.error => exact ⟨rfl, hr⟩
  case ok.ok => exact ⟨congrArg (BitVec.ofNat 32) hr, rfl⟩

/-- YBUF entries `0 .. OUTLEN-1` are the result, whatever the buffers held before. -/
theorem EndsWith.visibleOutput_eq (h : EndsWith r s t) (h' : EndsWith r s' t') : visibleOutput t = visibleOutput t' := by
  obtain ⟨u, rfl, -⟩ := h
  obtain ⟨u', rfl, -⟩ := h'
  cases r with
  | ok z =>
    refine List.map_congr_left fun e he => ?_
    have hz : e < z.length := (List.mem_range.1 he).trans_le (Nat.mod_le _ _)
    exact (yHolds_finish z u e hz).trans (yHolds_finish z u' e hz).symm
  | error c => rfl

end TwoRuns

/-- Signals of one length lead to results of one length where the pipeline's do. -/
theorem map_length_dataResult {result : List Sample → Except ErrCode (List Sample)} {f f' : List Sample}
    (hl : f.length = f'.length) (hr : (result f).map List.length = (result f').map List.length) :
    (dataResult result f).map List.length = (dataResult result f').map List.length := by
  rw [dataResult, dataResult, hl]
  cases lengthCase f'.length
  case empty => rfl
  case tooLong => rfl
  case short => exact congrArg Except.ok hl
  case normal => exact hr

/-- Whether a transform fails does not depend on its signal (R223), and its result is as long as its signal (R240). -/
theorem map_length_transformResult (num : Numerics) (o : OrderRecord) {f f' : List Sample} (hl : f.length = f'.length) :
    (transformResult num o f).map List.length = (transformResult num o f').map List.length := by
  rcases transformResult_cases num o f with ⟨hfail, hr⟩ | ⟨hpass, r, hr⟩ <;>
    rcases transformResult_cases num o f' with ⟨hfail', hr'⟩ | ⟨hpass', r', hr'⟩
  · rw [hr, hr']
  · exact absurd hfail hpass'
  · exact absurd hfail' hpass
  · have hlen : r.length = r'.length := (length_transformResult hr).trans (hl.trans (length_transformResult hr').symm)
    rw [hr, hr']
    exact congrArg Except.ok hlen

/-- Settles O40: one result from the operands, the dispatch from ORDER alone. -/
theorem outputDependsOnOperandsOnly : Obligations.OutputDependsOnOperandsOnly := by
  unfold Obligations.OutputDependsOnOperandsOnly
  intro i s s' f hi hsnap hf hx hx'
  have hlen : lengthOperand s = lengthOperand s' := congrArg (fun p : Snapshot => p.n.toNat) hsnap
  obtain ⟨result, hresult⟩ := exists_result_of_exec hi
  obtain ⟨t, ht, hends⟩ := hresult s
  obtain ⟨t', ht', hends'⟩ := hresult s'
  rw [← hsnap] at hends'
  rw [dataResult_inputSignal _ hf fun _ => hx] at hends
  rw [dataResult_inputSignal _ (hf.trans hlen) fun _ => hx'] at hends'
  obtain ⟨hout, herr⟩ := hends.outcome_eq hends' rfl
  refine ⟨t, t', ht, ht', hends.visibleOutput_eq hends', hout, herr, fun htransform h2 hn => ?_⟩
  obtain ⟨a, ha⟩ : ∃ a, TransformOrder i s a := htransform.elim (fun h => ⟨_, .inl ⟨h, rfl⟩⟩) fun h => ⟨_, .inr ⟨h, rfl⟩⟩
  have ha' : TransformOrder i s' a := by rwa [TransformOrder, ← hsnap]
  obtain rfl : transformAt a s = t := Host.Outcome.next.inj ((exec_of_transformOrder ha).symm.trans ht)
  obtain rfl : transformAt a s' = t' := Host.Outcome.next.inj ((exec_of_transformOrder ha').symm.trans ht')
  obtain ⟨hred, heng, hpath⟩ := transformAt_registers (a := a) h2 hn
  obtain ⟨hred', heng', hpath'⟩ := transformAt_registers (a := a) (hlen ▸ h2) (hlen ▸ hn)
  exact ⟨hred.trans hred'.symm, heng.trans heng'.symm, hpath.trans hpath'.symm⟩

/-! Two transforms on one length (R244, R245). -/

section TwoTransforms

variable {a b : Binary64} {s s' : State} (hn : lengthOperand s = lengthOperand s')

include hn

/-- Dispatches with one PATH leave one PATH. ORDER_RED and ORDER_ENG stay as they were, or are those of each run's dispatch (R129,
R150). -/
theorem transformAt_orderRegs (hs : SameOrderRegs s s')
    (hp : (writeOrder (dispatchOrder a) s).path = (writeOrder (dispatchOrder b) s').path) :
    (transformAt a s).path = (transformAt b s').path ∧
      (((transformAt a s).orderRed = (transformAt b s').orderRed ∧ (transformAt a s).orderEng = (transformAt b s').orderEng) ∨
        ((transformAt a s).orderRed = floormod4 a ∧ (transformAt b s').orderRed = floormod4 b ∧
          (transformAt a s).orderEng = (dispatchOrder a).ae ∧ (transformAt b s').orderEng = (dispatchOrder b).ae)) := by
  obtain ⟨hr, hg, hpath⟩ := hs
  rcases lengthCase_cases (lengthOperand s) with ⟨-, e⟩ | ⟨-, e⟩ | ⟨-, e⟩ | ⟨h2, hmax, -⟩
  case inr.inr.inr =>
    obtain ⟨hred, heng, hpath⟩ := transformAt_registers (a := a) h2 hmax
    obtain ⟨hred', heng', hpath'⟩ := transformAt_registers (a := b) (hn ▸ h2) (hn ▸ hmax)
    exact ⟨hpath.trans (hp.trans hpath'.symm), .inr ⟨hred, hred', heng, heng'⟩⟩
  all_goals rw [transformAt, transformAt, dataCommand, dataCommand, ← hn, e]
  · exact ⟨hpath.symm, .inl ⟨hr.symm, hg.symm⟩⟩
  · exact ⟨hpath.symm, .inl ⟨hr.symm, hg.symm⟩⟩
  · exact ⟨rfl, .inl ⟨hr.symm, hg.symm⟩⟩

section OneResult

variable (hresult : transformResult Config.num (dispatchOrder a) = transformResult Config.num (dispatchOrder b))

include hresult

theorem transformAt_outcome_eq :
    (transformAt a s).outlen = (transformAt b s').outlen ∧ (transformAt a s).errcode = (transformAt b s').errcode := by
  have hlen : (inputSignal s).length = (inputSignal s').length :=
    (length_xSamples ..).trans (hn.trans (length_xSamples ..).symm)
  have h := endsWith_transformAt a s
  rw [hresult] at h
  exact h.outcome_eq (endsWith_transformAt b s') (map_length_dataResult hlen (map_length_transformResult _ _ hlen))

theorem transformAt_mem_eq (hm : s.mem = s'.mem) {f : List Sample} (hf : f.length = lengthOperand s)
    (hx : lengthOperand s ≤ Config.nmax → xHolds s.mem f) : (transformAt a s).mem = (transformAt b s').mem := by
  have h := endsWith_transformAt a s
  have h' := endsWith_transformAt b s'
  rw [dataResult_inputSignal _ hf hx] at h
  rw [dataResult_inputSignal _ (hf.trans hn) (hn ▸ hm ▸ hx), ← hresult] at h'
  exact h.mem_eq h' hm

end OneResult

/-- One dispatch leaves the same result registers in two states that agree on them. -/
theorem resultRegs_transformAt_eq (ho : dispatchOrder a = dispatchOrder b) (hs : SameOrderRegs s s') :
    resultRegs (transformAt a s) = resultRegs (transformAt b s') := by
  obtain ⟨hout, herr⟩ := transformAt_outcome_eq hn (congrArg _ ho)
  obtain ⟨hpath, hregs⟩ := transformAt_orderRegs hn hs (a := a) (b := b) (by rw [ho]; rfl)
  obtain ⟨hred, heng⟩ : (transformAt a s).orderRed = (transformAt b s').orderRed ∧
      (transformAt a s).orderEng = (transformAt b s').orderEng := by
    rcases hregs with hkept | ⟨hred, hred', heng, heng'⟩
    · exact hkept
    · rw [hred, hred', heng, heng', ← dispatchOrder_ar a, ← dispatchOrder_ar b, ho]
      exact ⟨rfl, rfl⟩
  rw [resultRegs, resultRegs, hred, heng, hpath, hout, herr]

end TwoTransforms

/-- Settles O38: both commands run the transform at the negated order, and only the draws can tell their signals apart. -/
theorem inverseIsForwardAtNegatedOrder : Obligations.InverseIsForwardAtNegatedOrder := by
  unfold Obligations.InverseIsForwardAtNegatedOrder
  rintro s _ d rfl
  exact ⟨_, _, rfl, rfl, resultRegs_transformAt_eq rfl rfl ⟨rfl, rfl, rfl⟩, fun f hf hx => transformAt_mem_eq rfl rfl rfl hf hx⟩

/-! Orders with a NaN reduced order (R155, R223). -/

theorem dispatchOrder_of_isNaN_floormod4 {a : Binary64} (h : isNaN (floormod4 a) = true) :
    dispatchOrder a = ⟨floormod4 a, floormod4 a, .general, false, false, false⟩ := by
  rw [dispatchOrder_general (classify_of_isNaN h), reduceOrder_of_isNaN h]

/-- The engine's interval test rejects a NaN before the signal matters (R211). -/
theorem transformResult_of_isNaN_floormod4 {a : Binary64} (num : Numerics) (h : isNaN (floormod4 a) = true) :
    transformResult num (dispatchOrder a) = fun _ => .error .degenerateOrder := by
  have hrange : inEngineRange (floormod4 a) = false := by rw [inEngineRange, le_of_isNaN_right h, Bool.false_and]
  rw [dispatchOrder_of_isNaN_floormod4 h]
  funext f
  rw [transformResult, engineRun, guardPasses_of_out_of_range hrange, if_neg Bool.false_ne_true]

/-- Settles O39: equal reduced orders have one dispatch; NaN ones have dispatches that differ in the NaN alone. -/
theorem equalReducedOrdersGiveEqualResults : Obligations.EqualReducedOrdersGiveEqualResults := by
  unfold Obligations.EqualReducedOrdersGiveEqualResults
  intro s s' b d hs'
  obtain ⟨hb, hn, hm, hs⟩ : s'.snap.a0 = b ∧ lengthOperand s = lengthOperand s' ∧ s.mem = s'.mem ∧ SameOrderRegs s s' := by
    subst hs'
    exact ⟨rfl, rfl, rfl, rfl, rfl, rfl⟩
  clear hs'
  subst hb
  refine ⟨fun heq => ?_, fun hnan hnan' => ?_⟩
  · have ho : dispatchOrder s.snap.a0 = dispatchOrder s'.snap.a0 := by rw [dispatchOrder, heq, ← dispatchOrder]
    exact ⟨_, _, rfl, rfl, resultRegs_transformAt_eq hn ho hs,
      fun f hf hx => transformAt_mem_eq hn (congrArg _ ho) hm hf hx⟩
  · have ho := dispatchOrder_of_isNaN_floormod4 hnan
    have ho' := dispatchOrder_of_isNaN_floormod4 hnan'
    have hresult := (transformResult_of_isNaN_floormod4 Config.num hnan).trans
      (transformResult_of_isNaN_floormod4 Config.num hnan').symm
    obtain ⟨hout, herr⟩ := transformAt_outcome_eq hn hresult
    obtain ⟨hpath, hregs⟩ := transformAt_orderRegs hn hs (a := s.snap.a0) (b := s'.snap.a0) (by rw [ho, ho']; rfl)
    refine ⟨_, _, rfl, rfl, hpath, hout, herr, hregs.imp_right ?_, fun f hf hx => transformAt_mem_eq hn hresult hm hf hx⟩
    rintro ⟨hred, hred', heng, heng'⟩
    rw [hred, hred', heng, heng', ho, ho']
    exact ⟨hnan, hnan', hnan, hnan'⟩

end Sys2Proof.Machine
end

section
/-! PROOFS. The interrupt output (R79, R270, R302): an idle sequencer raises it exactly when the host has enabled it, and acceptance and a
W1C write of DONE lower it. -/

namespace Sys2Proof.Machine

theorem irq_of_not_done {s : State} (h : s.done = false) : irq s = false := by
  rw [irq, h, Bool.false_and]

/-- A completed command asserts DONE and keeps CTRL, so the output is the host's enable (R126, R127). -/
theorem CompletesFrom.irq_eq {s t : State} (h : CompletesFrom s t) : irq t = s.ie := by
  rw [irq, h.idle.done, h.sameHostSide.ie, Bool.true_and]

theorem clearStatus_done_of_bit {v : BitVec 64} (hv : v.getLsbD 1 = true) (s : State) : (clearStatus v s).done = false := by
  rw [clearStatus, hv, Bool.not_true, Bool.and_false]

/-- Settles O20: acceptance and the write of bit 1 leave DONE clear; a completion sets it. -/
theorem interruptFollowsDoneAndEnable : Obligations.InterruptFollowsDoneAndEnable := by
  unfold Obligations.InterruptFollowsDoneAndEnable
  exact ⟨fun s => rfl, fun w s => irq_of_not_done (accept_done w s), fun i s t ht => (completesFrom_of_exec ht).irq_eq,
    fun v s hv => irq_of_not_done (clearStatus_done_of_bit hv s)⟩

end Sys2Proof.Machine
end

section
/-! PROOFS. Reset (R290, R291, R293): what the reset input leaves behind, and that it is coherent. -/

namespace Sys2Proof.Machine

/-- The registers after reset (R293). -/
theorem visibleRegs_resetStep (s : State) :
    visibleRegs (resetStep s) =
      [0x0001000754465246#64, BitVec.ofNat 64 (2 * Config.nmax * 2 ^ 32 + Config.nmax), 0, 0, 0, 0, 0, 0, 0, 0, 0] := by
  have hctrl : ctrlWord State.reset = 0 := by decide
  have hstatus : statusWord State.reset = 0 := by decide
  change visibleRegs State.reset = _
  rw [← capWord_eq, visibleRegs]
  simp only [readReg, hctrl, hstatus]
  rfl

theorem step_of_reset {s : State} (hlive : staleResponse s = false) (ha : nextAgent s = .reset) :
    step s = .next (resetStep (advance s)) := by
  rw [step, hlive, ha]
  rfl

/-- Settles O19: the step is the reset input's, and its state is the reset state but for the model's own fields. -/
theorem resetAbandonsEverything : Obligations.ResetAbandonsEverything := by
  unfold Obligations.ResetAbandonsEverything
  intro s hlive ha
  exact ⟨_, step_of_reset hlive ha, visibleRegs_resetStep _, rfl, rfl, rfl, rfl, rfl, fun _ => rfl⟩

/-- Settles O55: the base case of the invariant. -/
theorem resetStateIsCoherent : Obligations.ResetStateIsCoherent := coherent_reset

end Sys2Proof.Machine
end

section
/-! PROOFS. Runs from a coherent state (R17, R310; U11): they never stop, and every agent's turn comes up again and again. -/

namespace Sys2Proof.Machine

/-- In a coherent state a response stands only with its request (R86). -/
theorem Coherent.live {s : State} (h : Coherent s) : staleResponse s = false := by
  unfold staleResponse
  cases hp : s.pend with
  | none => rw [h.coreResp_of_pend hp]; rfl
  | some r => exact Bool.and_false _

theorem runFrom_succ_of_step {s t : State} {k : Nat} (h : step (runFrom s k) = .next t) : runFrom s (k + 1) = t := by
  rw [runFrom, h]

theorem nextAgent_of_agenda_nil {s : State} (h : s.agenda = []) : nextAgent s = scheduled s.ticks := by
  rw [nextAgent, h]

namespace Coherent

variable {s : State}

theorem step_next (h : Coherent s) : ∃ t, step s = .next t := Machine.step_next h.live

theorem runFrom (h : Coherent s) (k : Nat) : Coherent (Machine.runFrom s k) := by
  induction k with
  | zero => exact h
  | succ k ih =>
    obtain ⟨t, ht⟩ := ih.step_next
    rw [runFrom_succ_of_step ht]
    exact everyStepKeepsCoherence _ t ih ht

theorem step_runFrom (h : Coherent s) (k : Nat) : step (Machine.runFrom s k) = .next (Machine.runFrom s (k + 1)) := by
  obtain ⟨t, ht⟩ := (h.runFrom k).step_next
  rw [runFrom_succ_of_step ht, ht]

/-- A run uses up the agenda and counts its steps. -/
theorem runFrom_choice (h : Coherent s) (k : Nat) :
    (Machine.runFrom s k).agenda = s.agenda.drop k ∧ (Machine.runFrom s k).ticks = s.ticks + k := by
  induction k with
  | zero => exact ⟨rfl, rfl⟩
  | succ k ih =>
    obtain ⟨hagenda, hticks⟩ := ih
    obtain ⟨hagenda', hticks'⟩ := step_choice (h.step_runFrom k)
    exact ⟨by rw [hagenda', hagenda, List.tail_drop], by rw [hticks', hticks, Nat.add_assoc]⟩

/-- Past the agenda, each of the four agents in rotation is due after any step of the run. -/
theorem exists_turn (h : Coherent s) {i : Nat} (hi : i < 4) (n : Nat) :
    ∃ m, n ≤ m ∧ nextAgent (Machine.runFrom s m) = turnAgent i := by
  obtain ⟨k, hk, hturn⟩ := turn_recurs hi (s.ticks + max n s.agenda.length)
  have hn := le_max_left n s.agenda.length
  have hlen := le_max_right n s.agenda.length
  obtain ⟨hagenda, hticks⟩ := h.runFrom_choice (turnTime k - s.ticks)
  refine ⟨turnTime k - s.ticks, by omega, ?_⟩
  rw [List.drop_eq_nil_of_le (by omega)] at hagenda
  rw [nextAgent_of_agenda_nil hagenda, hticks, Nat.add_sub_cancel' (by omega), scheduled_turnTime, hturn]

/-- Every agent is scheduled again and again, enabled or not. -/
theorem exists_scheduledIn (h : Coherent s) (p : Party) (n : Nat) :
    ∃ m, n ≤ m ∧ p.scheduledIn (Machine.runFrom s m) = true := by
  have hturn (i : Nat) (hi : i < 4) (hp : ∀ t, nextAgent t = turnAgent i → p.scheduledIn t = true) :
      ∃ m, n ≤ m ∧ p.scheduledIn (Machine.runFrom s m) = true := by
    obtain ⟨m, hm, ha⟩ := h.exists_turn hi n
    exact ⟨m, hm, hp _ ha⟩
  cases p with
  | host => exact hturn 0 (by decide) fun t ha => by rw [Party.scheduledIn, ha]; rfl
  | engine => exact hturn 1 (by decide) fun t ha => by rw [Party.scheduledIn, ha]; rfl
  | fftCore => exact hturn 2 (by decide) fun t ha => by rw [Party.scheduledIn, ha]; rfl
  | convCore => exact hturn 3 (by decide) fun t ha => by rw [Party.scheduledIn, ha]; rfl

theorem weaklyFair (h : Coherent s) : WeaklyFair (Machine.runFrom s) := fun p n _ => h.exists_scheduledIn p n

end Coherent

end Sys2Proof.Machine
end

section
/-! PROOFS. Progress of a running command (R125, R131): a count of the moves still to come, which every move of the pipeline lowers and
every other step keeps. -/

namespace Sys2Proof.Machine

/-! The count. -/

/-- A bound on the stages a running command has still to take. REDUCE and FFT_WAIT come twice where reducer step 2 fires; the record's
flags tell which pass it is (R171, R173, R174). -/
def stagesLeft (s : State) : Nat :=
  match s.seq with
  | .idle => 0
  | .run .finish => 1
  | .run .chirpWait => 2
  | .run .interpWait => 3
  | .run .fftWait => if s.work.order.i then 4 else if s.work.order.f then 6 else 8
  | .run .reduce => if s.work.order.f then 5 else 7
  | .run .dispatch => 9
  | .run .check => 10

/-- A bound on the moves still to come: each stage may wait for one answer of a core. -/
def movesLeft (s : State) : Nat := 2 * stagesLeft s + if s.coreResp = none then 1 else 0

/-- The command has ended in `t`, or still runs with fewer than `n` stages to take. -/
def EndsBelow (n : Nat) (t : State) : Prop := ended t ∨ (t.busy = true ∧ stagesLeft t < n)

/-- From `s` to `t` the command has ended or come nearer to its end. -/
def MovesOn (s t : State) : Prop := ended t ∨ (t.busy = true ∧ movesLeft t < movesLeft s)

/-- The pipeline's own state is the same in both. -/
structure SamePipeline (s t : State) : Prop where
  busy : t.busy = s.busy
  seq : t.seq = s.seq
  pend : t.pend = s.pend
  coreResp : t.coreResp = s.coreResp
  work : t.work = s.work

section Count

variable {n : Nat} {s t : State}

theorem endsBelow_of_idle (h : Idle t) : EndsBelow n t := .inl ⟨h.busy, h.done⟩

theorem endsBelow_raiseErr (c : ErrCode) (s : State) : EndsBelow n (raiseErr c s) := endsBelow_of_idle (idle_raiseErr c s)

theorem endsBelow_of_lt (hb : t.busy = true) (h : stagesLeft t < n) : EndsBelow n t := .inr ⟨hb, h⟩

theorem EndsBelow.mono (m : Nat) (h : EndsBelow m t) (hmn : m ≤ n) : EndsBelow n t :=
  h.imp_right fun ⟨hb, hlt⟩ => ⟨hb, hlt.trans_le hmn⟩

/-- A stage outweighs the answer it may have to wait for. -/
theorem EndsBelow.movesOn (h : EndsBelow (stagesLeft s) t) : MovesOn s t := by
  refine h.imp_right fun ⟨hb, hlt⟩ => ⟨hb, ?_⟩
  unfold movesLeft
  split <;> omega

theorem movesOn_of_idle (h : Idle t) : MovesOn s t := .inl ⟨h.busy, h.done⟩

theorem samePipeline_refl (s : State) : SamePipeline s s := ⟨rfl, rfl, rfl, rfl, rfl⟩

theorem SamePipeline.movesLeft_eq (h : SamePipeline s t) : movesLeft t = movesLeft s := by
  unfold movesLeft stagesLeft
  rw [h.seq, h.coreResp, h.work]

theorem SamePipeline.enabled_eq (h : SamePipeline s t) {p : Party} (hp : p ≠ .host) : p.enabled t = p.enabled s := by
  cases p with
  | host => exact absurd rfl hp
  | engine => unfold Party.enabled; rw [h.seq, h.coreResp]
  | fftCore => unfold Party.enabled; rw [h.pend, h.coreResp]
  | convCore => unfold Party.enabled; rw [h.pend, h.coreResp]

/-! The stages (R125). -/

theorem stagesLeft_fftWait (h : s.seq = .run .fftWait) :
    stagesLeft s = if s.work.order.i then 4 else if s.work.order.f then 6 else 8 := by
  rw [stagesLeft, h]

theorem stagesLeft_reduce (h : s.seq = .run .reduce) : stagesLeft s = if s.work.order.f then 5 else 7 := by
  rw [stagesLeft, h]

theorem endsBelow_goFinish {r : List Sample} (hb : s.busy = true) (hn : 1 < n) : EndsBelow n (goFinish r s) :=
  endsBelow_of_lt hb hn

theorem endsBelow_startEngine (hb : s.busy = true) : EndsBelow 4 (startEngine s) := by
  unfold startEngine
  split
  · exact endsBelow_of_lt hb (show 3 < 4 by decide)
  · exact endsBelow_raiseErr _ _

theorem endsBelow_reduceStep3 (hb : s.busy = true) : EndsBelow 5 (reduceStep3 s) := by
  unfold reduceStep3
  dsimp only
  split <;> rename_i hi
  · refine endsBelow_of_lt hb ?_
    rw [stagesLeft_fftWait rfl]
    exact (if_pos hi).trans_lt (by decide)
  · refine (endsBelow_startEngine ?_).mono 4 (by decide)
    exact hb

theorem endsBelow_reduceStep12 (hb : s.busy = true) : EndsBelow 7 (reduceStep12 s) := by
  unfold reduceStep12
  dsimp only
  split <;> rename_i hf
  · refine endsBelow_of_lt hb ?_
    rw [stagesLeft_fftWait rfl]
    simp only [issue_work, hf]
    split <;> decide
  · refine (endsBelow_reduceStep3 ?_).mono 5 (by decide)
    exact hb

theorem endsBelow_stageLength {next : State → State} (hb : s.busy = true) (hn : ∀ u : State, u.busy = true → EndsBelow 10 (next u)) :
    EndsBelow 10 (stageLength next s) := by
  unfold stageLength
  split
  · exact endsBelow_raiseErr _ s
  · exact endsBelow_raiseErr _ s
  · exact endsBelow_goFinish hb (by decide)
  · exact hn _ hb

theorem endsBelow_goReduce (hb : s.busy = true) : EndsBelow 8 (goStage .reduce s) := by
  refine endsBelow_of_lt hb ?_
  rw [stagesLeft_reduce rfl]
  split <;> decide

theorem endsBelow_stageCheck (hb : s.busy = true) : EndsBelow 10 (stageCheck s) := by
  have hdispatch (u : State) (hu : u.busy = true) : EndsBelow 10 (goStage .dispatch u) :=
    endsBelow_of_lt hu (show 9 < 10 by decide)
  have hinterp (u : State) (hu : u.busy = true) : EndsBelow 10 (issueInterp u) := endsBelow_of_lt hu (show 3 < 10 by decide)
  unfold stageCheck
  split
  · exact endsBelow_raiseErr _ s
  · exact endsBelow_of_idle (idle_finish [] s)
  · exact (endsBelow_goReduce hb).mono 8 (by decide)
  · exact endsBelow_stageLength hb hdispatch
  · exact endsBelow_stageLength hb hdispatch
  · exact endsBelow_stageLength hb hinterp
  · exact endsBelow_stageLength hb fun u hu => (endsBelow_startEngine hu).mono 4 (by decide)

theorem endsBelow_stageDispatch (hb : s.busy = true) : EndsBelow 9 (stageDispatch s) := by
  unfold stageDispatch
  dsimp only
  split
  · exact endsBelow_goFinish hb (by decide)
  · exact endsBelow_goFinish hb (by decide)
  · exact endsBelow_of_lt hb (show 8 < 9 by decide)
  · exact endsBelow_of_lt hb (show 8 < 9 by decide)
  · refine (endsBelow_goReduce ?_).mono 8 (by decide)
    exact hb

/-- The range reducer, from its start or resumed at step 3. -/
theorem endsBelow_reducer (hb : s.busy = true) :
    EndsBelow (if s.work.order.f then 5 else 7) (if s.work.order.f then reduceStep3 s else reduceStep12 s) := by
  split
  · exact endsBelow_reduceStep3 hb
  · exact endsBelow_reduceStep12 hb

theorem endsBelow_stageReduce (hb : s.busy = true) (hop : s.snap.op = .legal .reduce ∨ isTransform s.snap.op = true) :
    EndsBelow (if s.work.order.f then 5 else 7) (stageReduce s) := by
  unfold stageReduce
  rcases hop with hop | ht
  · rw [hop]
    dsimp only
    cases reduceFails (dispatchOrder s.snap.a0)
    · exact endsBelow_goFinish (s := setOrder _ s) hb (by split <;> decide)
    · exact endsBelow_raiseErr _ _
  · rcases isTransform_iff.1 ht with hop | hop <;> rw [hop] <;> exact endsBelow_reducer hb

theorem endsBelow_fftArrived (hb : s.busy = true) (g : List Sample) :
    EndsBelow (if s.work.order.i then 4 else if s.work.order.f then 6 else 8) (fftArrived g s) := by
  cases hcls : s.work.order.cls
  case general =>
    cases hi : s.work.order.i with
    | true =>
      rw [fftArrived_inverse g hcls hi]
      exact endsBelow_startEngine hb
    | false =>
      rw [fftArrived_forward g hcls hi]
      refine endsBelow_of_lt hb ?_
      rw [stagesLeft_reduce rfl]
      cases hf : s.work.order.f <;> simp [hf]
  all_goals
    rw [fftArrived_special g (by rw [hcls]; decide)]
    exact endsBelow_goFinish hb (by cases s.work.order.i <;> cases s.work.order.f <;> decide)

theorem endsBelow_interpArrived (hb : s.busy = true) (w : List Sample) : EndsBelow 3 (interpArrived w s) := by
  by_cases hop : s.snap.op = .legal .interp
  · rw [interpArrived_interp w hop]
    exact endsBelow_goFinish hb (by decide)
  · rw [interpArrived_chirp w hop]
    exact endsBelow_of_lt hb (show 2 < 3 by decide)

theorem endsBelow_chirpArrived (hb : s.busy = true) (w : List Sample) : EndsBelow 2 (chirpArrived w s) :=
  endsBelow_goFinish hb (by decide)

/-- An enabled engine's stage is a stage taken. -/
theorem endsBelow_stageStep (h : Coherent s) (hb : s.busy = true) (he : Party.engine.enabled s = true) :
    EndsBelow (stagesLeft s) (stageStep s) := by
  have hst := h.stage
  unfold stageCoherent at hst
  unfold Party.enabled at he
  unfold stagesLeft stageStep onResponse
  split at hst <;> rename_i hs <;> simp only [hs] at he ⊢
  · cases he
  · exact endsBelow_stageCheck hb
  · exact endsBelow_stageDispatch hb
  · obtain ⟨-, hop⟩ := hst
    exact endsBelow_stageReduce hb (hop.imp_right And.left)
  · obtain ⟨g, hg⟩ := Option.isSome_iff_exists.1 he
    rw [hg]
    exact endsBelow_fftArrived hb g
  · obtain ⟨g, hg⟩ := Option.isSome_iff_exists.1 he
    rw [hg]
    exact endsBelow_interpArrived hb g
  · obtain ⟨g, hg⟩ := Option.isSome_iff_exists.1 he
    rw [hg]
    exact endsBelow_chirpArrived hb g
  · exact endsBelow_of_idle (idle_finish _ _)

/-- An engine that is not enabled has no stage to take. -/
theorem stageStep_of_not_enabled (he : Party.engine.enabled s = false) : stageStep s = s := by
  unfold Party.enabled at he
  unfold stageStep
  split <;> rename_i hs <;> simp only [hs] at he
  case h_1 => rfl
  case h_5 | h_6 | h_7 =>
    rw [Option.isSome_eq_false_iff, Option.isNone_iff_eq_none] at he
    rw [onResponse, he]
  all_goals cases he

/-! The cores (R86, R87). -/

theorem fftCore_enabled_iff :
    Party.fftCore.enabled s = true ↔ (∃ dir x, s.pend = some (.fft dir x)) ∧ s.coreResp = none := by
  unfold Party.enabled
  dsimp only
  split <;> rename_i hp <;> simp [hp]

theorem convCore_enabled_iff :
    Party.convCore.enabled s = true ↔ (∃ p q, s.pend = some (.conv p q)) ∧ s.coreResp = none := by
  unfold Party.enabled
  dsimp only
  split <;> rename_i hp <;> simp [hp]

/-- An answer is a move: the stage need not wait any more. -/
theorem movesOn_answer (hb : s.busy = true) (hc : s.coreResp = none) (r : CoreRequest) : MovesOn s (answer r s) := by
  have hanswer : answer r s = { s with coreResp := some (respond Config.num r) } := by rw [answer, hc]
  rw [hanswer]
  refine .inr ⟨hb, ?_⟩
  rw [movesLeft, movesLeft, if_pos hc]
  exact Nat.lt_succ_self _

theorem movesOn_or_same_answer (hb : s.busy = true) (r : CoreRequest) :
    MovesOn s (answer r s) ∨ SamePipeline s (answer r s) := by
  cases hc : s.coreResp with
  | none => exact .inl (movesOn_answer hb hc r)
  | some g =>
    rw [show answer r s = s by rw [answer, hc]]
    exact .inr (samePipeline_refl s)

theorem movesOn_fftCoreStep (hb : s.busy = true) (he : Party.fftCore.enabled s = true) : MovesOn s (fftCoreStep s) := by
  obtain ⟨⟨dir, x, hp⟩, hc⟩ := fftCore_enabled_iff.1 he
  rw [fftCoreStep, hp]
  exact movesOn_answer hb hc _

theorem movesOn_convCoreStep (hb : s.busy = true) (he : Party.convCore.enabled s = true) : MovesOn s (convCoreStep s) := by
  obtain ⟨⟨p, q, hp⟩, hc⟩ := convCore_enabled_iff.1 he
  rw [convCoreStep, hp]
  exact movesOn_answer hb hc _

/-! The whole-command step (R132). -/

theorem movesOn_commandStep (hs : s.seq = .run .check) (ht : commandStep s = .next t) : MovesOn s t := by
  unfold commandStep at ht
  rw [hs] at ht
  dsimp only at ht
  split at ht
  · exact movesOn_of_idle (completesFrom_of_exec ht).idle
  · injection ht with ht
    exact ht ▸ movesOn_of_idle (idle_raiseErr _ s)

theorem commandStep_of_not_check (hs : s.seq ≠ .run .check) : commandStep s = .next s := by
  unfold commandStep
  split
  case h_2 h => exact absurd h hs
  all_goals rfl

/-! The host, while a command runs (R66, R265). -/

theorem samePipeline_writeReg (hb : s.busy = true) (r : Reg) (v : BitVec 64) : SamePipeline s (writeReg r v s) := by
  cases r <;> rw [writeReg]
  case cmd | len | order => rw [if_pos hb]; exact ⟨rfl, rfl, rfl, rfl, rfl⟩
  all_goals exact ⟨rfl, rfl, rfl, rfl, rfl⟩

theorem samePipeline_writeRegAt (hb : s.busy = true) (off : Nat) (v : BitVec 64) : SamePipeline s (writeRegAt off v s) := by
  unfold writeRegAt
  split
  · exact samePipeline_writeReg hb _ v
  · exact samePipeline_refl s

theorem samePipeline_hostRead (off : BitVec 32) (bytes : Nat) (s : State) : SamePipeline s (hostRead off bytes s) := by
  unfold hostRead
  split
  · exact ⟨rfl, rfl, rfl, rfl, rfl⟩
  · split <;> exact ⟨rfl, rfl, rfl, rfl, rfl⟩

theorem samePipeline_hostWrite (hb : s.busy = true) (off : BitVec 32) (bytes : Nat) (v : BitVec 64) :
    SamePipeline s (hostWrite off bytes v s) := by
  unfold hostWrite
  split
  · exact ⟨rfl, rfl, rfl, rfl, rfl⟩
  · split
    · exact { samePipeline_writeRegAt hb off.toNat v with }
    · rw [writeXbuf, if_pos hb]
      exact ⟨rfl, rfl, rfl, rfl, rfl⟩

theorem samePipeline_hostStep (hb : s.busy = true) : SamePipeline s (hostStep s) := by
  unfold hostStep
  split
  · exact samePipeline_refl s
  · next rest _ => exact { samePipeline_hostRead _ _ { s with hostQueue := rest } with }
  · next rest _ => exact { samePipeline_hostWrite (s := { s with hostQueue := rest }) hb _ _ _ with }
  · split <;> exact ⟨rfl, rfl, rfl, rfl, rfl⟩

end Count

/-! All agents. -/

namespace Coherent

variable {s t : State}

/-- While a command runs, one of the pipeline's three agents is enabled (R87, R125). -/
theorem exists_enabled (h : Coherent s) (hb : s.busy = true) : ∃ p : Party, p ≠ .host ∧ p.enabled s = true := by
  have hst := h.stage
  have hengine (he : Party.engine.enabled s = true) : ∃ p : Party, p ≠ .host ∧ p.enabled s = true :=
    ⟨.engine, by decide, he⟩
  have hwait (he : Party.engine.enabled s = s.coreResp.isSome)
      (hcore : s.coreResp = none → ∃ p : Party, p ≠ .host ∧ p.enabled s = true) : ∃ p : Party, p ≠ .host ∧ p.enabled s = true := by
    cases hc : s.coreResp with
    | none => exact hcore hc
    | some g => exact hengine (by rw [he, hc]; rfl)
  unfold stageCoherent at hst
  split at hst <;> rename_i hs
  case h_1 => exact absurd (hb.symm.trans (h.idleIffNotBusy.1 hs)) Bool.noConfusion
  case h_5 =>
    obtain ⟨⟨dir, x, hp, -⟩, -⟩ := hst
    exact hwait (by simp only [Party.enabled, hs]) fun hc => ⟨.fftCore, by decide, fftCore_enabled_iff.2 ⟨⟨dir, x, hp⟩, hc⟩⟩
  case h_6 | h_7 =>
    obtain ⟨⟨p, q, hp, -⟩, -⟩ := hst
    exact hwait (by simp only [Party.enabled, hs]) fun hc => ⟨.convCore, by decide, convCore_enabled_iff.2 ⟨⟨p, q, hp⟩, hc⟩⟩
  all_goals exact hengine (by simp only [Party.enabled, hs])

/-- No agent but reset sets a running command back. -/
theorem agentStep_movesOn_or_same (h : Coherent s) (hb : s.busy = true) {a : Agent} (ha : a ≠ .reset)
    (ht : Machine.agentStep a s = .next t) : MovesOn s t ∨ SamePipeline s t := by
  cases a with
  | reset => exact absurd rfl ha
  | host =>
    injection ht with ht
    exact ht ▸ .inr (samePipeline_hostStep hb)
  | command =>
    by_cases hs : s.seq = .run .check
    · exact .inl (movesOn_commandStep hs ht)
    · rw [Machine.agentStep, commandStep_of_not_check hs] at ht
      injection ht with ht
      exact ht ▸ .inr (samePipeline_refl s)
  | stage =>
    injection ht with ht
    subst ht
    cases he : Party.engine.enabled s with
    | true => exact .inl (endsBelow_stageStep h hb he).movesOn
    | false =>
      rw [stageStep_of_not_enabled he]
      exact .inr (samePipeline_refl s)
  | fftCore =>
    injection ht with ht
    subst ht
    unfold Machine.fftCoreStep
    split
    · exact movesOn_or_same_answer hb _
    all_goals exact .inr (samePipeline_refl s)
  | convCore =>
    injection ht with ht
    subst ht
    unfold Machine.convCoreStep
    split
    · exact movesOn_or_same_answer hb _
    all_goals exact .inr (samePipeline_refl s)

theorem agentStep_of_step (h : Coherent s) (ht : step s = .next t) :
    Machine.agentStep (nextAgent s) (Machine.advance s) = .next t := by
  rwa [step, if_neg (Bool.eq_false_iff.1 h.live)] at ht

theorem step_movesOn_or_same (h : Coherent s) (hb : s.busy = true) (ha : nextAgent s ≠ .reset) (ht : step s = .next t) :
    MovesOn s t ∨ SamePipeline s t :=
  (h.advance.agentStep_movesOn_or_same hb ha (h.agentStep_of_step ht)).imp id fun hs => { hs with }

/-- An enabled agent of the pipeline, scheduled, brings the command nearer to its end. -/
theorem step_movesOn (h : Coherent s) (hb : s.busy = true) {p : Party} (hp : p ≠ .host) (he : p.enabled s = true)
    (hsched : p.scheduledIn s = true) (ht : step s = .next t) : MovesOn s t := by
  have hagent := h.agentStep_of_step ht
  cases p with
  | host => exact absurd rfl hp
  | engine =>
    simp only [Party.scheduledIn, Bool.or_eq_true, Bool.and_eq_true, beq_iff_eq] at hsched
    rcases hsched with ha | ⟨ha, hs⟩ <;> rw [ha] at hagent
    · injection hagent with hagent
      exact hagent ▸ (endsBelow_stageStep h.advance hb he).movesOn
    · exact movesOn_commandStep (s := Machine.advance s) hs hagent
  | fftCore =>
    rw [eq_of_beq hsched] at hagent
    injection hagent with hagent
    exact hagent ▸ movesOn_fftCoreStep (s := Machine.advance s) hb he
  | convCore =>
    rw [eq_of_beq hsched] at hagent
    injection hagent with hagent
    exact hagent ▸ movesOn_convCoreStep (s := Machine.advance s) hb he

end Coherent

end Sys2Proof.Machine
end

section
/-! PROOFS. Completion of a running command (R131, R291, R310): by induction on the moves still to come, and for each move on the steps
until an enabled agent's turn. -/

namespace Sys2Proof.Machine

/-- The run from `s` is busy until the command ends or the platform asserts reset. -/
def EndsOrResets (s : State) : Prop :=
  ∃ k, (∀ j, j < k → (runFrom s j).busy = true) ∧
    (ended (runFrom s k) ∨ ((runFrom s k).busy = true ∧ nextAgent (runFrom s k) = .reset))

theorem endsOrResets_of_ended {s : State} (h : ended s) : EndsOrResets s := ⟨0, by simp, .inl h⟩

theorem endsOrResets_of_reset {s : State} (hb : s.busy = true) (ha : nextAgent s = .reset) : EndsOrResets s :=
  ⟨0, by simp, .inr ⟨hb, ha⟩⟩

theorem EndsOrResets.of_step {s t : State} (hb : s.busy = true) (ht : step s = .next t) (h : EndsOrResets t) :
    EndsOrResets s := by
  obtain ⟨k, hbusy, hend⟩ := h
  refine ⟨k + 1, fun j hj => ?_, by rwa [runFrom_succ ht]⟩
  cases j with
  | zero => exact hb
  | succ j =>
    rw [runFrom_succ ht]
    exact hbusy j (Nat.lt_of_succ_lt_succ hj)

namespace Coherent

/-- If commands with fewer moves to come end, one whose enabled agent has its turn `n` steps on ends. -/
theorem endsOrResets_of_turn {p : Party} (hp : p ≠ .host) {m : Nat}
    (hless : ∀ t : State, Coherent t → t.busy = true → movesLeft t < m → EndsOrResets t) (n : Nat) {s : State} (h : Coherent s)
    (hb : s.busy = true) (hm : movesLeft s = m) (he : p.enabled s = true) (hturn : p.scheduledIn (Machine.runFrom s n) = true) :
    EndsOrResets s := by
  have hmove {s t : State} (h : Coherent s) (hm : movesLeft s = m) (ht : step s = .next t) (hst : MovesOn s t) :
      EndsOrResets t := by
    rcases hst with hend | ⟨hbt, hlt⟩
    · exact endsOrResets_of_ended hend
    · exact hless t (everyStepKeepsCoherence s t h ht) hbt (hm ▸ hlt)
  induction n generalizing s with
  | zero =>
    obtain ⟨t, ht⟩ := h.step_next
    exact .of_step hb ht (hmove h hm ht (h.step_movesOn hb hp he hturn ht))
  | succ n ih =>
    by_cases ha : nextAgent s = .reset
    · exact endsOrResets_of_reset hb ha
    · obtain ⟨t, ht⟩ := h.step_next
      refine .of_step hb ht ?_
      rcases h.step_movesOn_or_same hb ha ht with hst | hsame
      · exact hmove h hm ht hst
      · rw [runFrom_succ ht] at hturn
        exact ih (everyStepKeepsCoherence s t h ht) (hsame.busy.trans hb) (hsame.movesLeft_eq.trans hm)
          ((hsame.enabled_eq hp).trans he) hturn

theorem endsOrResets {s : State} (h : Coherent s) (hb : s.busy = true) : EndsOrResets s := by
  induction hm : movesLeft s using Nat.strong_induction_on generalizing s with
  | _ m ih =>
    obtain ⟨p, hp, he⟩ := h.exists_enabled hb
    obtain ⟨n, -, hturn⟩ := h.exists_scheduledIn p 0
    exact endsOrResets_of_turn hp (fun t ht hbt hlt => ih _ hlt ht hbt rfl) n h hb hm he hturn

end Coherent

/-- Settles O56: coherence keeps the run going, the due turns make it fair, and the moves still to come run out. -/
theorem coherentStatesAlwaysStep : Obligations.CoherentStatesAlwaysStep := by
  unfold Obligations.CoherentStatesAlwaysStep
  intro s h
  exact ⟨h.step_next, h.step_runFrom, h.weaklyFair, h.endsOrResets⟩

end Sys2Proof.Machine
end
